-- ==== Sys2Proof/Word.lean ====
section
/-! DEFINITION. The word types of the machine: register contents, addresses and fields, at the widths the
spec gives them (spec/00_scope.md R6, R8; spec/10_state.md R21, R47, R52 to R54). -/

namespace Sys2Proof

/-- A byte of memory. -/
abbrev Byte := BitVec 8

/-- A 64-bit register or effective address (R21, R47, R52). -/
abbrev Word := BitVec 64

/-- A 32-bit instruction word (R140), also the width of DSISR (R46). -/
abbrev Word32 := BitVec 32

/-- A 62-bit physical address (R54). -/
abbrev PA := BitVec 62

/-- A virtual page number, VA[0:67] (R17, R82): 52 bits of VSID above 16 bits of page index. -/
abbrev VPN := BitVec 68

/-- A 5-bit register number (R147). -/
abbrev Reg := BitVec 5

end Sys2Proof
end

