-- ==== Sys2Proof/Config.lean ====
section
/-! DEFINITION. What an implementation fixes (spec/00_scope.md R6; spec/93_implementation_defined.md P1 to P14) as
ONE structure of plain data, and the free values (opaque constants, no body) that stand for what the spec leaves
open. A machine carries its Config in State (`State.cfg`); no step changes it (log entry 1). -/

namespace Sys2Proof

/-- A range of physical addresses where memory is present: `base`, `base + 1`, …, `base + size - 1`. -/
structure Region where
  base : Nat
  size : Nat
  deriving DecidableEq, Repr

/-- REAL_MODE_HIGH_BITS (R6, R73, P10): what becomes of EA bits 0:1 in real addressing mode. -/
inductive HighBits where
  | ignore
  | machineCheck
  deriving DecidableEq, Repr

/-- MTMSRD_VARIANT (R180, R184, P5). -/
inductive MtmsrdVariant where
  | v2
  | plain
  deriving DecidableEq, Repr

/-- TLBIE_OPERAND (R165, P6): "the layout of R165, or another". Of another layout the spec says only that it
exists, so under `other` NO entry is guaranteed to be removed (log entry 14). -/
inductive TlbieOperand where
  | layoutR165
  | other
  deriving DecidableEq, Repr

/-- The parameters of R6 and of P1 to P14. SLB_ENTRIES is not here: it is the length of `State.slb` (log
entry 2). EA_BITS, PAGE_SHIFT, SEGMENT_SHIFT and PTES_PER_PTEG are fixed by the source (R6) and appear as numbers
where the rules use them. -/
structure Config where
  /-- VA_BITS, n (P1). -/
  vaBits : Nat
  /-- PA_BITS, m (P2). -/
  paBits : Nat
  /-- `Present` (P12, D16): the physical addresses where memory exists, as finitely many ranges (log entry 3). -/
  present : List Region
  /-- TLB_PRESENT (P4). -/
  tlbPresent : Bool
  /-- HTABSIZE_MAX (P14). -/
  htabSizeMax : Nat
  /-- LARGE_PAGE_SHIFTS (P13): the empty set is the only value the spec supports. -/
  largePageShifts : List Nat
  /-- VECTOR_BASE (P11), a physical address. -/
  vectorBase : PA
  /-- REAL_MODE_HIGH_BITS (P10). -/
  realModeHighBits : HighBits
  /-- MTMSRD_VARIANT (P5). -/
  mtmsrdVariant : MtmsrdVariant
  /-- TLBIE_OPERAND (P6). -/
  tlbieOperand : TlbieOperand
  /-- TLBIA_IMPLEMENTED (R152, P7). -/
  tlbiaImplemented : Bool
  /-- SLBIA_KEEPS_ENTRY0 (R164, P8). -/
  slbiaKeepsEntry0 : Bool
  /-- PTE_N_IMPLEMENTED (R113, P9). -/
  pteNImplemented : Bool
  deriving DecidableEq, Repr

/-- The defaults of R6 and P1 to P14. `Present` has no default in the spec; this one has memory at every physical
address (log entry 3, DESIGN CHOICE). -/
def Config.standard : Config where
  vaBits := 80
  paBits := 62
  present := [⟨0, 2 ^ 62⟩]
  tlbPresent := false
  htabSizeMax := 28
  largePageShifts := []
  vectorBase := 0
  realModeHighBits := .ignore
  mtmsrdVariant := .v2
  tlbieOperand := .layoutR165
  tlbiaImplemented := true
  slbiaKeepsEntry0 := true
  pteNImplemented := true

/-- SLB_ENTRIES of the machine that `State.reset` describes (R6, R33: default 64). -/
def Config.standardSlbEntries : Nat := 64

/-- The ranges that R6 and P1 to P14 allow the parameters. -/
def Config.wf (c : Config) : Bool :=
  decide (65 ≤ c.vaBits) && decide (c.vaBits ≤ 80) && decide (1 ≤ c.paBits) && decide (c.paBits ≤ 62)
    && decide (c.htabSizeMax ≤ 31) && c.largePageShifts.isEmpty && decide (c.vectorBase.toNat % 4096 = 0)

/-- What a free choice is about. Each use of a free value names its subject, so that no two uses are tied. -/
inductive Choice where
  /-- R260: whether an access inside an MSR window sees IR (DR, PR) as 1. -/
  | msrIR
  | msrDR
  | msrPR
  /-- R261: which recorded contents of SLB entry `i` an access uses. -/
  | slb (i : Nat)
  /-- R261: which recorded contents of SDR1 an access uses. -/
  | sdr1
  /-- R127, R262: which recorded value of the doubleword at `a` a page-table search reads. -/
  | dword (a : Nat)
  /-- R87, R41: which TLB copy of a page an access uses. -/
  | tlbHit
  /-- R87: whether a search of memory adds the PTE it found to the TLB. -/
  | tlbReload
  /-- R41 (b): whether TLB entry `i` is dropped. -/
  | tlbEvict (i : Nat)
  /-- R165: whether `tlbie` removes entry `i` beyond those it must. -/
  | tlbieExtra (i : Nat)
  /-- R66, U17: whether the first page's R bit is set when the second part of an access fails. -/
  | firstPartR
  deriving DecidableEq, Repr

/-- FREE VALUE: the outcome of the `n`-th draw on a subject (R66, R87, R41, R165, R260 to R262). -/
opaque Config.freeNat : (n : Nat) → Choice → Nat

/-- FREE VALUE: the 64-bit value of the `n`-th draw (R161, R162, R215: U4, U10). -/
opaque Config.freeWord : (n : Nat) → Word

/-- FREE VALUE: the virtual pages whose PTEs the TLB reload agent copies at the `n`-th draw (R41 (a)). -/
opaque Config.freeVpns : (n : Nat) → List VPN

/-- A free yes or no. -/
def Config.freeBool (n : Nat) (c : Choice) : Bool := Config.freeNat n c % 2 == 1

end Sys2Proof
end

