-- ==== Sys2Proof/Machine/Bits.lean ====
section
/-! DEFINITION. Bit fields in the spec's numbering (spec/00_scope.md R7, R8: bit 0 is the most significant), masks,
and the big-endian order of bytes (spec/20_memory.md R62, R64). -/

namespace Sys2Proof

/-- `v[a:b]` of R8: from bit `a` down to bit `b`, bit 0 being the most significant of `w` bits. -/
def slice {w : Nat} (v : BitVec w) (a b : Nat) : BitVec (b - a + 1) :=
  v.extractLsb' (w - 1 - b) (b - a + 1)

/-- `v[a]` of R8. -/
def bit {w : Nat} (v : BitVec w) (a : Nat) : Bool := v.getMsbD a

/-- The word whose bits `a` to `b` are 1 and whose others are 0. -/
def fieldMask (a b : Nat) : Word :=
  BitVec.ofNat 64 ((2 ^ (b - a + 1) - 1) <<< (63 - b))

/-- The word whose bit `a` alone is 1. -/
def bitMask (a : Nat) : Word := fieldMask a a

/-- `dst` with the bits that `mask` selects taken from `src`. -/
def copyBits (mask src dst : Word) : Word := (dst &&& ~~~mask) ||| (src &&& mask)

/-- `v` with bit `a` made `b`. -/
def putBit (v : Word) (a : Nat) (b : Bool) : Word :=
  if b then v ||| bitMask a else v &&& ~~~(bitMask a)

/-- The number that bytes spell, the first the most significant (R62, R64). -/
def beValue (bs : List Byte) : Nat := bs.foldl (fun acc b => acc * 256 + b.toNat) 0

/-- The `n` bytes of the number `v`, the most significant first (R64). -/
def beBytes (n : Nat) (v : Nat) : List Byte :=
  (List.range n).map fun k => BitVec.ofNat 8 (v >>> (8 * (n - 1 - k)))

end Sys2Proof
end

