-- ==== Sys2Proof/Syntax.lean ====
section
/-! DEFINITION. The instructions: one constructor per row of spec/opcode_table.json, which is the table of
spec/30_encoding.md R149. Operands are the encoded fields: register numbers (5 bits), the SPR NUMBER with its
halves already unswapped (R143, R147), the L fields, and the displacement fields D and DS as encoded. -/

namespace Sys2Proof

inductive Instr where
  /-- R160 -/
  | slbmte (rs rb : Reg)
  /-- R161 -/
  | slbmfev (rt rb : Reg)
  /-- R162 -/
  | slbmfee (rt rb : Reg)
  /-- R163 -/
  | slbie (rb : Reg)
  /-- R164 -/
  | slbia
  /-- R165 -/
  | tlbie (rb : Reg) (l : BitVec 1)
  /-- R166 -/
  | tlbia
  /-- R167 -/
  | tlbsync
  /-- R180 -/
  | mtmsrd (rs : Reg) (l : BitVec 1)
  /-- R181 -/
  | mfmsr (rt : Reg)
  /-- R182 -/
  | mtspr (spr : BitVec 10) (rs : Reg)
  /-- R183 -/
  | mfspr (rt : Reg) (spr : BitVec 10)
  /-- R184 -/
  | rfid
  /-- R185: `sync` (L = 0), `lwsync` (L = 1), `ptesync` (L = 2) -/
  | sync (l : BitVec 2)
  /-- R186 -/
  | isync
  /-- R201 -/
  | lbz (rt ra : Reg) (d : BitVec 16)
  /-- R202 -/
  | stb (rs ra : Reg) (d : BitVec 16)
  /-- R203 -/
  | ld (rt ra : Reg) (ds : BitVec 14)
  /-- R204 -/
  | std (rs ra : Reg) (ds : BitVec 14)
  deriving DecidableEq, Repr

/-- The mnemonic of the instruction's row in spec/opcode_table.json. -/
def Instr.mnemonic : Instr → String
  | .slbmte _ _ => "slbmte"
  | .slbmfev _ _ => "slbmfev"
  | .slbmfee _ _ => "slbmfee"
  | .slbie _ => "slbie"
  | .slbia => "slbia"
  | .tlbie _ _ => "tlbie"
  | .tlbia => "tlbia"
  | .tlbsync => "tlbsync"
  | .mtmsrd _ _ => "mtmsrd"
  | .mfmsr _ => "mfmsr"
  | .mtspr _ _ => "mtspr"
  | .mfspr _ _ => "mfspr"
  | .rfid => "rfid"
  | .sync _ => "sync"
  | .isync => "isync"
  | .lbz _ _ _ => "lbz"
  | .stb _ _ _ => "stb"
  | .ld _ _ _ => "ld"
  | .std _ _ _ => "std"

/-- The privileged instructions (R148): every instruction of files 40 and 41 except `sync` and `isync`. -/
def Instr.privileged : Instr → Bool
  | .slbmte _ _ => true
  | .slbmfev _ _ => true
  | .slbmfee _ _ => true
  | .slbie _ => true
  | .slbia => true
  | .tlbie _ _ => true
  | .tlbia => true
  | .tlbsync => true
  | .mtmsrd _ _ => true
  | .mfmsr _ => true
  | .mtspr _ _ => true
  | .mfspr _ _ => true
  | .rfid => true
  | .sync _ => false
  | .isync => false
  | .lbz _ _ _ => false
  | .stb _ _ _ => false
  | .ld _ _ _ => false
  | .std _ _ _ => false

end Sys2Proof
end

