-- ==== Sys2Proof/WellFormed.lean ====
section
/-! DEFINITION. The operands the spec gives an instruction: `mtspr` and `mfspr` name one of the five registers of
R187 (spec/30_encoding.md R151), and the L field of `sync` is not 3 (R185, R150). Every other field may hold any
value of its width (R147). -/

namespace Sys2Proof

/-- The SPR numbers of R187. -/
def sprNumbers : List (BitVec 10) := [18, 19, 25, 26, 27]

def Instr.wf : Instr → Bool
  | .slbmte _ _ => true
  | .slbmfev _ _ => true
  | .slbmfee _ _ => true
  | .slbie _ => true
  | .slbia => true
  | .tlbie _ _ => true
  | .tlbia => true
  | .tlbsync => true
  | .mtmsrd _ _ => true
  | .mfmsr _ => true
  | .mtspr spr _ => sprNumbers.contains spr
  | .mfspr _ spr => sprNumbers.contains spr
  | .rfid => true
  | .sync l => l != 3
  | .isync => true
  | .lbz _ _ _ => true
  | .stb _ _ _ => true
  | .ld _ _ _ => true
  | .std _ _ _ => true

end Sys2Proof
end

