-- ==== Sys2Proof/Decode.lean ====
section
/-! DEFINITION. Instruction words (spec/30_encoding.md): the opcode table of R149, the decoder (total, rejecting by
name: R150, R151) and, after it, the encoder. Field positions are those of R142 to R146, in the spec's numbering. -/

namespace Sys2Proof

/-- Why a word is no instruction of the spec. -/
inductive DecodeError where
  /-- Fewer than four bytes. -/
  | truncated
  /-- The word matches no row of R149 (R151, U16). -/
  | outsideSpec (w : Word32)
  /-- Opcode and extended opcode of a row, with a non-zero reserved field (R150, U9). -/
  | reservedField (mnemonic : String)
  /-- `sync` with L = 3 (R185, U9). -/
  | syncReserved
  /-- `mtspr` or `mfspr` with an SPR number outside the five of R187 (R151, U16). -/
  | sprOutsideSpec (n : BitVec 10)
  deriving DecidableEq, Repr

/-- A row of R149: `pattern` is the word with every operand field 0 (the spec's `match`), and `mask` has a 1 in
every bit that is opcode, extended opcode or reserved. -/
structure OpcodeRow where
  mnemonic : String
  pattern : Word32
  mask : Word32
  deriving DecidableEq, Repr

/-- The table of R149. -/
def opcodeTable : List OpcodeRow :=
  [⟨"slbmte", 0x7C000324, 0xFC1F07FF⟩, ⟨"slbmfev", 0x7C0006A6, 0xFC1F07FF⟩,
   ⟨"slbmfee", 0x7C000726, 0xFC1F07FF⟩, ⟨"slbie", 0x7C000364, 0xFFFF07FF⟩,
   ⟨"slbia", 0x7C0003E4, 0xFFFFFFFF⟩, ⟨"tlbie", 0x7C000264, 0xFFDF07FF⟩,
   ⟨"tlbia", 0x7C0002E4, 0xFFFFFFFF⟩, ⟨"tlbsync", 0x7C00046C, 0xFFFFFFFF⟩,
   ⟨"mtmsrd", 0x7C000164, 0xFC1EFFFF⟩, ⟨"mfmsr", 0x7C0000A6, 0xFC1FFFFF⟩,
   ⟨"mtspr", 0x7C0003A6, 0xFC0007FF⟩, ⟨"mfspr", 0x7C0002A6, 0xFC0007FF⟩,
   ⟨"rfid", 0x4C000024, 0xFFFFFFFF⟩, ⟨"sync", 0x7C0004AC, 0xFF9FFFFF⟩,
   ⟨"isync", 0x4C00012C, 0xFFFFFFFF⟩, ⟨"lbz", 0x88000000, 0xFC000000⟩,
   ⟨"stb", 0x98000000, 0xFC000000⟩, ⟨"ld", 0xE8000000, 0xFC000003⟩,
   ⟨"std", 0xF8000000, 0xFC000003⟩]

/-- The field OPCD, bits 0:5 (R141). -/
def fieldOpcd (w : Word32) : BitVec 6 := slice w 0 5
/-- RT or RS, bits 6:10. -/
def fieldRt (w : Word32) : Reg := slice w 6 10
/-- RA, bits 11:15. -/
def fieldRa (w : Word32) : Reg := slice w 11 15
/-- RB, bits 16:20. -/
def fieldRb (w : Word32) : Reg := slice w 16 20
/-- XO of the X, XFX and XL forms, bits 21:30. -/
def fieldXo (w : Word32) : BitVec 10 := slice w 21 30
/-- XO of the DS form, bits 30:31 (R146). -/
def fieldXoDs (w : Word32) : BitVec 2 := slice w 30 31
/-- The SPR number: the halves of bits 11:20 exchanged (R143, R147: `n = spr[5:9] || spr[0:4]`). -/
def fieldSpr (w : Word32) : BitVec 10 := slice w 16 20 ++ slice w 11 15
/-- D, bits 16:31 (R145). -/
def fieldD (w : Word32) : BitVec 16 := slice w 16 31
/-- DS, bits 16:29 (R146). -/
def fieldDs (w : Word32) : BitVec 14 := slice w 16 29

/-- The instruction `i` if the reserved fields are zero (R150). -/
def ifReservedZero (zero : Bool) (i : Instr) : Except DecodeError Instr :=
  if zero then .ok i else .error (.reservedField i.mnemonic)

/-- The rows of R149 with OPCD = 31 (X and XFX forms: R142, R143). Bit 31 is reserved in every one of them. -/
def decode31 (w : Word32) : Except DecodeError Instr :=
  let b31 := slice w 31 31 == 0
  let z11 := slice w 11 15 == 0
  let z16 := slice w 16 20 == 0
  let z6 := slice w 6 10 == 0
  match (fieldXo w).toNat with
  | 402 => ifReservedZero (z11 && b31) (.slbmte (fieldRt w) (fieldRb w))
  | 851 => ifReservedZero (z11 && b31) (.slbmfev (fieldRt w) (fieldRb w))
  | 915 => ifReservedZero (z11 && b31) (.slbmfee (fieldRt w) (fieldRb w))
  | 434 => ifReservedZero (z6 && z11 && b31) (.slbie (fieldRb w))
  | 498 => ifReservedZero (z6 && z11 && z16 && b31) .slbia
  | 306 => ifReservedZero (slice w 6 9 == 0 && z11 && b31) (.tlbie (fieldRb w) (slice w 10 10))
  | 370 => ifReservedZero (z6 && z11 && z16 && b31) .tlbia
  | 566 => ifReservedZero (z6 && z11 && z16 && b31) .tlbsync
  | 178 => ifReservedZero (slice w 11 14 == 0 && z16 && b31) (.mtmsrd (fieldRt w) (slice w 15 15))
  | 83 => ifReservedZero (z11 && z16 && b31) (.mfmsr (fieldRt w))
  | 467 => ifReservedZero b31 (.mtspr (fieldSpr w) (fieldRt w))
  | 339 => ifReservedZero b31 (.mfspr (fieldRt w) (fieldSpr w))
  | 598 => ifReservedZero (slice w 6 8 == 0 && z11 && z16 && b31) (.sync (slice w 9 10))
  | _ => .error (.outsideSpec w)

/-- The rows of R149 with OPCD = 19 (XL form, R144): bits 6:20 and 31 are reserved. -/
def decode19 (w : Word32) : Except DecodeError Instr :=
  let zero := slice w 6 20 == 0 && slice w 31 31 == 0
  match (fieldXo w).toNat with
  | 18 => ifReservedZero zero .rfid
  | 150 => ifReservedZero zero .isync
  | _ => .error (.outsideSpec w)

/-- The row a word belongs to and its operands, by primary opcode. -/
def decodeFields (w : Word32) : Except DecodeError Instr :=
  match (fieldOpcd w).toNat with
  | 31 => decode31 w
  | 19 => decode19 w
  | 34 => .ok (.lbz (fieldRt w) (fieldRa w) (fieldD w))
  | 38 => .ok (.stb (fieldRt w) (fieldRa w) (fieldD w))
  | 58 => if fieldXoDs w = 0 then .ok (.ld (fieldRt w) (fieldRa w) (fieldDs w)) else .error (.outsideSpec w)
  | 62 => if fieldXoDs w = 0 then .ok (.std (fieldRt w) (fieldRa w) (fieldDs w)) else .error (.outsideSpec w)
  | _ => .error (.outsideSpec w)

/-- The name under which an ill-formed instruction is rejected (R151, R185). -/
def illFormed : Instr → DecodeError
  | .mtspr spr _ => .sprOutsideSpec spr
  | .mfspr _ spr => .sprOutsideSpec spr
  | _ => .syncReserved

/-- The instruction a word is, or the name of the reason it is none. -/
def decodeWord (w : Word32) : Except DecodeError Instr :=
  match decodeFields w with
  | .error e => .error e
  | .ok i => if i.wf then .ok i else .error (illFormed i)

/-- The word that four bytes spell: big-endian, the first byte holds bits 0:7 (R63, R141). -/
def wordOfBytes (b0 b1 b2 b3 : Byte) : Word32 := b0 ++ b1 ++ b2 ++ b3

/-- The bytes of a word as memory holds them. -/
def bytesOfWord (w : Word32) : List Byte := [slice w 0 7, slice w 8 15, slice w 16 23, slice w 24 31]

/-- THE DECODER: the instruction at the head of the bytes, and the bytes after it. -/
def decode : List Byte → Except DecodeError (Instr × List Byte)
  | b0 :: b1 :: b2 :: b3 :: rest =>
    match decodeWord (wordOfBytes b0 b1 b2 b3) with
    | .ok i => .ok (i, rest)
    | .error e => .error e
  | _ => .error .truncated

/-- An X-form word (R142) with bits 6:10, 11:15, 16:20 and XO given. -/
def encodeX (f6 f11 f16 : BitVec 5) (xo : BitVec 10) : Word32 :=
  (31 : BitVec 6) ++ f6 ++ f11 ++ f16 ++ xo ++ (0 : BitVec 1)

/-- An XFX-form word (R143): the two halves of the SPR number are exchanged. -/
def encodeXfx (rt : Reg) (spr xo : BitVec 10) : Word32 := encodeX rt (slice spr 5 9) (slice spr 0 4) xo

/-- An XL-form word (R144). -/
def encodeXl (xo : BitVec 10) : Word32 := (19 : BitVec 6) ++ (0 : BitVec 15) ++ xo ++ (0 : BitVec 1)

/-- A D-form word (R145). -/
def encodeD (opcd : BitVec 6) (rt ra : Reg) (d : BitVec 16) : Word32 := opcd ++ rt ++ ra ++ d

/-- A DS-form word (R146) with XO = 0. -/
def encodeDs (opcd : BitVec 6) (rt ra : Reg) (ds : BitVec 14) : Word32 := opcd ++ rt ++ ra ++ ds ++ (0 : BitVec 2)

/-- THE ENCODER: the word of an instruction (R149). -/
def encode : Instr → Word32
  | .slbmte rs rb => encodeX rs 0 rb 402
  | .slbmfev rt rb => encodeX rt 0 rb 851
  | .slbmfee rt rb => encodeX rt 0 rb 915
  | .slbie rb => encodeX 0 0 rb 434
  | .slbia => encodeX 0 0 0 498
  | .tlbie rb l => encodeX ((0 : BitVec 4) ++ l) 0 rb 306
  | .tlbia => encodeX 0 0 0 370
  | .tlbsync => encodeX 0 0 0 566
  | .mtmsrd rs l => encodeX rs ((0 : BitVec 4) ++ l) 0 178
  | .mfmsr rt => encodeX rt 0 0 83
  | .mtspr spr rs => encodeXfx rs spr 467
  | .mfspr rt spr => encodeXfx rt spr 339
  | .rfid => encodeXl 18
  | .sync l => encodeX ((0 : BitVec 3) ++ l) 0 0 598
  | .isync => encodeXl 150
  | .lbz rt ra d => encodeD 34 rt ra d
  | .stb rs ra d => encodeD 38 rs ra d
  | .ld rt ra ds => encodeDs 58 rt ra ds
  | .std rs ra ds => encodeDs 62 rs ra ds

/-- The instruction the decoder reads from an opcode-table word `w` of `nbits` bits, bit 0 the least significant:
the word is laid out as memory holds it (R63) and given to the decoder. -/
def decodeTableWord (nbits w : Nat) : Option Instr :=
  match decode (bytesOfWord (BitVec.ofNat 32 (w % 2 ^ nbits))) with
  | .ok (i, _) => some i
  | .error _ => none

end Sys2Proof
end

