-- ==== Sys2Proof/Machine/State.lean ====
section
/-! DEFINITION. The state of the machine as plain data (spec/10_state.md), the reasons a step can stop, and the state
after reset (R56). INVENTORY.md lists every field with the rule that names it. -/

namespace Sys2Proof.Machine

/-- Physical memory (R54): (address, byte) pairs, addresses strictly rising, no listed byte equal to what an unlisted
address reads as. The operations are in Machine/Ops.lean. -/
abbrev Memory := List Host.Cell

/-- An SLB entry (R34, R35). -/
structure SlbEntry where
  esid : BitVec 36
  v : Bool
  vsid : BitVec 52
  ks : Bool
  kp : Bool
  n : Bool
  l : Bool
  c : Bool
  deriving DecidableEq, Repr

/-- A page table entry: its two doublewords as memory holds them (R91). The fields are in Machine/Translate.lean
(R100, R101). -/
structure Pte where
  dw0 : Word
  dw1 : Word
  deriving DecidableEq, Repr

/-- A TLB entry (R41): the page, the copy of its PTE, and the physical address the PTE was read from. -/
structure TlbEntry where
  vpn : VPN
  pte : Pte
  addr : PA
  deriving DecidableEq, Repr

/-- The MSR window (R260): which of IR, DR, PR a `mtmsrd` has changed since the last context-synchronising event. -/
structure MsrWindow where
  ir : Bool
  dr : Bool
  pr : Bool
  deriving DecidableEq, Repr

/-- Everything the spec gives the machine. -/
structure State where
  /-- GPR[0] to GPR[31] (R47). -/
  gpr : Vector Word 32
  /-- The program counter, an effective address (R50). -/
  pc : Word
  /-- Machine State Register (R21 to R25). -/
  msr : Word
  /-- Storage Description Register 1 (R27 to R29). -/
  sdr1 : Word
  /-- SLB[0 .. SLB_ENTRIES-1] (R33); its length is SLB_ENTRIES. -/
  slb : List SlbEntry
  /-- The TLB (R41), empty where TLB_PRESENT is false (R40). -/
  tlb : List TlbEntry
  /-- SRR0 (R43). -/
  srr0 : Word
  /-- SRR1 (R44). -/
  srr1 : Word
  /-- DAR (R45). -/
  dar : Word
  /-- DSISR (R46). -/
  dsisr : Word32
  /-- Physical memory (R54), which holds the page table (R55). -/
  mem : Memory
  /-- The window of R260: bits whose old value an access may still use. -/
  msrWindow : MsrWindow
  /-- The window of R261 for SLB entries: (index, contents before a change), the latest first. -/
  slbWindow : List (Nat × SlbEntry)
  /-- The window of R261 for SDR1: contents before a change, the latest first. -/
  sdr1Window : List Word
  /-- The window of R127 and R262: (address of a doubleword, its value before a store of the program), the latest
  first. -/
  pteWindow : List (Nat × Word)
  /-- The window of R165 and R262: entries that `tlbie` has removed and a translation may still use. -/
  tlbWindow : List TlbEntry
  /-- The MODEL's own: how many draws of free values have been made. Nothing rests on its value. -/
  draws : Nat
  /-- The implementation's parameters (R6, R13), which no step changes. -/
  cfg : Config
  deriving DecidableEq, Repr

/-- Why the machine stops with a fault. -/
inductive Fault where
  /-- MachineCheck (R64, R76, R216): raised by any access, and by the translation unit's own reads and writes of the
  page table, at a physical address that is not present, and by a real-mode access with EA bits 0:1 not zero where
  REAL_MODE_HIGH_BITS is machine_check (R73). `addr` is the address reported and `left` the state when the run ends
  (R123: referenced and changed bits already set are in it). SAFE: a chip may recover (R216). -/
  | machineCheck (addr : Nat) (left : State)
  deriving DecidableEq, Repr

/-- Why a step has no meaning. Every one is SAFE: the model says nothing where the spec says nothing. -/
inductive Refusal where
  /-- An arm of exec that has no meaning yet; none is left. -/
  | notModelled (mnemonic : String)
  /-- A fetched word that is no instruction of the spec (R150, R151, U9, U16); raised by step. -/
  | word (e : DecodeError)
  /-- MSR[SF] = 0 (32-bit mode, R5, D18, U20); raised by step. -/
  | thirtyTwoBitMode
  /-- MSR[LE] = 1 (little-endian mode, R25, R62, D1, U20); raised by step. -/
  | littleEndianMode
  /-- Two or more valid SLB entries hit (R84, U1); raised by a translated access. -/
  | slbMultipleHits
  /-- The VSID of the hitting SLB entry, or of a valid PTE in a slot searched, does not fit VA_BITS (R85, U6); raised by a
  translated access. -/
  | vsidTooWide
  /-- A segment, a page or a `tlbie` operand marked as large (R124, R165, U11). -/
  | largePage
  /-- A page-table search with SDR1[HTABSIZE] above HTABSIZE_MAX or above 28 (R30, U5). -/
  | htabSize
  /-- A page-table search with non-zero reserved bits in SDR1 (R29, U7). -/
  | sdr1Reserved
  /-- Several matching PTEs differ in RPN, WIMG, N or PP (R106, U2). -/
  | pteMultipleMatches
  /-- A matching PTE with a reserved bit of doubleword 1 set (R102, U8). -/
  | pteReserved
  /-- `slbmte`, `slbmfev`, `slbmfee` or `slbie` with an operand the spec calls undefined (R160 to R163, U3). -/
  | slbOperand
  /-- `tlbia` where TLBIA_IMPLEMENTED is false (R152, R166, P7). -/
  | tlbiaAbsent
  /-- `mtspr` or `mfspr` of an SPR number outside R187 (R182, R183, R151). The decoder gives no such instruction. -/
  | sprOutsideSpec (n : BitVec 10)
  /-- `sync` with L = 3 (R185). The decoder gives no such instruction. -/
  | syncReserved
  deriving DecidableEq, Repr

/-- The kind of an access (R60). -/
inductive AccessKind where
  | fetch
  | load
  | store
  deriving DecidableEq, Repr

/-- The cause of an instruction storage exception (R212). -/
inductive FetchCause where
  | pageFault
  | noExecute
  | protection
  deriving DecidableEq, Repr

/-- The cause of a data storage exception (R213). -/
inductive DataCause where
  | pageFault
  | protection
  deriving DecidableEq, Repr

/-- The exceptions that are taken (R210, conditions 1 to 8 and 10). -/
inductive Exc where
  | instructionStorage (cause : FetchCause)
  | instructionSegment
  | dataStorage (ea : Word) (cause : DataCause) (store : Bool)
  | dataSegment (ea : Word)
  | programPrivileged
  deriving DecidableEq, Repr

/-- How an operation fails: an exception to take, a machine check at an address, or a refusal. -/
inductive Failure where
  | exc (e : Exc)
  | machineCheck (addr : Nat)
  | refuse (r : Refusal)
  deriving DecidableEq, Repr

/-- The result of an operation over the state. -/
inductive Res (α : Type) where
  | ok (a : α) (s : State)
  | fail (f : Failure) (s : State)
  deriving DecidableEq, Repr

/-- The SLB entry that reset leaves (log entry 5). -/
def SlbEntry.reset : SlbEntry := ⟨0, false, 0, false, false, false, false, false⟩

/-- The machine right after reset (R56, R250): real addressing mode, supervisor, pc at VECTOR_BASE + 0x100, SF = 1 and
LE = 0. Every other value is the model's choice (log entries 4 to 6): zero, no memory listed, no valid SLB entry, no
window open. -/
def State.reset : State where
  gpr := Vector.replicate 32 0
  pc := Config.standard.vectorBase.setWidth 64 + 0x100
  msr := 0x8000000000000000
  sdr1 := 0
  slb := List.replicate Config.standardSlbEntries SlbEntry.reset
  tlb := []
  srr0 := 0
  srr1 := 0
  dar := 0
  dsisr := 0
  mem := []
  msrWindow := ⟨false, false, false⟩
  slbWindow := []
  sdr1Window := []
  pteWindow := []
  tlbWindow := []
  draws := 0
  cfg := Config.standard

end Sys2Proof.Machine
end

