-- ==== Sys2Proof/Machine/Flags.lean ====
section
/-! DEFINITION. The status register. The spec has no condition flags (spec/10_state.md R51); what its instructions and
exceptions compute is the next MSR: its bits (R22 to R25), exception entry (spec/60_exceptions.md R221, R222, R224),
`mtmsrd` and `rfid` (spec/41_msr_sdr1_sync.md R180, R184). All functions are on the 64-bit MSR image alone. -/

namespace Sys2Proof.Machine

/-- MSR[SF], bit 0 (R25). -/
def msrSF (m : Word) : Bool := bit m 0
/-- MSR[ILE], bit 47 (R25). -/
def msrILE (m : Word) : Bool := bit m 47
/-- MSR[EE], bit 48 (R25). -/
def msrEE (m : Word) : Bool := bit m 48
/-- MSR[PR], bit 49 (R22). -/
def msrPR (m : Word) : Bool := bit m 49
/-- MSR[IR], bit 58 (R23). -/
def msrIR (m : Word) : Bool := bit m 58
/-- MSR[DR], bit 59 (R24). -/
def msrDR (m : Word) : Bool := bit m 59
/-- MSR[LE], bit 63 (R25). -/
def msrLE (m : Word) : Bool := bit m 63

/-- The bits exception entry clears (R221, R222): POW, EE, PR, FP, FE0, SE, BE, FE1, IR, DR, PMM, RI. -/
def entryClears : Word :=
  bitMask 45 ||| bitMask 48 ||| bitMask 49 ||| bitMask 50 ||| fieldMask 52 55 ||| bitMask 58 ||| bitMask 59
    ||| bitMask 61 ||| bitMask 62

/-- The MSR after an exception is taken (R221, R222): the bits of `entryClears` are 0, SF is 1, LE is ILE; ME, HV and
the bits R222 does not name are unchanged (log entry 18). -/
def entryMsr (m : Word) : Word := putBit (putBit (m &&& ~~~entryClears) 0 true) 63 (msrILE m)

/-- The bits of SRR1 that hold an exception's status (R224): 33:36 and 42:47. -/
def statusMask : Word := fieldMask 33 36 ||| fieldMask 42 47

/-- SRR1 at exception entry (R224): the MSR before the entry, with the status bits replaced. -/
def entrySrr1 (m status : Word) : Word := copyBits statusMask status m

/-- The bits that `mtmsrd` with L = 0 copies in variant v2 (R180). -/
def mtmsrdMask : Word :=
  fieldMask 0 2 ||| fieldMask 4 47 ||| fieldMask 49 50 ||| fieldMask 52 57 ||| fieldMask 60 63

/-- The bits that `rfid` copies from SRR1 (R184), besides EE, IR and DR. -/
def rfidMask : Word :=
  fieldMask 0 2 ||| fieldMask 4 32 ||| fieldMask 37 41 ||| fieldMask 49 57 ||| fieldMask 60 63

/-- EE, IR and DR taken from `s`, each forced to 1 by `s[PR]` where the variant is v2 (R180, R184). -/
def putEeIrDr (v : MtmsrdVariant) (s m : Word) : Word :=
  let force := v == .v2 && msrPR s
  putBit (putBit (putBit m 48 (msrEE s || force)) 58 (msrIR s || force)) 59 (msrDR s || force)

/-- The MSR after `mtmsrd RS,L` with GPR[RS] = `s` (R180). -/
def mtmsrdMsr (v : MtmsrdVariant) (l : BitVec 1) (s m : Word) : Word :=
  if l = 1 then copyBits (bitMask 48 ||| bitMask 62) s m
  else match v with
    | .plain => s
    | .v2 => putEeIrDr .v2 s (copyBits mtmsrdMask s m)

/-- The MSR after `rfid` with SRR1 = `s` (R184). -/
def rfidMsr (v : MtmsrdVariant) (s m : Word) : Word := putEeIrDr v s (copyBits rfidMask s m)

end Sys2Proof.Machine
end

