-- ==== Sys2Proof/Machine/Ops.lean ====
section
/-! DEFINITION. The named operations over registers and memory: general registers and pc (spec/10_state.md R47, R50),
physical memory (R54; spec/20_memory.md R62, R64), the windows of spec/70_reset_and_hazards.md R260 to R262, taking an
exception and returning from one (spec/60_exceptions.md R220 to R230; spec/41_msr_sdr1_sync.md R184), and the one place
where a failure becomes an outcome. -/

namespace Sys2Proof.Machine

/-! General registers and the program counter -/

/-- GPR[r] (R47): none is hard-wired. -/
def State.readGpr (s : State) (r : Reg) : Word := s.gpr[r.toNat]'(r.isLt)

/-- GPR[r] ← v (R47). -/
def State.setGpr (s : State) (r : Reg) (v : Word) : State :=
  { s with gpr := s.gpr.set r.toNat v (r.isLt) }

/-- pc ← pc + 4 modulo 2^64 (R50, R188). -/
def State.nextPc (s : State) : State := { s with pc := s.pc + 4 }

/-- The number of SLB entries, SLB_ENTRIES (R33). -/
def State.slbEntries (s : State) : Nat := s.slb.length

/-! Physical memory -/

/-- What an address with no entry reads as (R56: unspecified; log entry 7, DESIGN CHOICE). -/
def Memory.unlisted : Byte := 0

/-- The byte at `a`. -/
def Memory.read : Memory → Nat → Byte
  | [], _ => Memory.unlisted
  | (k, b) :: m, a => if k = a then b else Memory.read m a

/-- The memory with the entry of `a` removed. -/
def Memory.erase : Memory → Nat → Memory
  | [], _ => []
  | (k, b) :: m, a => if k = a then m else (k, b) :: Memory.erase m a

/-- The memory with an entry of `a`, at its place in rising order. -/
def Memory.insert : Memory → Nat → Byte → Memory
  | [], a, b => [(a, b)]
  | (k, c) :: m, a, b =>
    if a < k then (a, b) :: (k, c) :: m
    else if a = k then (a, b) :: m
    else (k, c) :: Memory.insert m a b

/-- byte(a) ← b, keeping the canonical form. -/
def Memory.write (m : Memory) (a : Nat) (b : Byte) : Memory :=
  if b = Memory.unlisted then m.erase a else m.insert a b

/-- The bytes at the listed addresses, written in order. -/
def Memory.writeAll : Memory → List (Nat × Byte) → Memory
  | m, [] => m
  | m, (a, b) :: rest => Memory.writeAll (m.write a b) rest

/-- The addresses are strictly rising and above `lo`. -/
def Memory.risingFrom : Option Nat → Memory → Bool
  | _, [] => true
  | lo, (k, b) :: m => (match lo with | none => true | some l => decide (l < k)) && b != Memory.unlisted
      && Memory.risingFrom (some k) m

/-- The canonical form: addresses strictly rising, no entry equal to what an unlisted address reads as. -/
def Memory.wf (m : Memory) : Bool := Memory.risingFrom none m

/-- The doubleword at `a`, big-endian (R62, R105). -/
def Memory.readDw (m : Memory) (a : Nat) : Word :=
  BitVec.ofNat 64 (beValue ((List.range 8).map fun k => m.read (a + k)))

/-- `Present(pa)` (R54, R64): a present range holds the address, which is below 2^PA_BITS (R102) and below 2^62. -/
def presentAt (c : Config) (a : Nat) : Bool :=
  decide (a < 2 ^ 62) && decide (a < 2 ^ c.paBits)
    && c.present.any fun r => decide (r.base ≤ a) && decide (a < r.base + r.size)

/-- The first of the addresses where nothing is present (R64: the check of PhysRead and PhysWrite). -/
def firstAbsent (c : Config) (as : List Nat) : Option Nat := as.find? fun a => !presentAt c a

/-! Windows -/

/-- What a context-synchronising event does: the windows of R260 and R261 close. -/
def State.contextSync (s : State) : State :=
  { s with msrWindow := ⟨false, false, false⟩, slbWindow := [], sdr1Window := [] }

/-- MSR ← m by `mtmsrd`: each of IR, DR, PR that changes opens the window of R260. -/
def State.setMsrRacing (s : State) (m : Word) : State :=
  { s with
    msr := m
    msrWindow :=
      ⟨s.msrWindow.ir || msrIR s.msr != msrIR m, s.msrWindow.dr || msrDR s.msr != msrDR m,
        s.msrWindow.pr || msrPR s.msr != msrPR m⟩ }

/-- SDR1 ← v by `mtspr`: the old contents stay usable until the window of R261 closes. -/
def State.setSdr1Racing (s : State) (v : Word) : State :=
  { s with sdr1 := v, sdr1Window := s.sdr1 :: s.sdr1Window }

/-- SLB[i] ← e: the old contents stay usable until the window of R261 closes. -/
def State.setSlbRacing (s : State) (i : Nat) (e : SlbEntry) : State :=
  { s with
    slb := s.slb.set i e
    slbWindow := (i, s.slb.getD i SlbEntry.reset) :: s.slbWindow }

/-- V ← 0 in every entry that `p` (of the index and the entry) selects, each opening the window of R261. -/
def State.invalidateSlb (s : State) (p : Nat → SlbEntry → Bool) : State :=
  { s with
    slb := s.slb.mapIdx fun i e => if p i e then { e with v := false } else e
    slbWindow := (s.slb.zipIdx.filterMap fun (e, i) => if p i e then some (i, e) else none) ++ s.slbWindow }

/-- The addresses of the 8-byte aligned doublewords that hold the bytes at `as`. -/
def doublewordsOf (as : List Nat) : List Nat := (as.map fun a => a / 8 * 8).eraseDups

/-- A store of the program: `bs` to the addresses `as`, in order. Each doubleword stored to keeps its old value usable
by a page-table search until the window of R262 closes (log entry 13). -/
def State.storeBytes (s : State) (as : List Nat) (bs : List Byte) : State :=
  { s with
    mem := s.mem.writeAll (as.zip bs)
    pteWindow := ((doublewordsOf as).map fun a => (a, s.mem.readDw a)) ++ s.pteWindow }

/-! Exceptions -/

/-- The vector offsets of R226. -/
def vectorOffset : Exc → Word
  | .dataStorage _ _ _ => 0x300
  | .dataSegment _ => 0x380
  | .instructionStorage _ => 0x400
  | .instructionSegment => 0x480
  | .programPrivileged => 0x700

/-- The status that goes into SRR1 bits 33:36 and 42:47 (R212 to R217, R224). -/
def statusBits : Exc → Word
  | .instructionStorage .pageFault => bitMask 33
  | .instructionStorage .noExecute => bitMask 35
  | .instructionStorage .protection => bitMask 36
  | .programPrivileged => bitMask 45
  | .instructionSegment => 0
  | .dataStorage _ _ _ => 0
  | .dataSegment _ => 0

/-- DSISR after a data storage exception (R213): bit 1 for a page fault, bit 4 for protection, bit 6 for a store; the
others 0. -/
def dsisrOf (cause : DataCause) (store : Bool) : Word32 :=
  (match cause with | .pageFault => 0x40000000 | .protection => 0x08000000) ||| (if store then 0x02000000 else 0)

/-- The exception's own register writes (R212 to R217): DAR and DSISR. After a data segment exception DSISR is a free
value (R215, U10). -/
def State.writeFaultRegisters (s : State) : Exc → State
  | .dataStorage ea cause store => { s with dar := ea, dsisr := dsisrOf cause store }
  | .dataSegment ea =>
    { s with dar := ea, dsisr := (Config.freeWord s.draws).setWidth 32, draws := s.draws + 1 }
  | .instructionStorage _ => s
  | .instructionSegment => s
  | .programPrivileged => s

/-- TAKING AN EXCEPTION (R220): SRR0 ← the pc of the raising instruction (R223), SRR1 ← the MSR with the status (R224),
the exception's own writes, the new MSR (R221, R222), pc ← VECTOR_BASE + offset (R225). It is context synchronising
(R220), so the windows of R260 and R261 close. -/
def State.takeException (s : State) (e : Exc) : State :=
  let t := s.writeFaultRegisters e
  { t.contextSync with
    srr0 := s.pc
    srr1 := entrySrr1 s.msr (statusBits e)
    msr := entryMsr s.msr
    pc := s.cfg.vectorBase.setWidth 64 + vectorOffset e }

/-- RETURN FROM AN EXCEPTION (R184, R230): the MSR from SRR1, pc ← SRR0[0:61] || 0b00. It is context synchronising. -/
def State.returnFromException (s : State) : State :=
  { s.contextSync with
    msr := rfidMsr s.cfg.mtmsrdVariant s.srr1 s.msr
    pc := s.srr0 &&& ~~~(fieldMask 62 63) }

/-- The outcome of a failure: an exception is taken (R220), a machine check ends the run (R216), a refusal stops. -/
def raise (f : Failure) (s : State) : Host.Outcome State Fault Refusal :=
  match f with
  | .exc e => .next (s.takeException e)
  | .machineCheck a => .fault (.machineCheck a s)
  | .refuse r => .refused r

/-- The privilege check (R148): with MSR[PR] = 1 a privileged instruction only raises Program(privileged). -/
def privileged (s : State) (o : Host.Outcome State Fault Refusal) : Host.Outcome State Fault Refusal :=
  if msrPR s.msr then raise (.exc .programPrivileged) s else o

end Sys2Proof.Machine
end

