-- ==== Sys2Proof/Machine/Translate.lean ====
section
/-! DEFINITION. The translation unit (spec/20_memory.md part B, R70 to R125): the fields of EA, VA, SDR1 and a PTE, real
addressing mode, the SLB search, the TLB, the hashed page table and protection: steps 1 to 6 of R115. These functions
read the state and change nothing; the argument `d` numbers the draw of every free choice of the access (Config.lean).
The referenced and changed bits, step 7, and the physical access, step 8, are in Machine/Access.lean. -/

namespace Sys2Proof.Machine

/-! Fields -/

/-- EA[0:35], the ESID (R79). -/
def eaEsid (ea : Word) : BitVec 36 := slice ea 0 35
/-- EA[36:51], the page index (R79). -/
def eaPageIndex (ea : Word) : BitVec 16 := slice ea 36 51
/-- EA[52:63], the byte offset (R79). -/
def eaOffset (ea : Word) : BitVec 12 := slice ea 52 63

/-- VA[0:67] of an address in the segment with this VSID (R82). -/
def vpnOf (vsid : BitVec 52) (ea : Word) : VPN := vsid ++ eaPageIndex ea
/-- VA[0:51] (R82). -/
def vpnVsid (vpn : VPN) : BitVec 52 := slice vpn 0 51
/-- VA[52:67] (R82). -/
def vpnPageIndex (vpn : VPN) : BitVec 16 := slice vpn 52 67
/-- VA[52:56], the API (R82, R103). -/
def vpnApi (vpn : VPN) : BitVec 5 := slice vpn 52 56
/-- VA[32:67], the part of the VPN a `tlbie` operand holds (R165). -/
def vpnLow (vpn : VPN) : BitVec 36 := slice vpn 32 67

/-- SDR1[HTABORG], bits 2:45 (R29). -/
def sdr1Org (x : Word) : BitVec 44 := slice x 2 45
/-- SDR1[HTABSIZE], bits 59:63 (R29). -/
def sdr1Size (x : Word) : Nat := (slice x 59 63).toNat
/-- The reserved bits of SDR1, 0:1 and 46:58 (R29), are zero. -/
def sdr1ReservedZero (x : Word) : Bool := slice x 0 1 == 0 && slice x 46 58 == 0

/-- PTE[VSID] (R100). -/
def pteVsid (dw0 : Word) : BitVec 52 := slice dw0 0 51
/-- PTE[API] (R100). -/
def pteApi (dw0 : Word) : BitVec 5 := slice dw0 52 56
/-- PTE[L] (R100). -/
def pteL (p : Pte) : Bool := bit p.dw0 61
/-- PTE[H] (R100). -/
def pteH (dw0 : Word) : Bool := bit dw0 62
/-- PTE[V] (R100). -/
def pteV (dw0 : Word) : Bool := bit dw0 63
/-- PTE[RPN] (R101). -/
def pteRpn (p : Pte) : BitVec 50 := slice p.dw1 2 51
/-- PTE[R] (R101). -/
def pteR (p : Pte) : Bool := bit p.dw1 55
/-- PTE[C] (R101). -/
def pteC (p : Pte) : Bool := bit p.dw1 56
/-- PTE[WIMG] (R101). -/
def pteWimg (p : Pte) : BitVec 4 := slice p.dw1 57 60
/-- PTE[G] (R101). -/
def pteG (p : Pte) : Bool := bit p.dw1 60
/-- PTE[N] (R101). -/
def pteN (p : Pte) : Bool := bit p.dw1 61
/-- PTE[PP] (R101). -/
def ptePp (p : Pte) : BitVec 2 := slice p.dw1 62 63

/-- The reserved bits of doubleword 1 (R101: 0:1 and 52:54; bit 61 too where PTE_N_IMPLEMENTED is false, P9) are zero. -/
def pteReservedZero (c : Config) (p : Pte) : Bool :=
  slice p.dw1 0 1 == 0 && slice p.dw1 52 54 == 0 && (c.pteNImplemented || !pteN p)

/-- The PTEs agree in RPN, WIMG, N and PP (R106). -/
def ptesAgree (p q : Pte) : Bool :=
  pteRpn p == pteRpn q && pteWimg p == pteWimg q && pteN p == pteN q && ptePp p == ptePp q

/-! What an access sees inside a window -/

/-- One of the values of something that has changed in a window: the current one or one of the recorded old ones,
as the free number `n` selects. With nothing recorded it is the current one. -/
def pickSeen {α : Type} (n : Nat) (current : α) (old : List α) : α := old.getD (n % (old.length + 1)) current

/-- A bit of the MSR as access `d` sees it (R260). -/
def seenBit (raced : Bool) (d : Nat) (c : Choice) (current : Bool) : Bool :=
  if raced then Config.freeBool d c else current

/-- The translation bit that governs an access (R61): IR for a fetch, DR for a load or a store. -/
def seenEnabled (s : State) (d : Nat) : AccessKind → Bool
  | .fetch => seenBit s.msrWindow.ir d .msrIR (msrIR s.msr)
  | .load => seenBit s.msrWindow.dr d .msrDR (msrDR s.msr)
  | .store => seenBit s.msrWindow.dr d .msrDR (msrDR s.msr)

/-- `priv` = MSR[PR] at the time of the access (R70). -/
def seenPr (s : State) (d : Nat) : Bool := seenBit s.msrWindow.pr d .msrPR (msrPR s.msr)

/-- The recorded values under a key. -/
def recordedAt {α : Type} (i : Nat) (w : List (Nat × α)) : List α := (w.filter fun x => x.1 == i).map (·.2)

/-- The SLB as access `d` sees it (R261). -/
def seenSlb (s : State) (d : Nat) : List SlbEntry :=
  s.slb.mapIdx fun i e => pickSeen (Config.freeNat d (.slb i)) e (recordedAt i s.slbWindow)

/-- SDR1 as access `d` sees it (R261). -/
def seenSdr1 (s : State) (d : Nat) : Word := pickSeen (Config.freeNat d .sdr1) s.sdr1 s.sdr1Window

/-- The doubleword at `a` as the page-table search of access `d` reads it (R127, R262). -/
def seenDw (s : State) (d : Nat) (a : Nat) : Word :=
  pickSeen (Config.freeNat d (.dword a)) (s.mem.readDw a) (recordedAt a s.pteWindow)

/-! Real addressing mode -/

/-- RealTranslate (R73): the 62 low bits of the effective address. -/
def realTranslate (c : Config) (ea : Word) : Except Failure PA :=
  if c.realModeHighBits = .machineCheck ∧ slice ea 0 1 ≠ 0 then .error (.machineCheck ea.toNat)
  else .ok (slice ea 2 63)

/-! Step 1: the SLB -/

/-- An entry hits (R80): V = 1 and ESID = EA[0:35]. -/
def slbHit (ea : Word) (e : SlbEntry) : Bool := e.v && e.esid == eaEsid ea

/-- The VSID has no 1 above the VA_BITS the implementation keeps (R85). -/
def vsidFits (c : Config) (vsid : BitVec 52) : Bool := vsid.toNat >>> (c.vaBits - 28) == 0

/-- The segment exception of an SLB miss (R83). -/
def segmentMiss (kind : AccessKind) (ea : Word) : Exc :=
  match kind with
  | .fetch => .instructionSegment
  | .load => .dataSegment ea
  | .store => .dataSegment ea

/-- Step 1 and the segment's checks, in the order of R115: the search (R80), a miss (R83), several hits (R84), a VSID
that does not fit (R85), no-execute (R113), large pages (R124). -/
def segmentLookup (s : State) (d : Nat) (ea : Word) (kind : AccessKind) : Except Failure SlbEntry :=
  match (seenSlb s d).filter (slbHit ea) with
  | [] => .error (.exc (segmentMiss kind ea))
  | [e] =>
    if !vsidFits s.cfg e.vsid then .error (.refuse .vsidTooWide)
    else if kind = .fetch ∧ e.n then .error (.exc (.instructionStorage .noExecute))
    else if e.l then .error (.refuse .largePage)
    else .ok e
  | _ :: _ :: _ => .error (.refuse .slbMultipleHits)

/-! Step 2: the hashed page table -/

/-- The primary hash (R95): the 39 low bits of the VSID, exclusive-ored with the page index. -/
def hash1 (vpn : VPN) : BitVec 39 := slice vpn 13 51 ^^^ ((0 : BitVec 23) ++ vpnPageIndex vpn)

/-- The secondary hash (R96): the ones' complement. -/
def hash2 (vpn : VPN) : BitVec 39 := ~~~(hash1 vpn)

/-- The 28-bit mask 0^(28-S) || 1^S of R97. -/
def htabMask (size : Nat) : BitVec 28 := BitVec.ofNat 28 (2 ^ size - 1)

/-- PTEGaddr (R97): an OR, not an addition. -/
def ptegAddr (sdr1 : Word) (hash : BitVec 39) : PA :=
  slice (sdr1Org sdr1) 0 15 ++ (slice (sdr1Org sdr1) 16 43 ||| (slice hash 0 27 &&& htabMask (sdr1Size sdr1)))
    ++ slice hash 28 38 ++ (0 : BitVec 7)

/-- The sixteen slots of a page in search order (R104, R105): the address of the PTE, and whether it is in the
secondary PTEG. -/
def pteSlots (sdr1 : Word) (vpn : VPN) : List (PA × Bool) :=
  ((List.range 8).map fun i => (ptegAddr sdr1 (hash1 vpn) + BitVec.ofNat 62 (16 * i), false)) ++
  ((List.range 8).map fun i => (ptegAddr sdr1 (hash2 vpn) + BitVec.ofNat 62 (16 * i), true))

/-- Match (R103), on doubleword 0. -/
def pteMatches (dw0 : Word) (vpn : VPN) (secondary : Bool) : Bool :=
  pteV dw0 && pteH dw0 == secondary && pteVsid dw0 == vpnVsid vpn && pteApi dw0 == vpnApi vpn

/-- The addresses of the `n` bytes from `a`. -/
def bytesFrom (a n : Nat) : List Nat := (List.range n).map (a + ·)

/-- PhysRead(a, 8) of the translation unit (R105): the first absent address, or the doubleword `rd` gives. -/
def readTableDw (c : Config) (rd : Nat → Word) (a : Nat) : Except Nat Word :=
  match firstAbsent c (bytesFrom a 8) with
  | some x => .error x
  | none => .ok (rd a)

/-- The first matching PTE in search order (R104), with its address; the error is an absent address (R105). -/
def firstMatch (c : Config) (rd : Nat → Word) (vpn : VPN) : List (PA × Bool) → Except Nat (Option (Pte × PA))
  | [] => .ok none
  | (t, h) :: rest =>
    match readTableDw c rd t.toNat with
    | .error x => .error x
    | .ok dw0 =>
      if pteMatches dw0 vpn h then
        match readTableDw c rd (t.toNat + 8) with
        | .error x => .error x
        | .ok dw1 => .ok (some (⟨dw0, dw1⟩, t))
      else firstMatch c rd vpn rest

/-- Every matching PTE of the slots (R106); a slot that is not present holds none. -/
def allMatches (c : Config) (rd : Nat → Word) (vpn : VPN) (slots : List (PA × Bool)) : List Pte :=
  slots.filterMap fun (t, h) =>
    match readTableDw c rd t.toNat, readTableDw c rd (t.toNat + 8) with
    | .ok dw0, .ok dw1 => if pteMatches dw0 vpn h then some ⟨dw0, dw1⟩ else none
    | _, _ => none

/-- A valid PTE whose VSID has a 1 above VA_BITS stands in a present slot (R85, U6; log entry 21). -/
def slotTooWide (c : Config) (rd : Nat → Word) (x : PA × Bool) : Bool :=
  match readTableDw c rd x.1.toNat with
  | .error _ => false
  | .ok dw0 => pteV dw0 && !vsidFits c (pteVsid dw0)

/-- The largest HTABSIZE a search accepts: HTABSIZE_MAX (P14), and never above 28 (R30, U5: a value above 28 is
undefined). -/
def htabLimit (c : Config) : Nat := min c.htabSizeMax 28

/-- The search of the page table for a page (R103 to R106), given SDR1 and the doublewords as the search reads them:
refused for an illegal SDR1 (U5, U7), for a valid PTE in its slots whose VSID does not fit VA_BITS (R85, U6), for
matching PTEs with reserved bits (U8) and for matches that differ (U2). -/
def searchTable (c : Config) (sdr1 : Word) (rd : Nat → Word) (vpn : VPN) : Except Failure (Option (Pte × PA)) :=
  if !sdr1ReservedZero sdr1 then .error (.refuse .sdr1Reserved)
  else if htabLimit c < sdr1Size sdr1 then .error (.refuse .htabSize)
  else if (pteSlots sdr1 vpn).any (slotTooWide c rd) then .error (.refuse .vsidTooWide)
  else
    match firstMatch c rd vpn (pteSlots sdr1 vpn) with
    | .error a => .error (.machineCheck a)
    | .ok none => .ok none
    | .ok (some (p, t)) =>
      let all := allMatches c rd vpn (pteSlots sdr1 vpn)
      if !all.all (pteReservedZero c) then .error (.refuse .pteReserved)
      else if !all.all (ptesAgree p) then .error (.refuse .pteMultipleMatches)
      else .ok (some (p, t))

/-- The search as access `d` makes it, inside whatever windows are open. -/
def searchSeen (s : State) (d : Nat) (vpn : VPN) : Except Failure (Option (Pte × PA)) :=
  searchTable s.cfg (seenSdr1 s d) (seenDw s d) vpn

/-! Step 2: the TLB -/

/-- The TLB copy an access uses, if any (R87). A copy in the TLB is always used; a copy that `tlbie` has removed may
still be used until the window of R262 closes. -/
def tlbLookup (s : State) (d : Nat) (vpn : VPN) : Option TlbEntry :=
  if s.cfg.tlbPresent then
    let hits := s.tlb.filter fun e => e.vpn == vpn
    let all := hits ++ s.tlbWindow.filter fun e => e.vpn == vpn
    all[Config.freeNat d .tlbHit % (if hits.isEmpty then all.length + 1 else all.length)]?
  else none

/-- What step 2 finds: the page, its PTE, the physical address of the PTE, and the TLB copy used, if one was. -/
structure Found where
  vpn : VPN
  pte : Pte
  addr : PA
  copy : Option TlbEntry
  deriving DecidableEq, Repr

/-- The page fault (R107). -/
def pageFault (kind : AccessKind) (ea : Word) : Exc :=
  match kind with
  | .fetch => .instructionStorage .pageFault
  | .load => .dataStorage ea .pageFault false
  | .store => .dataStorage ea .pageFault true

/-- Step 2 (R86, R87, R103 to R107): the TLB copy, or else the search of memory. -/
def pageLookup (s : State) (d : Nat) (vpn : VPN) (ea : Word) (kind : AccessKind) : Except Failure Found :=
  match tlbLookup s d vpn with
  | some c =>
    if pteReservedZero s.cfg c.pte then .ok ⟨vpn, c.pte, c.addr, some c⟩ else .error (.refuse .pteReserved)
  | none =>
    match searchSeen s d vpn with
    | .error f => .error f
    | .ok none => .error (.exc (pageFault kind ea))
    | .ok (some (p, t)) => .ok ⟨vpn, p, t, none⟩

/-! Protection -/

/-- Key (R111): Kp in user mode, Ks in supervisor mode. -/
def protectionKey (e : SlbEntry) (user : Bool) : Bool := if user then e.kp else e.ks

/-- The (Key, PP) table of R112; a fetch is allowed when a load is. -/
def accessAllowed (key : Bool) (pp : BitVec 2) (kind : AccessKind) : Bool :=
  match kind with
  | .store => if key then pp == 2 else pp != 3
  | .load => if key then pp != 0 else true
  | .fetch => if key then pp != 0 else true

/-- The protection violation (R112). -/
def protectionFault (kind : AccessKind) (ea : Word) : Exc :=
  match kind with
  | .fetch => .instructionStorage .protection
  | .load => .dataStorage ea .protection false
  | .store => .dataStorage ea .protection true

/-- Steps 3, 5 and 6 of R115 on the PTE found: large page (R124), no-execute and guarded for a fetch (R113, R118), Key
and PP (R112). -/
def checkPage (c : Config) (e : SlbEntry) (user : Bool) (p : Pte) (ea : Word) (kind : AccessKind) :
    Except Failure Unit :=
  if pteL p then .error (.refuse .largePage)
  else if kind = .fetch ∧ (pteG p || (c.pteNImplemented && pteN p)) then
    .error (.exc (.instructionStorage .noExecute))
  else if !accessAllowed (protectionKey e user) (ptePp p) kind then .error (.exc (protectionFault kind ea))
  else .ok ()

/-! The whole translation -/

/-- A translated part of an access: the physical address of its first byte and, where page address translation was
used, the PTE it went through. -/
structure Xlat where
  pa : PA
  found : Option Found
  deriving DecidableEq, Repr

/-- PA = RPN || EA[52:63] (R109). -/
def pagePa (p : Pte) (ea : Word) : PA := pteRpn p ++ eaOffset ea

/-- PageTranslate (R125), steps 1 to 6 of R115. -/
def pageTranslate (s : State) (d : Nat) (ea : Word) (kind : AccessKind) : Except Failure Xlat :=
  match segmentLookup s d ea kind with
  | .error f => .error f
  | .ok e =>
    match pageLookup s d (vpnOf e.vsid ea) ea kind with
    | .error f => .error f
    | .ok x =>
      match checkPage s.cfg e (seenPr s d) x.pte ea kind with
      | .error f => .error f
      | .ok () => .ok ⟨pagePa x.pte ea, some x⟩

/-- Translate (R70): real addressing mode (R72) or page address translation, as the governing MSR bit says. -/
def translate (s : State) (d : Nat) (ea : Word) (kind : AccessKind) : Except Failure Xlat :=
  if seenEnabled s d kind then pageTranslate s d ea kind
  else
    match realTranslate s.cfg ea with
    | .error f => .error f
    | .ok pa => .ok ⟨pa, none⟩

end Sys2Proof.Machine
end

