-- ==== Sys2Proof/Machine/Access.lean ====
section
/-! DEFINITION. Accesses to memory: the referenced and changed bits (spec/20_memory.md R119 to R123), accesses that cross
a page (R66), MemRead and MemWrite (spec/00_scope.md R11), and the TLB reload agent (spec/10_state.md R41). -/

namespace Sys2Proof.Machine

/-! The TLB reload agent -/

/-- The TLB entry that the reload agent may add for a page (R41 (a)): the PTE that the search finds in the page table as
memory holds it at this moment, if it finds one. The windows of R261 and R262 are the accesses', not the agent's.
DESIGN CHOICE (log entry 32, unsafe): where that search meets absent memory or is undefined (U2, U5 to U8), which the
spec settles for an access alone, the agent adds nothing. -/
def reloadEntry (s : State) (vpn : VPN) : Option TlbEntry :=
  match searchTable s.cfg s.sdr1 s.mem.readDw vpn with
  | .ok (some (p, t)) => some ⟨vpn, p, t⟩
  | .ok none => none
  | .error _ => none

/-- The entries that `drop` (of the index) does not select. -/
def keepEntries (drop : Nat → Bool) (es : List TlbEntry) : List TlbEntry :=
  es.zipIdx.filterMap fun (e, i) => if drop i then none else some e

/-- The reload and eviction agent (R12, R41): with TLB_PRESENT it drops any entries and adds copies of the PTEs of any
pages, as free values select. -/
def State.tlbAgent (s : State) : State :=
  if s.cfg.tlbPresent then
    { s with
      tlb := (Config.freeVpns s.draws).filterMap (reloadEntry s)
        ++ keepEntries (fun i => Config.freeBool s.draws (.tlbEvict i)) s.tlb
      draws := s.draws + 1 }
  else s

/-! Referenced and changed bits -/

/-- byte(a) ← byte(a) | m, by the translation unit (R122); a machine check where nothing is present (R64). -/
def orByte (s : State) (a : Nat) (m : Byte) : Res Unit :=
  match firstAbsent s.cfg [a] with
  | some x => .fail (.machineCheck x) s
  | none => .ok () { s with mem := s.mem.write a (s.mem.read a ||| m) }

/-- The bits of doubleword 1 that an access sets: R, and C for a store (R101, R120, R121). -/
def historyBits (store : Bool) : Word := bitMask 55 ||| (if store then bitMask 56 else 0)

/-- The TLB copy `c` with its R bit, and its C bit for a store, set to 1 (R122). -/
def State.markCopy (s : State) (c : TlbEntry) (store : Bool) : State :=
  let c' := { c with pte := { c.pte with dw1 := c.pte.dw1 ||| historyBits store } }
  { s with
    tlb := s.tlb.map fun e => if e = c then c' else e
    tlbWindow := s.tlbWindow.map fun e => if e = c then c' else e }

/-- An access that has found `x` by a search may add it to the TLB (R87): only where `x` is what the search finds in the
page table as memory holds it (R41 (a)), and not where it read an earlier doubleword in the window of R262. The table is
the one that the SDR1 of the access designates (R261). Where the search of memory as it is meets absent memory or is
undefined, nothing is added (DESIGN CHOICE, log entry 32, unsafe). -/
def mayFill (s : State) (d : Nat) (x : Found) : Bool :=
  decide (searchTable s.cfg (seenSdr1 s d) s.mem.readDw x.vpn = .ok (some (x.pte, x.addr)))

/-- What becomes of the TLB when an access has gone through `x` (R87, R122): the copy used is marked; a PTE found in
memory may be added, as a free value selects. -/
def State.tlbAfter (s : State) (d : Nat) (x : Found) (store : Bool) : State :=
  match x.copy with
  | some c => s.markCopy c store
  | none =>
    if s.cfg.tlbPresent && mayFill s d x && Config.freeBool d .tlbReload then
      { s with tlb := ⟨x.vpn, x.pte, x.addr⟩ :: s.tlb }
    else s

/-- Step 7 of R115 (R120 to R122): with the PTE at `t`, R is set at byte `t + 14` where the PTE used has R = 0, and for
a store C at byte `t + 15` where it has C = 0. -/
def recordFound (s : State) (d : Nat) (x : Found) (store : Bool) : Res Unit :=
  let s := s.tlbAfter d x store
  match (if pteR x.pte then Res.ok () s else orByte s (x.addr.toNat + 14) 0x01) with
  | .fail f s => .fail f s
  | .ok () s => if store && !pteC x.pte then orByte s (x.addr.toNat + 15) 0x80 else .ok () s

/-- Step 7 for one translated part: nothing in real addressing mode (R77). -/
def recordPart (s : State) (d : Nat) (x : Xlat) (store : Bool) : Res Unit :=
  match x.found with
  | none => .ok () s
  | some f => recordFound s d f store

/-! Whole accesses -/

/-- Where the second part of an access that crosses a 4-Kbyte boundary begins (R66). -/
def secondPartEa (ea : Word) (n : Nat) : Word := (ea + BitVec.ofNat 64 (n - 1)) &&& ~~~(fieldMask 52 63)

/-- The number of bytes in the first part of an access (R66): all of them where it crosses no boundary. -/
def firstPartLen (ea : Word) (n : Nat) : Nat := min n (4096 - (eaOffset ea).toNat)

/-- The state in which the first part's referenced bit may or may not have been set (R66, U17). -/
def maybeReferenced (s : State) (d : Nat) (x : Xlat) : State :=
  let t := match recordPart s d x false with
    | .ok () t => t
    | .fail _ _ => s
  { s with
    mem := if Config.freeBool d .firstPartR then t.mem else s.mem
    tlb := if Config.freeBool d .firstPartR then t.tlb else s.tlb
    tlbWindow := if Config.freeBool d .firstPartR then t.tlbWindow else s.tlbWindow }

/-- Steps 1 to 7 of R115 for an access of `n` bytes, in one part or two (R66): the physical addresses of its bytes, in
order. The parts use the draws `d` and `d + 1`. -/
def translateAccess (s : State) (ea : Word) (n : Nat) (kind : AccessKind) : Res (List Nat) :=
  let d := s.draws
  let store := kind == .store
  let s := { s with draws := d + 2 }
  match translate s d ea kind with
  | .error f => .fail f s
  | .ok x =>
    let n1 := firstPartLen ea n
    if n1 = n then
      match recordPart s d x store with
      | .fail f s => .fail f s
      | .ok () s => .ok (bytesFrom x.pa.toNat n) s
    else
      match translate s (d + 1) (secondPartEa ea n) kind with
      | .error f => .fail f (maybeReferenced s d x)
      | .ok y =>
        match recordPart s d x store with
        | .fail f s => .fail f s
        | .ok () s =>
          match recordPart s (d + 1) y store with
          | .fail f s => .fail f s
          | .ok () s => .ok (bytesFrom x.pa.toNat n1 ++ bytesFrom y.pa.toNat (n - n1)) s

/-- MemRead (R11, R64, R66): the `n` bytes at `ea`, the lowest address first. -/
def memRead (s : State) (ea : Word) (n : Nat) (kind : AccessKind) : Res (List Byte) :=
  match translateAccess s ea n kind with
  | .fail f s => .fail f s
  | .ok as s =>
    match firstAbsent s.cfg as with
    | some a => .fail (.machineCheck a) s
    | none => .ok (as.map s.mem.read) s

/-- MemWrite (R11, R64, R66): the bytes `bs` to `ea` and up; no byte is written if any is absent. -/
def memWrite (s : State) (ea : Word) (bs : List Byte) : Res Unit :=
  match translateAccess s ea bs.length .store with
  | .fail f s => .fail f s
  | .ok as s =>
    match firstAbsent s.cfg as with
    | some a => .fail (.machineCheck a) s
    | none => .ok () (s.tlbAgent.storeBytes as bs)

end Sys2Proof.Machine
end

