-- ==== Sys2Proof/Machine/Operands.lean ====
section
/-! DEFINITION. The operand forms: the base register and displacements (spec/30_encoding.md R147;
spec/42_storage_access.md R200), the special-purpose registers (spec/41_msr_sdr1_sync.md R187), and the register images
of an SLB entry (spec/40_slb_tlb_maintenance.md R160 to R163) and of a `tlbie` operand (R165). -/

namespace Sys2Proof.Machine

/-- (RA|0): register number 0 in the base position means the value 0 (R47, R200). -/
def State.base (s : State) (ra : Reg) : Word := if ra = 0 then 0 else s.readGpr ra

/-- The effective address of a D-form access (R147, R200): modulo 2^64. -/
def State.eaD (s : State) (ra : Reg) (d : BitVec 16) : Word := s.base ra + d.signExtend 64

/-- The effective address of a DS-form access (R147, R200): the displacement is DS || 0b00. -/
def State.eaDs (s : State) (ra : Reg) (ds : BitVec 14) : Word :=
  s.base ra + (ds ++ (0 : BitVec 2)).signExtend 64

/-- `mfspr` (R183): the value of the special-purpose register with number `n`; DSISR is zero-extended. -/
def State.readSpr (s : State) (n : BitVec 10) : Option Word :=
  if n = 25 then some s.sdr1
  else if n = 26 then some s.srr0
  else if n = 27 then some s.srr1
  else if n = 19 then some s.dar
  else if n = 18 then some (s.dsisr.setWidth 64)
  else none

/-- `mtspr` (R182): the special-purpose register with number `n` written; DSISR takes `v[32:63]`, and SDR1 opens the
window of R261. -/
def State.writeSpr (s : State) (n : BitVec 10) (v : Word) : Option State :=
  if n = 25 then some (s.setSdr1Racing v)
  else if n = 26 then some { s with srr0 := v }
  else if n = 27 then some { s with srr1 := v }
  else if n = 19 then some { s with dar := v }
  else if n = 18 then some { s with dsisr := slice v 32 63 }
  else none

/-- The index field of an RB image, bits 52:63 (R160 to R162). -/
def imageIndex (b : Word) : Nat := (slice b 52 63).toNat

/-- The entry that `slbmte` writes, from the RS image `s` and the RB image `b` (R160). -/
def entryOfImages (s b : Word) : SlbEntry where
  esid := slice b 0 35
  v := bit b 36
  vsid := slice s 0 51
  ks := bit s 52
  kp := bit s 53
  n := bit s 54
  l := bit s 55
  c := bit s 56

/-- The must-be-zero fields of the `slbmte` images are zero (R160). -/
def slbmteImagesOk (s b : Word) : Bool := slice s 57 63 == 0 && slice b 37 51 == 0

/-- The RS image of an entry, which `slbmfev` returns (R160, R161). -/
def vsidImage (e : SlbEntry) : Word :=
  e.vsid ++ BitVec.ofBool e.ks ++ BitVec.ofBool e.kp ++ BitVec.ofBool e.n ++ BitVec.ofBool e.l
    ++ BitVec.ofBool e.c ++ (0 : BitVec 7)

/-- What `slbmfee` returns for a valid entry (R162): ESID || 0b1 || 0^27. -/
def esidImage (e : SlbEntry) : Word := e.esid ++ (1 : BitVec 1) ++ (0 : BitVec 27)

/-- The ESID field of an RB image, bits 0:35 (R160, R163). -/
def imageEsid (b : Word) : BitVec 36 := slice b 0 35

/-- VA[32:67] of a `tlbie` operand, bits 16:51 (R165). -/
def tlbieVpnLow (b : Word) : BitVec 36 := slice b 16 51

end Sys2Proof.Machine
end

