-- ==== Sys2Proof/Machine/SlbTlb.lean ====
section
/-! DEFINITION. The SLB and TLB maintenance instructions (spec/40_slb_tlb_maintenance.md R160 to R167). Each is privileged
(R148); none accesses memory; each ends with pc ← pc + 4. -/

namespace Sys2Proof.Machine

/-- `slbmte RS,RB` (R160). -/
def execSlbmte (rs rb : Reg) (s : State) : Host.Outcome State Fault Refusal :=
  privileged s <|
    let i := imageIndex (s.readGpr rb)
    if i < s.slbEntries ∧ slbmteImagesOk (s.readGpr rs) (s.readGpr rb) then
      .next (s.setSlbRacing i (entryOfImages (s.readGpr rs) (s.readGpr rb))).nextPc
    else .refused .slbOperand

/-- The result of `slbmfev` (R161): the VSID image of a valid entry, else a free value (U4). -/
def slbmfevValue (s : State) (e : SlbEntry) : Word := if e.v then vsidImage e else Config.freeWord s.draws

/-- The result of `slbmfee` (R162): the ESID image of a valid entry, else a free value with bit 36 = 0 (U4). -/
def slbmfeeValue (s : State) (e : SlbEntry) : Word :=
  if e.v then esidImage e else putBit (Config.freeWord s.draws) 36 false

/-- `slbmfev RT,RB` (R161). -/
def execSlbmfev (rt rb : Reg) (s : State) : Host.Outcome State Fault Refusal :=
  privileged s <|
    match s.slb[imageIndex (s.readGpr rb)]? with
    | none => .refused .slbOperand
    | some e => .next ({ s with draws := s.draws + 1 }.setGpr rt (slbmfevValue s e)).nextPc

/-- `slbmfee RT,RB` (R162). -/
def execSlbmfee (rt rb : Reg) (s : State) : Host.Outcome State Fault Refusal :=
  privileged s <|
    match s.slb[imageIndex (s.readGpr rb)]? with
    | none => .refused .slbOperand
    | some e => .next ({ s with draws := s.draws + 1 }.setGpr rt (slbmfeeValue s e)).nextPc

/-- The entries `slbie` invalidates (R163): valid, with the ESID of the operand. -/
def slbieSelects (b : Word) (e : SlbEntry) : Bool := e.v && e.esid == imageEsid b

/-- `slbie RB` (R163). -/
def execSlbie (rb : Reg) (s : State) : Host.Outcome State Fault Refusal :=
  privileged s <|
    let b := s.readGpr rb
    if slice b 37 63 = 0 ∧ s.slb.all (fun e => !slbieSelects b e || e.c == bit b 36) then
      .next (s.invalidateSlb fun _ e => slbieSelects b e).nextPc
    else .refused .slbOperand

/-- The entries `slbia` invalidates (R164): the valid ones, but for entry 0 where SLBIA_KEEPS_ENTRY0 (P8). -/
def slbiaSelects (c : Config) (i : Nat) (e : SlbEntry) : Bool := e.v && !(c.slbiaKeepsEntry0 && i == 0)

/-- `slbia` (R164). -/
def execSlbia (s : State) : Host.Outcome State Fault Refusal :=
  privileged s <| .next (s.invalidateSlb (slbiaSelects s.cfg)).nextPc

/-- An entry that `tlbie` must remove (R165): VPN[32:67] is the operand's, in the layout of R165. -/
def tlbieMust (c : Config) (b : Word) (e : TlbEntry) : Bool :=
  c.tlbieOperand == .layoutR165 && vpnLow e.vpn == tlbieVpnLow b

/-- The set `tlbie` removes (R165): what it must, and whatever else the implementation chooses. -/
def tlbieRemoves (s : State) (b : Word) (i : Nat) (e : TlbEntry) : Bool :=
  tlbieMust s.cfg b e || Config.freeBool s.draws (.tlbieExtra i)

/-- The TLB after `tlbie`: removed entries stay usable until the window of R262 closes. -/
def State.tlbInvalidate (s : State) (b : Word) : State :=
  if s.cfg.tlbPresent then
    { s with
      tlb := s.tlb.zipIdx.filterMap fun (e, i) => if tlbieRemoves s b i e then none else some e
      tlbWindow := (s.tlb.zipIdx.filterMap fun (e, i) => if tlbieRemoves s b i e then some e else none) ++ s.tlbWindow
      draws := s.draws + 1 }
  else s

/-- `tlbie RB,L` (R165): L = 1, a large page, is refused (R124). -/
def execTlbie (rb : Reg) (l : BitVec 1) (s : State) : Host.Outcome State Fault Refusal :=
  privileged s <|
    if l = 1 then .refused .largePage
    else .next (s.tlbInvalidate (s.readGpr rb)).nextPc

/-- `tlbia` (R166): with TLB_PRESENT the TLB becomes empty; refused where TLBIA_IMPLEMENTED is false. -/
def execTlbia (s : State) : Host.Outcome State Fault Refusal :=
  if s.cfg.tlbiaImplemented then
    privileged s <| .next (if s.cfg.tlbPresent then { s with tlb := [], tlbWindow := [] } else s).nextPc
  else .refused .tlbiaAbsent

/-- `tlbsync` (R167): no effect on one processor. -/
def execTlbsync (s : State) : Host.Outcome State Fault Refusal :=
  privileged s <| .next s.nextPc

end Sys2Proof.Machine
end

