-- ==== Sys2Proof/Machine/Storage.lean ====
section
/-! DEFINITION. The four data-access instructions (spec/42_storage_access.md R200 to R204). None is privileged; a failed
access leaves RT, and memory but for referenced bits, unchanged. -/

namespace Sys2Proof.Machine

/-- A load of `n` bytes at `ea` into GPR[rt], zero-extended, big-endian. -/
def loadInto (rt : Reg) (ea : Word) (n : Nat) (s : State) : Host.Outcome State Fault Refusal :=
  match memRead s ea n .load with
  | .fail f t => raise f t
  | .ok bs t => .next (t.setGpr rt (BitVec.ofNat 64 (beValue bs))).nextPc

/-- A store of the bytes `bs` at `ea`. -/
def storeFrom (ea : Word) (bs : List Byte) (s : State) : Host.Outcome State Fault Refusal :=
  match memWrite s ea bs with
  | .fail f t => raise f t
  | .ok () t => .next t.nextPc

/-- `lbz RT,D(RA)` (R201). -/
def execLbz (rt ra : Reg) (d : BitVec 16) (s : State) : Host.Outcome State Fault Refusal :=
  loadInto rt (s.eaD ra d) 1 s

/-- `stb RS,D(RA)` (R202): GPR[RS][56:63]. -/
def execStb (rs ra : Reg) (d : BitVec 16) (s : State) : Host.Outcome State Fault Refusal :=
  storeFrom (s.eaD ra d) (beBytes 1 (s.readGpr rs).toNat) s

/-- `ld RT,DS(RA)` (R203). -/
def execLd (rt ra : Reg) (ds : BitVec 14) (s : State) : Host.Outcome State Fault Refusal :=
  loadInto rt (s.eaDs ra ds) 8 s

/-- `std RS,DS(RA)` (R204). -/
def execStd (rs ra : Reg) (ds : BitVec 14) (s : State) : Host.Outcome State Fault Refusal :=
  storeFrom (s.eaDs ra ds) (beBytes 8 (s.readGpr rs).toNat) s

end Sys2Proof.Machine
end

