-- ==== Sys2Proof/Machine/System.lean ====
section
/-! DEFINITION. MSR and special-purpose register access, return from exception, and the synchronising instructions
(spec/41_msr_sdr1_sync.md R180 to R187). All but `sync` and `isync` are privileged (R148). -/

namespace Sys2Proof.Machine

/-- `mtmsrd RS,L` (R180): a change of IR, DR or PR opens the window of R260. -/
def execMtmsrd (rs : Reg) (l : BitVec 1) (s : State) : Host.Outcome State Fault Refusal :=
  privileged s <|
    .next (s.setMsrRacing (mtmsrdMsr s.cfg.mtmsrdVariant l (s.readGpr rs) s.msr)).nextPc

/-- `mfmsr RT` (R181). -/
def execMfmsr (rt : Reg) (s : State) : Host.Outcome State Fault Refusal :=
  privileged s <| .next (s.setGpr rt s.msr).nextPc

/-- `mtspr SPR,RS` (R182). -/
def execMtspr (spr : BitVec 10) (rs : Reg) (s : State) : Host.Outcome State Fault Refusal :=
  privileged s <|
    match s.writeSpr spr (s.readGpr rs) with
    | some t => .next t.nextPc
    | none => .refused (.sprOutsideSpec spr)

/-- `mfspr RT,SPR` (R183). -/
def execMfspr (rt : Reg) (spr : BitVec 10) (s : State) : Host.Outcome State Fault Refusal :=
  privileged s <|
    match s.readSpr spr with
    | some v => .next (s.setGpr rt v).nextPc
    | none => .refused (.sprOutsideSpec spr)

/-- `rfid` (R184, R230). -/
def execRfid (s : State) : Host.Outcome State Fault Refusal :=
  privileged s <| .next s.returnFromException

/-- What `sync L` closes (R185): the window of R262 on stores for L = 0 and L = 2; for `ptesync` (L = 2) also the window
on removed TLB entries (R165, R262; log entry 15). -/
def State.storageSync (s : State) (l : BitVec 2) : State :=
  if l = 2 then { s with pteWindow := [], tlbWindow := [] }
  else if l = 0 then { s with pteWindow := [] }
  else s

/-- `sync L` (R185): `sync`, `lwsync`, `ptesync`. -/
def execSync (l : BitVec 2) (s : State) : Host.Outcome State Fault Refusal :=
  if l = 3 then .refused .syncReserved else .next (s.storageSync l).nextPc

/-- `isync` (R186): closes the windows of R260 and R261. -/
def execIsync (s : State) : Host.Outcome State Fault Refusal := .next s.contextSync.nextPc

end Sys2Proof.Machine
end

