-- ==== Sys2Proof/Machine/Dispatch.lean ====
section
/-! DEFINITION. The meaning of each instruction, one arm each: a direct call of its definition. -/

namespace Sys2Proof.Machine

def exec (i : Instr) (s : State) : Host.Outcome State Fault Refusal :=
  match i with
  | .slbmte rs rb => Sys2Proof.Machine.execSlbmte rs rb s
  | .slbmfev rt rb => Sys2Proof.Machine.execSlbmfev rt rb s
  | .slbmfee rt rb => Sys2Proof.Machine.execSlbmfee rt rb s
  | .slbie rb => Sys2Proof.Machine.execSlbie rb s
  | .slbia => Sys2Proof.Machine.execSlbia s
  | .tlbie rb l => Sys2Proof.Machine.execTlbie rb l s
  | .tlbia => Sys2Proof.Machine.execTlbia s
  | .tlbsync => Sys2Proof.Machine.execTlbsync s
  | .mtmsrd rs l => Sys2Proof.Machine.execMtmsrd rs l s
  | .mfmsr rt => Sys2Proof.Machine.execMfmsr rt s
  | .mtspr spr rs => Sys2Proof.Machine.execMtspr spr rs s
  | .mfspr rt spr => Sys2Proof.Machine.execMfspr rt spr s
  | .rfid => Sys2Proof.Machine.execRfid s
  | .sync l => Sys2Proof.Machine.execSync l s
  | .isync => Sys2Proof.Machine.execIsync s
  | .lbz rt ra d => Sys2Proof.Machine.execLbz rt ra d s
  | .stb rs ra d => Sys2Proof.Machine.execStb rs ra d s
  | .ld rt ra ds => Sys2Proof.Machine.execLd rt ra ds s
  | .std rs ra ds => Sys2Proof.Machine.execStd rs ra ds s

end Sys2Proof.Machine
end

