-- ==== Sys2Proof/Machine/Fetch.lean ====
section
/-! DEFINITION. Fetching an instruction (spec/10_state.md R50; spec/20_memory.md R63): four bytes at pc, through
Translate with kind fetch. -/

namespace Sys2Proof.Machine

/-- The mode is one the spec describes (R5, D1, D18): SF = 1 and LE = 0. -/
def unsupportedMode (s : State) : Option Refusal :=
  if !msrSF s.msr then some .thirtyTwoBitMode
  else if msrLE s.msr then some .littleEndianMode
  else none

/-- The bytes of the instruction at pc (R50, R63). -/
def fetchBytes (s : State) : Res (List Byte) := memRead s s.pc 4 .fetch

/-- The physical addresses the next fetch reads, where its translation succeeds. -/
def fetchAddrs (s : State) : List Nat :=
  match translateAccess s.tlbAgent s.pc 4 .fetch with
  | .ok as _ => as
  | .fail _ _ => []

/-- The memory with a word's bytes where the next fetch reads them. -/
def placeWord (s : State) (w : Word32) : State :=
  { s with mem := s.mem.writeAll ((fetchAddrs s).zip (bytesOfWord w)) }

end Sys2Proof.Machine
end

