-- ==== Sys2Proof/Machine/Step.lean ====
section
/-! DEFINITION. One step of the machine: the TLB agent may act, the instruction at pc is fetched (spec/10_state.md R50)
and decoded, the agent may act again, and the instruction's meaning runs. Exceptions of the fetch come first
(spec/60_exceptions.md R227). -/

namespace Sys2Proof.Machine

def step (s : State) : Host.Outcome State Fault Refusal :=
  match unsupportedMode s with
  | some r => .refused r
  | none =>
    match fetchBytes s.tlbAgent with
    | .fail f t => raise f t
    | .ok bs t =>
      match decode bs with
      | .error e => .refused (.word e)
      | .ok (i, _) => exec i t.tlbAgent

/-- `s` with the word `w` (bits above `nbits` zero) stored where `step` fetches its next instruction (log entry 8). -/
def State.withFetchWord (s : State) (nbits w : Nat) : State := placeWord s (BitVec.ofNat 32 (w % 2 ^ nbits))

end Sys2Proof.Machine
end

