-- ==== Sys2Proof/Safety.lean ====
section
/-! DEFINITION. The terms in which claims speak of a run: the invariant of the machine's states, the mode the spec
describes, a state with no window open, and what a step may not do. -/

namespace Sys2Proof.Machine

/-- What holds of the state at reset and is kept by every step. -/
structure State.Inv (s : State) : Prop where
  /-- The parameters lie in their ranges (R6, P1 to P14). -/
  cfg : s.cfg.wf = true
  /-- Memory is in canonical form. -/
  memWf : s.mem.wf = true
  /-- Memory lists bytes at present addresses only (R54, R64). -/
  memPresent : ∀ x ∈ s.mem, presentAt s.cfg x.1 = true
  /-- pc is a multiple of 4 (R50). -/
  pcAligned : s.pc.toNat % 4 = 0
  /-- SLB_ENTRIES is at least 1 (R6). -/
  slbNonempty : 1 ≤ s.slb.length
  /-- Without a TLB there is no TLB state (R40). -/
  noTlb : s.cfg.tlbPresent = false → s.tlb = [] ∧ s.tlbWindow = []
  /-- The store window records 8-byte aligned doublewords (R67). -/
  pteWindowAligned : ∀ x ∈ s.pteWindow, x.1 % 8 = 0
  /-- The SLB window records entries of the SLB (R33). -/
  slbWindowInRange : ∀ x ∈ s.slbWindow, x.1 < s.slb.length

/-- In variant v2, user mode never runs in real addressing mode (R180). -/
abbrev State.UserTranslated (s : State) : Prop :=
  s.cfg.mtmsrdVariant = .v2 → msrPR s.msr = true →
    msrIR s.msr = true ∧ msrDR s.msr = true ∧ msrEE s.msr = true

/-- The mode the spec describes: SF = 1 and LE = 0 (D1, D18). -/
abbrev State.Supported (s : State) : Prop := msrSF s.msr = true ∧ msrLE s.msr = false

/-- No window of R260 or R261 is open. -/
abbrev State.ContextSynced (s : State) : Prop :=
  s.msrWindow = ⟨false, false, false⟩ ∧ s.slbWindow = [] ∧ s.sdr1Window = []

/-- No window at all is open (R260 to R262). -/
abbrev State.Quiet (s : State) : Prop := s.ContextSynced ∧ s.pteWindow = [] ∧ s.tlbWindow = []

/-- The registers of the two states are the same, but for pc: the general registers, the MSR, SDR1, the SLB, the
exception registers and the parameters. -/
structure State.SameRegisters (s t : State) : Prop where
  gpr : t.gpr = s.gpr
  msr : t.msr = s.msr
  sdr1 : t.sdr1 = s.sdr1
  slb : t.slb = s.slb
  srr0 : t.srr0 = s.srr0
  srr1 : t.srr1 = s.srr1
  dar : t.dar = s.dar
  dsisr : t.dsisr = s.dsisr
  cfg : t.cfg = s.cfg

/-- The windows of the two states are the same (R260 to R262, R165). -/
structure State.SameWindows (s t : State) : Prop where
  msrWindow : t.msrWindow = s.msrWindow
  slbWindow : t.slbWindow = s.slbWindow
  sdr1Window : t.sdr1Window = s.sdr1Window
  pteWindow : t.pteWindow = s.pteWindow
  tlbWindow : t.tlbWindow = s.tlbWindow

/-- What a store of the program to the bytes at `as` does to the windows (R127, R262): it records each 8-byte aligned
doubleword it stores to, with the value that `m`, the memory before the bytes are written, holds there; what was recorded
before stays, and no other window changes. -/
structure State.StoreWindows (s t : State) (as : List Nat) (m : Memory) : Prop where
  pteWindow : ∃ new, t.pteWindow = new ++ s.pteWindow ∧
    ∀ a v, (a, v) ∈ new ↔ (∃ b ∈ as, a = b / 8 * 8) ∧ v = m.readDw a
  msrWindow : t.msrWindow = s.msrWindow
  slbWindow : t.slbWindow = s.slbWindow
  sdr1Window : t.sdr1Window = s.sdr1Window
  tlbWindow : t.tlbWindow = s.tlbWindow

/-- Data accesses use real addressing mode, and EA bits 0:1 are ignored (R61, R72, R73). -/
abbrev State.RealData (s : State) : Prop :=
  msrDR s.msr = false ∧ s.msrWindow.dr = false ∧ s.cfg.realModeHighBits = .ignore

/-- The physical address of byte `k` of an access at `ea` in real addressing mode (R73, R66): the 62 low bits of
`ea + k`. -/
def realByte (ea : Word) (k : Nat) : Nat := (ea.toNat + k) % 2 ^ 62

/-- The `n` bytes of an access at `ea` in real addressing mode are present. -/
abbrev State.RealBytesPresent (s : State) (ea : Word) (n : Nat) : Prop :=
  ∀ k, k < n → presentAt s.cfg (realByte ea k) = true

/-- The virtual page of `ea` in the segment that SLB entry `e` maps (R82). -/
def pageOf (e : SlbEntry) (ea : Word) : VPN := vpnOf e.vsid ea

/-- Exactly one valid SLB entry, `e`, has the ESID of `ea`, and its VSID fits VA_BITS (R80, R84, R85). -/
abbrev State.SegmentOf (s : State) (ea : Word) (e : SlbEntry) : Prop :=
  s.slb.filter (slbHit ea) = [e] ∧ vsidFits s.cfg e.vsid = true

/-- SDR1 is one a page-table search is defined for (R29, R30). -/
abbrev State.TableLegal (s : State) : Prop :=
  sdr1ReservedZero s.sdr1 = true ∧ sdr1Size s.sdr1 ≤ htabLimit s.cfg

/-- The sixteen slots of a page are present (R105), and no valid PTE in them has a VSID above VA_BITS (R85). -/
abbrev State.SlotsLegal (s : State) (vpn : VPN) : Prop :=
  ∀ x ∈ pteSlots s.sdr1 vpn, (∀ k, k < 16 → presentAt s.cfg (x.1.toNat + k) = true) ∧
    (pteV (s.mem.readDw x.1.toNat) = true → vsidFits s.cfg (pteVsid (s.mem.readDw x.1.toNat)) = true)

/-- The PTE that memory holds at `t` (R105). -/
def State.pteAt (s : State) (t : PA) : Pte := ⟨s.mem.readDw t.toNat, s.mem.readDw (t.toNat + 8)⟩

/-- The PTE at `t` is the one match of the page among its sixteen slots (R103 to R106), and its reserved bits are zero. -/
abbrev State.TableHolds (s : State) (vpn : VPN) (t : PA) : Prop :=
  (∃ x ∈ pteSlots s.sdr1 vpn, x.1 = t ∧ pteMatches (s.pteAt t).dw0 vpn x.2 = true) ∧
  (∀ x ∈ pteSlots s.sdr1 vpn, pteMatches (s.mem.readDw x.1.toNat) vpn x.2 = true → x.1 = t) ∧
  pteReservedZero s.cfg (s.pteAt t) = true

/-- Steps 2, 3, 5 and 6 of R115 pass for an access by the current mode through entry `e` and PTE `p`. -/
abbrev State.Permits (s : State) (e : SlbEntry) (p : Pte) (kind : AccessKind) : Prop :=
  e.l = false ∧ pteL p = false ∧
  (kind = .fetch → e.n = false ∧ pteG p = false ∧ (s.cfg.pteNImplemented = true → pteN p = false)) ∧
  accessAllowed (protectionKey e (msrPR s.msr)) (ptePp p) kind = true

/-- The translation bit that governs an access of this kind is 1 (R61). -/
abbrev State.Translating (s : State) (kind : AccessKind) : Prop :=
  (match kind with
    | .fetch => msrIR s.msr
    | .load => msrDR s.msr
    | .store => msrDR s.msr) = true

/-- `ea` is mapped for this kind of access, by SLB entry `e` and the PTE at `t`, with no TLB and no window open: what
R125 needs to give a physical address. -/
structure State.Mapped (s : State) (ea : Word) (kind : AccessKind) (e : SlbEntry) (t : PA) : Prop where
  quiet : s.Quiet
  noTlb : s.cfg.tlbPresent = false
  translating : s.Translating kind
  segment : s.SegmentOf ea e
  table : s.TableLegal
  slots : s.SlotsLegal (pageOf e ea)
  holds : s.TableHolds (pageOf e ea) t
  permits : s.Permits e (s.pteAt t) kind

/-- The translated parts of an access (R66), as far as they translate. -/
def State.partsOf (s : State) (ea : Word) (n : Nat) (kind : AccessKind) : List Xlat :=
  match translate s s.draws ea kind with
  | .error _ => []
  | .ok x =>
    if firstPartLen ea n = n then [x]
    else
      match translate s (s.draws + 1) (secondPartEa ea n) kind with
      | .error _ => [x]
      | .ok y => [x, y]

/-- The bytes of page table entries that an access may change (R122): the byte of R, and for a store the byte of C. -/
def State.historyBytes (s : State) (ea : Word) (n : Nat) (kind : AccessKind) : List Nat :=
  (s.partsOf ea n kind).flatMap fun x =>
    match x.found with
    | none => []
    | some f => if kind = .store then [f.addr.toNat + 14, f.addr.toNat + 15] else [f.addr.toNat + 14]

/-- The physical addresses of the bytes of an access, where it translates (R66, R70). -/
def State.bytesOf (s : State) (ea : Word) (n : Nat) (kind : AccessKind) : List Nat :=
  match translateAccess s ea n kind with
  | .ok as _ => as
  | .fail _ _ => []

/-- A step that does not end the run. -/
def Safe (o : Host.Outcome State Fault Refusal) : Prop := ∃ t, o = .next t

/-- A run of `n` steps is safe. -/
def SafeFor : Nat → State → Prop
  | 0, _ => True
  | n + 1, s => ∃ t, step s = .next t ∧ SafeFor n t

end Sys2Proof.Machine
end

