-- ==== Sys2Proof/Certificates/Slice0/Obligations.lean ====
section
/-! DEFINITION. The statements for the provers. Where a statement gives an operand, a field or an address it does so in
numbers (`toNat`, `%`, `/`, `testBit`) where it can, so that it does not repeat the model's own slices. A frame is often
written `{ t with <fields the instruction may change> := s's } = s`: every other field of `t` is that of `s`. -/

open Sys2Proof Sys2Proof.Machine

/-! Encoding -/

/-- Decoding the word of a well-formed instruction gives the instruction back (R142 to R149). -/
def Obligations.DecodeInvertsEncode : Prop :=
  ∀ i : Instr, i.wf = true → decodeWord (encode i) = .ok i

/-- A word that decodes is the word of its instruction, which is well-formed: no two words mean the same, and no bit is
ignored (R149, R150). -/
def Obligations.EncodeInvertsDecode : Prop :=
  ∀ (w : Word32) (i : Instr), decodeWord w = .ok i → i.wf = true ∧ encode i = w

/-- A word that matches a row of R149 decodes to that row's instruction, but for two kinds that are rejected by name:
`mtspr` and `mfspr` whose SPR number, the swapped halves of bits 11:20, is outside the five (R143, R147, R151), and `sync`
with L = 3 (R185). -/
def Obligations.TableWordDecodesToItsRow : Prop :=
  ∀ (w : Word32), ∀ row ∈ opcodeTable, w &&& row.mask = row.pattern →
    let n := BitVec.ofNat 10 (w.toNat / 2 ^ 11 % 32 * 32 + w.toNat / 2 ^ 16 % 32)
    if (row.mnemonic = "mtspr" ∨ row.mnemonic = "mfspr") ∧ n ∉ sprNumbers then
      decodeWord w = .error (.sprOutsideSpec n)
    else if row.mnemonic = "sync" ∧ w.toNat / 2 ^ 21 % 4 = 3 then decodeWord w = .error .syncReserved
    else ∃ i, decodeWord w = .ok i ∧ i.mnemonic = row.mnemonic

/-- Words of R160 to R204 and of vector T11, written out, decode to the instructions they stand for; the words T11 says
must be refused are rejected by name. -/
def Obligations.WordsOfTheSpecDecode : Prop :=
  decodeWord 0x7C802B24 = .ok (.slbmte 4 5) ∧ decodeWord 0x7C202264 = .ok (.tlbie 4 1) ∧
  decodeWord 0x7CC10164 = .ok (.mtmsrd 6 1) ∧ decodeWord 0x7C7903A6 = .ok (.mtspr 25 3) ∧
  decodeWord 0x7C7302A6 = .ok (.mfspr 3 19) ∧ decodeWord 0x4C000024 = .ok .rfid ∧
  decodeWord 0x7C4004AC = .ok (.sync 2) ∧ decodeWord 0x88E8FFFF = .ok (.lbz 7 8 0xFFFF) ∧
  decodeWord 0xE8E8FFF8 = .ok (.ld 7 8 0x3FFE) ∧ decodeWord 0xFBE17FFC = .ok (.std 31 1 0x1FFF) ∧
  decodeWord 0x7C802B25 = .error (.reservedField "slbmte") ∧
  decodeWord 0x7C812B24 = .error (.reservedField "slbmte") ∧
  decodeWord 0x7C6004AC = .error .syncReserved ∧ decodeWord 0xE8E80001 = .error (.outsideSpec 0xE8E80001) ∧
  decodeWord 0xF9280002 = .error (.outsideSpec 0xF9280002) ∧
  decodeWord 0x7C7A0BA6 = .error (.sprOutsideSpec 58) ∧
  decodeWord 0x60000000 = .error (.outsideSpec 0x60000000) ∧ decodeWord 0 = .error (.outsideSpec 0)

/-! The step -/

/-- A step runs the instruction decoded from the bytes fetched at pc. A word outside the spec is refused by name (R151);
an exception of the fetch is taken (R227), its machine check ends the run (R216), its refusal is the step's. Around this
stand the model's choices: the TLB agent's turns before the fetch and after it (log entry 17; R41 says at any moment), the
draws the fetch makes (log entry 6), and the refusal of a mode outside the spec (log entry 9). -/
def Obligations.StepRunsTheDecodedInstruction : Prop :=
  (∀ (s u : State) (bs rest : List Byte) (i : Instr), s.Supported → fetchBytes s.tlbAgent = .ok bs u →
    decode bs = .ok (i, rest) → step s = exec i u.tlbAgent) ∧
  (∀ (s u : State) (bs : List Byte) (e : DecodeError), s.Supported → fetchBytes s.tlbAgent = .ok bs u →
    decode bs = .error e → step s = .refused (.word e)) ∧
  (∀ (s u : State) (e : Exc), s.Supported → fetchBytes s.tlbAgent = .fail (.exc e) u →
    step s = .next (u.takeException e)) ∧
  (∀ (s u : State) (a : Nat), s.Supported → fetchBytes s.tlbAgent = .fail (.machineCheck a) u →
    step s = .fault (.machineCheck a u)) ∧
  (∀ (s u : State) (r : Refusal), s.Supported → fetchBytes s.tlbAgent = .fail (.refuse r) u → step s = .refused r) ∧
  (∀ s : State, ¬ s.Supported → step s = .refused .thirtyTwoBitMode ∨ step s = .refused .littleEndianMode)

/-- With instruction translation off, a step runs the instruction whose word the four bytes at pc spell, the byte at pc
the most significant (R50, R63, R73). -/
def Obligations.StepInRealModeRunsTheWordAtPc : Prop :=
  ∀ (s : State) (i : Instr), s.Supported → msrIR s.msr = false → s.msrWindow.ir = false →
    s.cfg.realModeHighBits = .ignore → s.cfg.tlbPresent = false → s.pc.toNat % 4 = 0 → s.RealBytesPresent s.pc 4 →
    decodeWord (BitVec.ofNat 32
      ((s.mem.read (realByte s.pc 0)).toNat * 2 ^ 24 + (s.mem.read (realByte s.pc 1)).toNat * 2 ^ 16 +
        (s.mem.read (realByte s.pc 2)).toNat * 2 ^ 8 + (s.mem.read (realByte s.pc 3)).toNat)) = .ok i →
    step s = exec i { s with draws := s.draws + 2 }

/-! Real addressing mode -/

/-- In real addressing mode the physical address is the 62 low bits of the effective address, for every kind of access
and either mode of privilege; with REAL_MODE_HIGH_BITS = machine_check, bits 0:1 must be zero (R72 to R74). -/
def Obligations.RealModeAddressIsTheLowBits : Prop :=
  ∀ (s : State) (d : Nat) (ea : Word) (kind : AccessKind), seenEnabled s d kind = false →
    (s.cfg.realModeHighBits = .ignore ∨ ea.toNat < 2 ^ 62 →
      translate s d ea kind = .ok ⟨BitVec.ofNat 62 (ea.toNat % 2 ^ 62), none⟩) ∧
    (s.cfg.realModeHighBits = .machineCheck → 2 ^ 62 ≤ ea.toNat →
      translate s d ea kind = .error (.machineCheck ea.toNat))

/-- No SLB, TLB, SDR1 or page-table state is read in real addressing mode, and MSR[PR] has no effect: two states that
agree in the governing bit and in the parameters translate alike (R73, R74). -/
def Obligations.RealModeReadsNoTranslationState : Prop :=
  ∀ (s t : State) (ea : Word) (kind : AccessKind), s.ContextSynced → t.ContextSynced → s.cfg = t.cfg →
    ¬ s.Translating kind → ¬ t.Translating kind →
    ∀ d, translate s d ea kind = translate t d ea kind

/-- `lbz` and `ld` with data translation off and their bytes present: the target register takes the bytes at the 62 low
bits of the effective address, big-endian and zero-extended, at every alignment; nothing else changes but pc (and the
model's count of draws) (R200, R201, R203).
That an access at the top of the 62-bit space goes on at physical address 0 (R66, R73) is log entry 25, the model's
choice. -/
def Obligations.LoadsInRealMode : Prop :=
  ∀ (s : State) (rt ra : Reg), s.Supported → s.RealData →
    (∀ d : BitVec 16, let ea := (if ra = 0 then 0 else s.readGpr ra) + BitVec.ofInt 64 d.toInt
      s.RealBytesPresent ea 1 →
      exec (.lbz rt ra d) s =
        .next ({ s with draws := s.draws + 2, pc := s.pc + 4 }.setGpr rt
          (BitVec.ofNat 64 (s.mem.read (realByte ea 0)).toNat))) ∧
    (∀ ds : BitVec 14, let ea := (if ra = 0 then 0 else s.readGpr ra) + BitVec.ofInt 64 (4 * ds.toInt)
      s.RealBytesPresent ea 8 →
      exec (.ld rt ra ds) s =
        .next ({ s with draws := s.draws + 2, pc := s.pc + 4 }.setGpr rt
          (BitVec.ofNat 64 (((List.range 8).map fun k => (s.mem.read (realByte ea k)).toNat * 256 ^ (7 - k)).sum))))

/-- `stb` and `std` with data translation off and their bytes present: each byte of the source register goes to its
address, the most significant first, and every other byte of memory is unchanged, as are the registers (R200, R202,
R204); the store opens the window of R127 and R262 on the doublewords stored to, and changes no other (that it does so
wherever the bytes lie, inside the page table or not, is log entry 13, the model's choice).
That an access at the top of the 62-bit space goes on at physical address 0 (R66, R73) is log entry 25, the model's
choice. -/
def Obligations.StoresInRealMode : Prop :=
  ∀ (s : State) (rs ra : Reg), s.Supported → s.RealData → s.mem.wf = true →
    (∀ d : BitVec 16, let ea := (if ra = 0 then 0 else s.readGpr ra) + BitVec.ofInt 64 d.toInt
      s.RealBytesPresent ea 1 →
      ∃ t, exec (.stb rs ra d) s = .next t ∧ t.pc = s.pc + 4 ∧ s.SameRegisters t ∧
        s.StoreWindows t [realByte ea 0] s.mem ∧
        t.mem.read (realByte ea 0) = BitVec.ofNat 8 (s.readGpr rs).toNat ∧
        ∀ a, a ≠ realByte ea 0 → t.mem.read a = s.mem.read a) ∧
    (∀ ds : BitVec 14, let ea := (if ra = 0 then 0 else s.readGpr ra) + BitVec.ofInt 64 (4 * ds.toInt)
      s.RealBytesPresent ea 8 →
      ∃ t, exec (.std rs ra ds) s = .next t ∧ t.pc = s.pc + 4 ∧ s.SameRegisters t ∧
        s.StoreWindows t ((List.range 8).map (realByte ea)) s.mem ∧
        (∀ k, k < 8 → t.mem.read (realByte ea k) = BitVec.ofNat 8 ((s.readGpr rs).toNat / 256 ^ (7 - k))) ∧
        ∀ a, (∀ k, k < 8 → a ≠ realByte ea k) → t.mem.read a = s.mem.read a)

/-- A doubleword stored with data translation off is the doubleword a load of the same effective address then returns,
at every alignment (R64, R203, R204).
That an access at the top of the 62-bit space goes on at physical address 0 (R66, R73) is log entry 25, the model's
choice. -/
def Obligations.StdThenLdReturnsTheDoubleword : Prop :=
  ∀ (s t : State) (rs ra rt ra' : Reg) (ds ds' : BitVec 14), s.Supported → s.RealData → s.mem.wf = true →
    s.RealBytesPresent (s.eaDs ra ds) 8 → s.eaDs ra' ds' = s.eaDs ra ds → exec (.std rs ra ds) s = .next t →
    ∃ u, exec (.ld rt ra' ds') t = .next u ∧ u.readGpr rt = s.readGpr rs

/-! Translation -/

/-- The virtual page number is the VSID above the 16-bit page index, and the physical address of a page is its RPN above
the 12-bit byte offset (R82, R109). -/
def Obligations.VirtualAndPhysicalAddressFields : Prop :=
  (∀ (vsid : BitVec 52) (ea : Word), (vpnOf vsid ea).toNat = vsid.toNat * 2 ^ 16 + ea.toNat / 2 ^ 12 % 2 ^ 16) ∧
  (∀ (p : Pte) (ea : Word), (pagePa p ea).toNat = p.dw1.toNat / 2 ^ 12 % 2 ^ 50 * 2 ^ 12 + ea.toNat % 2 ^ 12)

/-- The primary hash is the 39 low bits of the VSID exclusive-ored with the page index, and the secondary hash its ones'
complement at 39 bits (R95, R96). -/
def Obligations.HashesOfAPage : Prop :=
  ∀ vpn : VPN, (hash1 vpn).toNat = (vpn.toNat / 2 ^ 16 % 2 ^ 39) ^^^ (vpn.toNat % 2 ^ 16) ∧
    (hash2 vpn).toNat = (hash1 vpn).toNat ^^^ (2 ^ 39 - 1)

/-- The PTEG address is the bitwise OR of the table's base, the hash bits that HTABSIZE selects, and the 11 low hash bits
(R97), for every HTABORG, aligned or not (R98). -/
def Obligations.PtegAddressIsAnOr : Prop :=
  ∀ (sdr1 : Word) (hash : BitVec 39), sdr1.toNat % 2 ^ 5 ≤ 28 →
    (ptegAddr sdr1 hash).toNat =
      (sdr1.toNat / 2 ^ 18 % 2 ^ 44 * 2 ^ 18) ||| (hash.toNat / 2 ^ 11 % 2 ^ (sdr1.toNat % 2 ^ 5) * 2 ^ 18) |||
        (hash.toNat % 2 ^ 11 * 2 ^ 7)

/-- In a table aligned to its size the PTEG lies inside the table: the OR is an addition that stays below the table's end
(R29, R30, R97, R98). -/
def Obligations.PtegLiesInsideAnAlignedTable : Prop :=
  ∀ (sdr1 : Word) (hash : BitVec 39), sdr1.toNat % 2 ^ 5 ≤ 28 →
    sdr1.toNat / 2 ^ 18 % 2 ^ (sdr1.toNat % 2 ^ 5) = 0 →
    sdr1.toNat / 2 ^ 18 % 2 ^ 44 * 2 ^ 18 ≤ (ptegAddr sdr1 hash).toNat ∧
    (ptegAddr sdr1 hash).toNat + 128 ≤ sdr1.toNat / 2 ^ 18 % 2 ^ 44 * 2 ^ 18 + 2 ^ (18 + sdr1.toNat % 2 ^ 5) ∧
    (ptegAddr sdr1 hash).toNat % 128 = 0

/-- Why five bits of page index suffice in the PTE: two pages of one segment that a PTE in a given PTEG could stand for,
by H, VSID and API, are the same page, at every table size (R99). -/
def Obligations.PtegAndApiFixThePage : Prop :=
  ∀ (sdr1 : Word) (v w : VPN) (h : Bool), vpnVsid v = vpnVsid w → vpnApi v = vpnApi w →
    ptegAddr sdr1 (if h then hash2 v else hash1 v) = ptegAddr sdr1 (if h then hash2 w else hash1 w) → v = w

/-- Page address translation in full (R125): a mapped address translates to its page's physical address, through the PTE
that matches, primary or secondary, for a fetch, a load or a store. -/
def Obligations.MappedAddressTranslates : Prop :=
  ∀ (s : State) (ea : Word) (kind : AccessKind) (e : SlbEntry) (t : PA), s.Mapped ea kind e t →
    ∀ d, translate s d ea kind =
      .ok ⟨pagePa (s.pteAt t) ea, some ⟨pageOf e ea, s.pteAt t, t, none⟩⟩

/-- The (Key, PP) table of R112, row by row, and the key of R111. -/
def Obligations.ProtectionTable : Prop :=
  (∀ pp, accessAllowed false pp .load = true) ∧ (∀ pp, accessAllowed false pp .store = decide (pp ≠ 3)) ∧
  (∀ pp, accessAllowed true pp .load = decide (pp ≠ 0)) ∧ (∀ pp, accessAllowed true pp .store = decide (pp = 2)) ∧
  (∀ key pp, accessAllowed key pp .fetch = accessAllowed key pp .load) ∧
  (∀ e : SlbEntry, protectionKey e false = e.ks ∧ protectionKey e true = e.kp)

/-- SLB miss (R83, R214, R215): with translation on and no valid entry with the ESID of the address, a fetch takes the
instruction segment exception and a load or a store the data segment exception with DAR = the effective address; for each
of the four data-access instructions, at any alignment, pc goes to the vector, and no memory byte and no general register
changes. -/
def Obligations.SegmentMissTakesTheSegmentException : Prop :=
  ∀ s : State, s.ContextSynced →
    (∀ ea kind d, s.Translating kind → (∀ e ∈ s.slb, ¬ (e.v = true ∧ e.esid.toNat = ea.toNat / 2 ^ 28)) →
      translate s d ea kind = .error (.exc (if kind = .fetch then .instructionSegment else .dataSegment ea))) ∧
    (∀ (i : Instr) (r ra : Reg) (ea : Word),
      (∃ x, (i = .lbz r ra x ∨ i = .stb r ra x) ∧ ea = s.eaD ra x) ∨
        (∃ x, (i = .ld r ra x ∨ i = .std r ra x) ∧ ea = s.eaDs ra x) →
      msrDR s.msr = true → (∀ e ∈ s.slb, ¬ (e.v = true ∧ e.esid.toNat = ea.toNat / 2 ^ 28)) →
      ∃ t, exec i s = .next t ∧ t.pc = s.cfg.vectorBase.setWidth 64 + 0x380 ∧ t.dar = ea ∧ t.srr0 = s.pc ∧
        t.mem = s.mem ∧ t.gpr = s.gpr)

/-- What the model refuses on a translated access because the spec calls it undefined or gives it no meaning. Of the SLB:
several valid entries with the ESID (R84, U1), a VSID above VA_BITS (R85, U6), a large segment (R124, U11). Of the page
table, with no TLB and for no fetch from a no-execute segment: an SDR1 with reserved bits (R29, U7) or with HTABSIZE above
28 (R30, U5) or above HTABSIZE_MAX (log entry 22); and outside the windows a valid PTE in the slots with a VSID above
VA_BITS (R85, U6; which PTEs this is asked of: log entry 21), a matching PTE with reserved bits (R102, U8; log entry 20),
matching PTEs that differ in RPN, WIMG, N or PP (R106, U2), and a large page (R124, U11). -/
def Obligations.UndefinedTranslationsAreRefused : Prop :=
  ∀ (s : State) (d : Nat) (ea : Word) (kind : AccessKind), s.ContextSynced → s.Translating kind →
    (∀ e f es, s.slb.filter (slbHit ea) = e :: f :: es → translate s d ea kind = .error (.refuse .slbMultipleHits)) ∧
    (∀ e, s.slb.filter (slbHit ea) = [e] → 2 ^ (s.cfg.vaBits - 28) ≤ e.vsid.toNat →
      translate s d ea kind = .error (.refuse .vsidTooWide)) ∧
    (∀ e, s.SegmentOf ea e → ¬ (kind = .fetch ∧ e.n = true) →
      (e.l = true → translate s d ea kind = .error (.refuse .largePage)) ∧
      (e.l = false → s.cfg.tlbPresent = false →
        (sdr1ReservedZero s.sdr1 = false → translate s d ea kind = .error (.refuse .sdr1Reserved)) ∧
        (sdr1ReservedZero s.sdr1 = true → s.cfg.htabSizeMax < s.sdr1.toNat % 32 ∨ 28 < s.sdr1.toNat % 32 →
          translate s d ea kind = .error (.refuse .htabSize)) ∧
        (s.Quiet → s.TableLegal →
          let slots := pteSlots s.sdr1 (pageOf e ea)
          let hit (x : PA × Bool) : Prop := x ∈ slots ∧ pteMatches (s.pteAt x.1).dw0 (pageOf e ea) x.2 = true
          (∀ x ∈ slots, (∀ k, k < 8 → presentAt s.cfg (x.1.toNat + k) = true) → pteV (s.pteAt x.1).dw0 = true →
            2 ^ (s.cfg.vaBits - 28) ≤ (pteVsid (s.pteAt x.1).dw0).toNat →
            translate s d ea kind = .error (.refuse .vsidTooWide)) ∧
          (s.SlotsLegal (pageOf e ea) →
            (∀ x, hit x → pteReservedZero s.cfg (s.pteAt x.1) = false →
              translate s d ea kind = .error (.refuse .pteReserved)) ∧
            ((∀ x, hit x → pteReservedZero s.cfg (s.pteAt x.1) = true) →
              ∀ x y, hit x → hit y → let p := s.pteAt x.1
                let q := s.pteAt y.1
                pteRpn p ≠ pteRpn q ∨ pteWimg p ≠ pteWimg q ∨ pteN p ≠ pteN q ∨ ptePp p ≠ ptePp q →
                translate s d ea kind = .error (.refuse .pteMultipleMatches)) ∧
            (∀ t, s.TableHolds (pageOf e ea) t → pteL (s.pteAt t) = true →
              translate s d ea kind = .error (.refuse .largePage))))))

/-- A fetch from a no-execute segment raises the exception of R113 whatever the page table, the TLB, SDR1 and the PTE
hold; a fetch through a PTE with G = 1, or with N = 1 where that bit is implemented, raises the same (R113, R118). -/
def Obligations.NoExecuteStopsTheFetch : Prop :=
  ∀ (s : State) (d : Nat) (ea : Word) (e : SlbEntry), msrIR s.msr = true → s.SegmentOf ea e →
    (s.ContextSynced → e.n = true → translate s d ea .fetch = .error (.exc (.instructionStorage .noExecute))) ∧
    (∀ t, s.Quiet → s.cfg.tlbPresent = false → e.l = false → s.TableLegal → s.SlotsLegal (pageOf e ea) →
      s.TableHolds (pageOf e ea) t → pteL (s.pteAt t) = false →
      pteG (s.pteAt t) = true ∨ (s.cfg.pteNImplemented = true ∧ pteN (s.pteAt t) = true) →
      translate s d ea .fetch = .error (.exc (.instructionStorage .noExecute)))

/-- Page fault (R107): with no TLB and no window open, where none of the sixteen slots of the page matches, the access
fails with the page fault of its kind. -/
def Obligations.PageFaultWhenNoSlotMatches : Prop :=
  ∀ (s : State) (d : Nat) (ea : Word) (kind : AccessKind) (e : SlbEntry), s.Quiet → s.cfg.tlbPresent = false →
    s.Translating kind → s.SegmentOf ea e → e.l = false → (kind = .fetch → e.n = false) → s.TableLegal →
    s.SlotsLegal (pageOf e ea) →
    (∀ x ∈ pteSlots s.sdr1 (pageOf e ea), pteMatches (s.mem.readDw x.1.toNat) (pageOf e ea) x.2 = false) →
    translate s d ea kind = .error (.exc (match kind with
      | .fetch => .instructionStorage .pageFault
      | .load => .dataStorage ea .pageFault false
      | .store => .dataStorage ea .pageFault true))

/-- An access of any kind that the (Key, PP) table denies, and that is no fetch stopped before that check, fails with the
protection exception of its kind (R111, R112, R115). -/
def Obligations.DeniedAccessRaisesProtection : Prop :=
  ∀ (s : State) (d : Nat) (ea : Word) (kind : AccessKind) (e : SlbEntry) (t : PA), s.Quiet →
    s.cfg.tlbPresent = false → s.Translating kind → s.SegmentOf ea e → e.l = false → s.TableLegal →
    s.SlotsLegal (pageOf e ea) → s.TableHolds (pageOf e ea) t → pteL (s.pteAt t) = false →
    (kind = .fetch → e.n = false ∧ pteG (s.pteAt t) = false ∧ pteN (s.pteAt t) = false) →
    accessAllowed (if msrPR s.msr = true then e.kp else e.ks) (ptePp (s.pteAt t)) kind = false →
    translate s d ea kind = .error (.exc (match kind with
      | .fetch => .instructionStorage .protection
      | .load => .dataStorage ea .protection false
      | .store => .dataStorage ea .protection true))

/-- A store that the (Key, PP) table denies, `stb` or `std`, takes the data storage exception and changes no byte of memory,
neither R nor C of the PTE among them (R112 to R114, R123, R213). Of a `std` that crosses a page this is its first part
(R66); a second part that is denied is in CrossingStoreFailsWithoutAByteWritten. -/
def Obligations.DeniedStoreChangesNoMemory : Prop :=
  ∀ (s : State) (i : Instr) (rs ra : Reg) (ea : Word) (e : SlbEntry) (t : PA),
    (∃ x, i = .stb rs ra x ∧ ea = s.eaD ra x) ∨ (∃ x, i = .std rs ra x ∧ ea = s.eaDs ra x) →
    s.Quiet → s.cfg.tlbPresent = false → msrDR s.msr = true → s.SegmentOf ea e → e.l = false → s.TableLegal →
    s.SlotsLegal (pageOf e ea) → s.TableHolds (pageOf e ea) t → pteL (s.pteAt t) = false →
    accessAllowed (protectionKey e (msrPR s.msr)) (ptePp (s.pteAt t)) .store = false →
    ∃ u, exec i s = .next u ∧ u.pc = s.cfg.vectorBase.setWidth 64 + 0x300 ∧ u.srr0 = s.pc ∧
      u.dar = ea ∧ u.dsisr = 0x0A000000 ∧ u.mem = s.mem ∧ u.gpr = s.gpr

/-- Referenced and changed bits (R120 to R122). With no TLB, an access to a mapped page sets bit 0x01 of byte t + 14, a
store also bit 0x80 of byte t + 15, and no other byte changes. Through a TLB copy `c` of the page (the one copy, none of
it in the window of removed entries) each bit is written to memory, at the address the copy came from, only where the
copy has it 0, whatever memory has; the copy has it 1 afterwards, and the rest of the TLB is as before. -/
def Obligations.ReferencedAndChangedBits : Prop :=
  (∀ (s : State) (ea : Word) (n : Nat) (kind : AccessKind) (e : SlbEntry) (t : PA), s.Mapped ea kind e t →
    s.mem.wf = true → 1 ≤ n → ea.toNat % 4096 + n ≤ 4096 →
    ∃ u, translateAccess s ea n kind = .ok (bytesFrom (pagePa (s.pteAt t) ea).toNat n) u ∧
      ∀ a, u.mem.read a =
        if a = t.toNat + 14 then s.mem.read a ||| 0x01
        else if a = t.toNat + 15 ∧ kind = .store then s.mem.read a ||| 0x80
        else s.mem.read a) ∧
  (∀ (s : State) (ea : Word) (n : Nat) (kind : AccessKind) (e : SlbEntry) (c : TlbEntry), s.ContextSynced →
    s.cfg.tlbPresent = true → s.Translating kind → s.SegmentOf ea e → s.Permits e c.pte kind →
    s.tlb.filter (fun x => x.vpn == pageOf e ea) = [c] → s.tlbWindow = [] → pteReservedZero s.cfg c.pte = true →
    s.mem.wf = true → 1 ≤ n → ea.toNat % 4096 + n ≤ 4096 →
    presentAt s.cfg (c.addr.toNat + 14) = true → presentAt s.cfg (c.addr.toNat + 15) = true →
    ∃ u c', translateAccess s ea n kind = .ok (bytesFrom (pagePa c.pte ea).toNat n) u ∧
      (∀ a, u.mem.read a =
        if a = c.addr.toNat + 14 ∧ pteR c.pte = false then s.mem.read a ||| 0x01
        else if a = c.addr.toNat + 15 ∧ kind = .store ∧ pteC c.pte = false then s.mem.read a ||| 0x80
        else s.mem.read a) ∧
      u.tlb = s.tlb.map (fun x => if x = c then c' else x) ∧
      c'.vpn = c.vpn ∧ c'.addr = c.addr ∧ c'.pte.dw0 = c.pte.dw0 ∧
      ∀ i, i < 64 → bit c'.pte.dw1 i = (bit c.pte.dw1 i || decide (i = 55) || decide (i = 56 ∧ kind = .store)))

/-- `lbz` and `ld` from a mapped page, the access within the page: the target takes the bytes at the page's physical
address, R is set, nothing else changes (R201, R203, R120). -/
def Obligations.LoadsFromAMappedPage : Prop :=
  ∀ (s : State) (rt ra : Reg) (e : SlbEntry) (t : PA), s.Supported → s.mem.wf = true →
    (∀ x : BitVec 16, let ea := s.eaD ra x
      let pa := (pagePa (s.pteAt t) ea).toNat
      s.Mapped ea .load e t → presentAt s.cfg pa = true →
      ∃ u, exec (.lbz rt ra x) s = .next (u.setGpr rt (BitVec.ofNat 64 (u.mem.read pa).toNat)) ∧
        u.pc = s.pc + 4 ∧ s.SameRegisters u ∧ s.SameWindows u ∧
        ∀ a, u.mem.read a = if a = t.toNat + 14 then s.mem.read a ||| 0x01 else s.mem.read a) ∧
    (∀ x : BitVec 14, let ea := s.eaDs ra x
      let pa := (pagePa (s.pteAt t) ea).toNat
      s.Mapped ea .load e t → ea.toNat % 4096 + 8 ≤ 4096 → (∀ k, k < 8 → presentAt s.cfg (pa + k) = true) →
      ∃ u, exec (.ld rt ra x) s =
          .next (u.setGpr rt (BitVec.ofNat 64 (beValue ((List.range 8).map fun k => u.mem.read (pa + k))))) ∧
        u.pc = s.pc + 4 ∧ s.SameRegisters u ∧ s.SameWindows u ∧
        ∀ a, u.mem.read a = if a = t.toNat + 14 then s.mem.read a ||| 0x01 else s.mem.read a)

/-- `stb` and `std` to a mapped page, the access within the page: the bytes go to the page's physical address, R and C are
set, every other byte and the registers are unchanged (R202, R204, R120, R121). The store opens the window of R127 and
R262 on the doublewords stored to, with the values they hold after R and C are set (`m`), and changes no other; that it
does so wherever the bytes lie is log entry 13, the model's choice. -/
def Obligations.StoresToAMappedPage : Prop :=
  ∀ (s : State) (rs ra : Reg) (e : SlbEntry) (t : PA), s.Supported → s.mem.wf = true →
    (∀ x : BitVec 16, let ea := s.eaD ra x
      let pa := (pagePa (s.pteAt t) ea).toNat
      s.Mapped ea .store e t → presentAt s.cfg pa = true →
      ∃ u m, exec (.stb rs ra x) s = .next u ∧ u.pc = s.pc + 4 ∧ s.SameRegisters u ∧
        (∀ a, m.read a = if a = t.toNat + 14 then s.mem.read a ||| 0x01
          else if a = t.toNat + 15 then s.mem.read a ||| 0x80 else s.mem.read a) ∧
        u.mem.read pa = BitVec.ofNat 8 (s.readGpr rs).toNat ∧
        (∀ a, a ≠ pa → u.mem.read a = m.read a) ∧ s.StoreWindows u [pa] m) ∧
    (∀ x : BitVec 14, let ea := s.eaDs ra x
      let pa := (pagePa (s.pteAt t) ea).toNat
      s.Mapped ea .store e t → ea.toNat % 4096 + 8 ≤ 4096 → (∀ k, k < 8 → presentAt s.cfg (pa + k) = true) →
      ∃ u m, exec (.std rs ra x) s = .next u ∧ u.pc = s.pc + 4 ∧ s.SameRegisters u ∧
        (∀ a, m.read a = if a = t.toNat + 14 then s.mem.read a ||| 0x01
          else if a = t.toNat + 15 then s.mem.read a ||| 0x80 else s.mem.read a) ∧
        (∀ k, k < 8 → u.mem.read (pa + k) = BitVec.ofNat 8 ((s.readGpr rs).toNat / 256 ^ (7 - k))) ∧
        (∀ a, (∀ k, k < 8 → a ≠ pa + k) → u.mem.read a = m.read a) ∧ s.StoreWindows u (bytesFrom pa 8) m)

/-- `ld` and `std` across a page boundary, both pages mapped (R66): the bytes up to the boundary lie in the first page and
the rest at the beginning of the second; R (and for the store C) of both PTEs is set. The load changes no window; the store
opens the window of R127 and R262 on the doublewords stored to, with the values they hold after R and C are set (`m`; log
entry 13 as in StoresToAMappedPage). -/
def Obligations.DoublewordAccessAcrossTwoPages : Prop :=
  ∀ (s : State) (r ra : Reg) (x : BitVec 14) (e e' : SlbEntry) (t t' : PA), let ea := s.eaDs ra x
    let n := 4096 - ea.toNat % 4096
    let ea' := BitVec.ofNat 64 (ea.toNat + n)
    let as := bytesFrom (pagePa (s.pteAt t) ea).toNat n ++ bytesFrom (pagePa (s.pteAt t') ea').toNat (8 - n)
    s.Supported → s.mem.wf = true → n < 8 → (∀ a ∈ as, presentAt s.cfg a = true) →
    (s.Mapped ea .load e t → s.Mapped ea' .load e' t' →
      ∃ u, exec (.ld r ra x) s = .next (u.setGpr r (BitVec.ofNat 64 (beValue (as.map u.mem.read)))) ∧
        u.pc = s.pc + 4 ∧ s.SameRegisters u ∧ s.SameWindows u ∧
        ∀ a, u.mem.read a =
          if a = t.toNat + 14 ∨ a = t'.toNat + 14 then s.mem.read a ||| 0x01 else s.mem.read a) ∧
    (s.Mapped ea .store e t → s.Mapped ea' .store e' t' →
      ∃ u m, exec (.std r ra x) s = .next u ∧ u.pc = s.pc + 4 ∧ s.SameRegisters u ∧
        (∀ a, m.read a =
          if a = t.toNat + 14 ∨ a = t'.toNat + 14 then s.mem.read a ||| 0x01
          else if a = t.toNat + 15 ∨ a = t'.toNat + 15 then s.mem.read a ||| 0x80 else s.mem.read a) ∧
        (as.Nodup → as.map u.mem.read = beBytes 8 (s.readGpr r).toNat) ∧
        (∀ a, a ∉ as → u.mem.read a = m.read a) ∧ s.StoreWindows u as m)

/-- Idempotency (R68): with no TLB and no window open, an access within a page that has translated translates again to
the same addresses, and the second translation changes no byte of memory and no register. -/
def Obligations.TranslatingTwiceChangesNothingMore : Prop :=
  ∀ (s u : State) (ea : Word) (n : Nat) (kind : AccessKind) (as : List Nat), s.Quiet → s.cfg.tlbPresent = false →
    s.mem.wf = true → 1 ≤ n → ea.toNat % 4096 + n ≤ 4096 → translateAccess s ea n kind = .ok as u →
    translateAccess u ea n kind = .ok as { u with draws := u.draws + 2 }

/-- An access that crosses a page and whose second part raises an exception (R66): the exception is taken, no byte of
memory changes but the byte of the first page's R bit, and no register of the instruction; where the first part raises it,
no byte changes at all. -/
def Obligations.CrossingStoreFailsWithoutAByteWritten : Prop :=
  ∀ (s : State) (rs ra : Reg) (ds : BitVec 14), let ea := s.eaDs ra ds
    4096 < ea.toNat % 4096 + 8 →
    (∀ e, translate s s.draws ea .store = .error (.exc e) →
      ∃ t, exec (.std rs ra ds) s = .next t ∧ t.pc = s.cfg.vectorBase.setWidth 64 + vectorOffset e ∧
        t.srr0 = s.pc ∧ t.gpr = s.gpr ∧ t.mem = s.mem) ∧
    (∀ x e, translate s s.draws ea .store = .ok x →
      translate s (s.draws + 1) (BitVec.ofNat 64 (ea.toNat / 4096 * 4096 + 4096)) .store = .error (.exc e) →
      ∃ t, exec (.std rs ra ds) s = .next t ∧ t.pc = s.cfg.vectorBase.setWidth 64 + vectorOffset e ∧
        t.srr0 = s.pc ∧ t.gpr = s.gpr ∧
        ∀ a, (∀ f, x.found = some f → a ≠ f.addr.toNat + 14) → t.mem.read a = s.mem.read a)

/-- The frame of the four data-access instructions, in every mode, window and translation: no register changes but the
target of a load that completes and, where an exception is taken, the MSR, SRR0, SRR1, DAR and DSISR; no byte of memory
changes but the bytes stored to (`bytesOf`, R66) and the bytes of the R and C bits (`historyBytes`, R122). -/
def Obligations.DataAccessFrame : Prop :=
  ∀ (s t : State) (r ra : Reg),
    (∀ (i : Instr) (ea : Word) (n : Nat),
      (∃ d, i = .lbz r ra d ∧ ea = s.eaD ra d ∧ n = 1) ∨ (∃ d, i = .ld r ra d ∧ ea = s.eaDs ra d ∧ n = 8) →
      exec i s = .next t →
      t.slb = s.slb ∧ t.sdr1 = s.sdr1 ∧ t.cfg = s.cfg ∧
      (∀ q, q ≠ r → t.readGpr q = s.readGpr q) ∧
      (t.pc = s.pc + 4 ∧ t.msr = s.msr ∧ t.srr0 = s.srr0 ∧ t.srr1 = s.srr1 ∧ t.dar = s.dar ∧ t.dsisr = s.dsisr ∨
        t.gpr = s.gpr ∧ t.srr0 = s.pc ∧ ∃ e, t.pc = s.cfg.vectorBase.setWidth 64 + vectorOffset e) ∧
      ∀ a, a ∉ s.historyBytes ea n .load → t.mem.read a = s.mem.read a) ∧
    (∀ (i : Instr) (ea : Word) (n : Nat),
      (∃ d, i = .stb r ra d ∧ ea = s.eaD ra d ∧ n = 1) ∨ (∃ d, i = .std r ra d ∧ ea = s.eaDs ra d ∧ n = 8) →
      exec i s = .next t →
      t.slb = s.slb ∧ t.sdr1 = s.sdr1 ∧ t.cfg = s.cfg ∧ t.gpr = s.gpr ∧
      (t.pc = s.pc + 4 ∧ t.msr = s.msr ∧ t.srr0 = s.srr0 ∧ t.srr1 = s.srr1 ∧ t.dar = s.dar ∧ t.dsisr = s.dsisr ∨
        t.srr0 = s.pc ∧ ∃ e, t.pc = s.cfg.vectorBase.setWidth 64 + vectorOffset e) ∧
      ∀ a, a ∉ s.historyBytes ea n .store → a ∉ s.bytesOf ea n .store → t.mem.read a = s.mem.read a)

/-! The TLB and the windows -/

/-- A TLB copy is used before the page table (R86 to R88): with one copy of the page in the TLB and none in the window,
the translation goes through that copy, whatever SDR1 and memory hold. -/
def Obligations.TlbCopyIsUsedBeforeThePageTable : Prop :=
  ∀ (s : State) (d : Nat) (vpn : VPN) (ea : Word) (kind : AccessKind) (c : TlbEntry), s.cfg.tlbPresent = true →
    s.tlb.filter (fun e => e.vpn == vpn) = [c] → s.tlbWindow = [] → pteReservedZero s.cfg c.pte = true →
    ∀ (sdr1 : Word) (m : Memory),
      pageLookup { s with sdr1 := sdr1, mem := m } d vpn ea kind = .ok ⟨vpn, c.pte, c.addr, some c⟩

/-- What enters the TLB but by marking a copy is a PTE that memory holds and the search finds for its page at that moment
(R41 (a), R87), inside the windows too: the reload agent adds only such, under the present SDR1, and changes nothing but
the TLB; an access that has searched memory adds at most what it found, and only such, under the SDR1 it used (R261; that
this may be the old one is log entry 17). That neither adds anything where that search is undefined or meets absent
memory is log entry 32, the model's choice. With TLB_PRESENT = false neither does anything (R40). -/
def Obligations.ReloadAgentCopiesTableEntries : Prop :=
  (∀ s : State,
    (∀ e ∈ s.tlbAgent.tlb, e ∈ s.tlb ∨ searchTable s.cfg s.sdr1 s.mem.readDw e.vpn = .ok (some (e.pte, e.addr))) ∧
    { s.tlbAgent with tlb := s.tlb, draws := s.draws } = s ∧ (s.cfg.tlbPresent = false → s.tlbAgent = s)) ∧
  (∀ (s : State) (d : Nat) (x : Found) (store : Bool), x.copy = none →
    (∀ e ∈ (s.tlbAfter d x store).tlb, e ∈ s.tlb ∨
      e = ⟨x.vpn, x.pte, x.addr⟩ ∧ searchTable s.cfg (seenSdr1 s d) s.mem.readDw e.vpn = .ok (some (e.pte, e.addr))) ∧
    { s.tlbAfter d x store with tlb := s.tlb } = s ∧ (s.cfg.tlbPresent = false → s.tlbAfter d x store = s))

/-- Inside the windows of R260 to R262 an access sees, of each thing that changed, its present value or a recorded earlier
one, and nothing else; outside them the present one. -/
def Obligations.AccessesSeeOldOrNewValues : Prop :=
  ∀ (s : State) (d : Nat),
    (∀ i e, (seenSlb s d)[i]? = some e → s.slb[i]? = some e ∨ (i, e) ∈ s.slbWindow) ∧
    (seenSdr1 s d = s.sdr1 ∨ seenSdr1 s d ∈ s.sdr1Window) ∧
    (∀ a, seenDw s d a = s.mem.readDw a ∨ (a, seenDw s d a) ∈ s.pteWindow) ∧
    (s.ContextSynced → seenSlb s d = s.slb ∧ seenSdr1 s d = s.sdr1 ∧ seenPr s d = msrPR s.msr ∧
      ∀ kind, seenEnabled s d kind = true ↔ s.Translating kind)

/-! Exceptions -/

/-- The MSR at exception entry, bit by bit (R221, R222): IR, DR, PR, EE, RI, POW, FP, FE0, SE, BE, FE1 and PMM become 0,
SF 1, LE the old ILE; ME, HV and every other bit are unchanged (for the bits R222 does not name: log entry 18). -/
def Obligations.EntryMsrBits : Prop :=
  ∀ (s : State) (e : Exc) (i : Nat), i < 64 → bit (s.takeException e).msr i =
    if i ∈ [58, 59, 49, 48, 62, 45, 50, 52, 53, 54, 55, 61] then false
    else if i = 0 then true else if i = 63 then bit s.msr 47 else bit s.msr i

/-- What exception entry saves and where it goes (R223 to R226): SRR0 is the pc of the raising instruction; SRR1 the old
MSR with the status in bits 33:36 and 42:47; pc the vector. The windows of R260 and R261 close (R220), and general
registers, SDR1, the SLB, the TLB and memory are unchanged. -/
def Obligations.EntrySavesAndVectors : Prop :=
  ∀ (s : State) (e : Exc), let t := s.takeException e
    t.srr0 = s.pc ∧
    (∀ i, i < 64 → bit t.srr1 i =
      if (33 ≤ i ∧ i ≤ 36) ∨ (42 ≤ i ∧ i ≤ 47) then
        decide ((e = .instructionStorage .pageFault ∧ i = 33) ∨ (e = .instructionStorage .noExecute ∧ i = 35) ∨
          (e = .instructionStorage .protection ∧ i = 36) ∨ (e = .programPrivileged ∧ i = 45))
      else bit s.msr i) ∧
    t.pc = s.cfg.vectorBase.setWidth 64 + (match e with
      | .dataStorage _ _ _ => 0x300 | .dataSegment _ => 0x380 | .instructionStorage _ => 0x400
      | .instructionSegment => 0x480 | .programPrivileged => 0x700) ∧
    t.ContextSynced ∧ t.gpr = s.gpr ∧ t.sdr1 = s.sdr1 ∧ t.slb = s.slb ∧ t.tlb = s.tlb ∧ t.mem = s.mem ∧ t.cfg = s.cfg

/-- DAR and DSISR at entry (R212 to R215, R217): a data storage exception writes both, DSISR as a whole; a data segment
exception writes DAR (its DSISR is a free value, U10); the others write neither. -/
def Obligations.EntryFaultRegisters : Prop :=
  ∀ (s : State),
    (∀ ea cause store, let t := s.takeException (.dataStorage ea cause store)
      t.dar = ea ∧ ∀ i, i < 32 → bit t.dsisr i =
        decide ((i = 1 ∧ cause = .pageFault) ∨ (i = 4 ∧ cause = .protection) ∨ (i = 6 ∧ store = true))) ∧
    (∀ ea, (s.takeException (.dataSegment ea)).dar = ea) ∧
    (∀ e, (∃ c, e = .instructionStorage c) ∨ e = .instructionSegment ∨ e = .programPrivileged →
      (s.takeException e).dar = s.dar ∧ (s.takeException e).dsisr = s.dsisr)

/-- A privileged instruction in user mode changes nothing but by taking Program(privileged) (R148, R217); `tlbia` where
the implementation has it (R152). -/
def Obligations.PrivilegedInstructionTrapsInUserMode : Prop :=
  ∀ (s : State) (i : Instr), i.privileged = true → msrPR s.msr = true →
    (i = .tlbia → s.cfg.tlbiaImplemented = true) →
    exec i s = .next (s.takeException .programPrivileged)

/-- `rfid` in supervisor mode (R184): the MSR bit by bit, pc from SRR0 with its two low bits dropped, the windows of R260
and R261 closed, nothing else changed; in user mode it traps.
That a write of SF = 0 or LE = 1 is carried out, and the next step refused, is log entry 9, the model's choice: U20
and D18 refuse the write. -/
def Obligations.RfidRestores : Prop :=
  ∀ s : State,
    (msrPR s.msr = true → exec .rfid s = .next (s.takeException .programPrivileged)) ∧
    (msrPR s.msr = false → ∃ t, exec .rfid s = .next t ∧ t.pc.toNat = s.srr0.toNat / 4 * 4 ∧ t.ContextSynced ∧
      { t with msr := s.msr, pc := s.pc, msrWindow := s.msrWindow, slbWindow := s.slbWindow,
               sdr1Window := s.sdr1Window } = s ∧
      ∀ i, i < 64 → bit t.msr i =
        if i = 3 ∨ (33 ≤ i ∧ i ≤ 36) ∨ (42 ≤ i ∧ i ≤ 47) then bit s.msr i
        else if i ∈ [48, 58, 59] then
          bit s.srr1 i || (decide (s.cfg.mtmsrdVariant = .v2) && bit s.srr1 49)
        else bit s.srr1 i)

/-- Entry and return (R224, R230): after an exception is taken and `rfid` executed with SRR0 and SRR1 as entry left them,
execution is back at the raising instruction under its MSR, but for POW, which entry has cleared.
That MSR bits R222 does not name, which rfid does not copy, come back rests on entry leaving them (log entry 18, the
model's reading); that rfid completes whatever SF and LE it restores, on log entry 9. -/
def Obligations.RfidReturnsToTheInterruptedContext : Prop :=
  ∀ (s : State) (e : Exc), s.pc.toNat % 4 = 0 → s.UserTranslated →
    ∃ t, exec .rfid (s.takeException e) = .next t ∧ t.pc = s.pc ∧ t.gpr = s.gpr ∧ t.mem = s.mem ∧ t.slb = s.slb ∧
      ∀ i, i < 64 → i ≠ 45 → bit t.msr i = bit s.msr i

/-! Instructions of files 40 and 41 in supervisor mode -/

/-- `mtmsrd` (R180), bit by bit, in both variants and for both values of L; nothing else changes but pc and the window of
R260, in which a bit of IR, DR, PR is open if it was or has changed; in user mode it traps.
That a write of SF = 0 or LE = 1 is carried out, and the next step refused, is log entry 9, the model's choice: U20
and D18 refuse the write. -/
def Obligations.MtmsrdWritesMsr : Prop :=
  ∀ (s : State) (rs : Reg) (l : BitVec 1), let v := s.readGpr rs
    (msrPR s.msr = true → exec (.mtmsrd rs l) s = .next (s.takeException .programPrivileged)) ∧
    (msrPR s.msr = false → ∃ t, exec (.mtmsrd rs l) s = .next t ∧ t.pc = s.pc + 4 ∧
      { t with msr := s.msr, msrWindow := s.msrWindow, pc := s.pc } = s ∧
      (∀ i, i < 64 → bit t.msr i =
        if l = 1 then (if i = 48 ∨ i = 62 then bit v i else bit s.msr i)
        else if s.cfg.mtmsrdVariant = .plain then bit v i
        else if i = 3 ∨ i = 51 then bit s.msr i
        else if i ∈ [48, 58, 59] then bit v i || bit v 49
        else bit v i) ∧
      t.msrWindow.ir = (s.msrWindow.ir || bit t.msr 58 != bit s.msr 58) ∧
      t.msrWindow.dr = (s.msrWindow.dr || bit t.msr 59 != bit s.msr 59) ∧
      t.msrWindow.pr = (s.msrWindow.pr || bit t.msr 49 != bit s.msr 49))

/-- `mfmsr` (R181) reads all 64 bits; nothing else changes but pc; in user mode it traps. -/
def Obligations.MfmsrReadsMsr : Prop :=
  ∀ (s : State) (rt : Reg),
    (msrPR s.msr = false → exec (.mfmsr rt) s = .next ({ s with pc := s.pc + 4 }.setGpr rt s.msr)) ∧
    (msrPR s.msr = true → exec (.mfmsr rt) s = .next (s.takeException .programPrivileged))

/-- `mtspr` (R182) for each of the five registers: only that register changes, and pc; SDR1 takes any value and its old
one stays usable until the window of R261 closes; another number is refused (R151). -/
def Obligations.MtsprWritesTheNamedRegister : Prop :=
  ∀ (s : State) (rs : Reg), msrPR s.msr = false → let v := s.readGpr rs
    exec (.mtspr 25 rs) s = .next { s with sdr1 := v, sdr1Window := s.sdr1 :: s.sdr1Window, pc := s.pc + 4 } ∧
    exec (.mtspr 26 rs) s = .next { s with srr0 := v, pc := s.pc + 4 } ∧
    exec (.mtspr 27 rs) s = .next { s with srr1 := v, pc := s.pc + 4 } ∧
    exec (.mtspr 19 rs) s = .next { s with dar := v, pc := s.pc + 4 } ∧
    exec (.mtspr 18 rs) s = .next { s with dsisr := BitVec.ofNat 32 v.toNat, pc := s.pc + 4 } ∧
    ∀ n, n ∉ sprNumbers → exec (.mtspr n rs) s = .refused (.sprOutsideSpec n)

/-- `mfspr` (R183) for each of the five registers, DSISR zero-extended; only the target changes, and pc; another number is
refused (R151); in user mode each traps. -/
def Obligations.MfsprReadsTheNamedRegister : Prop :=
  ∀ (s : State) (rt : Reg), let u := { s with pc := s.pc + 4 }
    (msrPR s.msr = true → ∀ n ∈ sprNumbers, exec (.mfspr rt n) s = .next (s.takeException .programPrivileged)) ∧
    (msrPR s.msr = false → exec (.mfspr rt 25) s = .next (u.setGpr rt s.sdr1) ∧ exec (.mfspr rt 26) s = .next (u.setGpr rt s.srr0) ∧
    exec (.mfspr rt 27) s = .next (u.setGpr rt s.srr1) ∧ exec (.mfspr rt 19) s = .next (u.setGpr rt s.dar) ∧
    exec (.mfspr rt 18) s = .next (u.setGpr rt (BitVec.ofNat 64 s.dsisr.toNat)) ∧
    ∀ n, n ∉ sprNumbers → exec (.mfspr rt n) s = .refused (.sprOutsideSpec n))

/-- `slbmte` (R160): entry `i` of the SLB is replaced whole by the fields of the two images; nothing else changes but pc,
and the old entry stays usable until the window of R261 closes. -/
def Obligations.SlbmteWritesTheEntry : Prop :=
  ∀ (s : State) (rs rb : Reg), let a := (s.readGpr rs).toNat
    let b := (s.readGpr rb).toNat
    msrPR s.msr = false → b % 4096 < s.slb.length → a % 2 ^ 7 = 0 → b / 2 ^ 12 % 2 ^ 15 = 0 →
    ∃ e : SlbEntry,
      exec (.slbmte rs rb) s =
        .next { s with slb := s.slb.set (b % 4096) e,
                       slbWindow := (b % 4096, s.slb.getD (b % 4096) SlbEntry.reset) :: s.slbWindow,
                       pc := s.pc + 4 } ∧
      e.esid.toNat = b / 2 ^ 28 ∧ e.v = b.testBit 27 ∧ e.vsid.toNat = a / 2 ^ 12 ∧ e.ks = a.testBit 11 ∧
      e.kp = a.testBit 10 ∧ e.n = a.testBit 9 ∧ e.l = a.testBit 8 ∧ e.c = a.testBit 7

/-- `slbmfev` and `slbmfee` (R161, R162): the target takes the image of a valid entry; for an invalid one a value of which
`slbmfee` fixes bit 36 = 0 alone; nothing else changes but pc (and the model's count of draws).
That operand bits 0:51, which must be 0 (R161), are ignored is log entry 29, the model's reading. -/
def Obligations.SlbmfevAndSlbmfeeReadTheEntry : Prop :=
  ∀ (s : State) (rt rb : Reg) (e : SlbEntry), msrPR s.msr = false →
    s.slb[(s.readGpr rb).toNat % 4096]? = some e → let u := { s with draws := s.draws + 1, pc := s.pc + 4 }
    (∃ v, exec (.slbmfev rt rb) s = .next (u.setGpr rt v) ∧
      (e.v = true → v.toNat = e.vsid.toNat * 2 ^ 12 + e.ks.toNat * 2 ^ 11 + e.kp.toNat * 2 ^ 10 + e.n.toNat * 2 ^ 9 +
        e.l.toNat * 2 ^ 8 + e.c.toNat * 2 ^ 7)) ∧
    (∃ v, exec (.slbmfee rt rb) s = .next (u.setGpr rt v) ∧ v.toNat.testBit 27 = e.v ∧
      (e.v = true → v.toNat = e.esid.toNat * 2 ^ 28 + 2 ^ 27))

/-- What `slbmte` wrote with V = 1, `slbmfev` and `slbmfee` read back: the RS image, and the RB image with the index field
0 (R160 to R162).
That operand bits 0:51, which must be 0 (R161), are ignored is log entry 29, the model's reading. -/
def Obligations.SlbImagesReadBack : Prop :=
  ∀ (s t : State) (rs rb rt rb' : Reg), msrPR s.msr = false → exec (.slbmte rs rb) s = .next t →
    (s.readGpr rb).toNat.testBit 27 = true → (s.readGpr rb').toNat % 4096 = (s.readGpr rb).toNat % 4096 →
    (∃ u, exec (.slbmfev rt rb') t = .next u ∧ u.readGpr rt = s.readGpr rs) ∧
    (∃ u, exec (.slbmfee rt rb') t = .next u ∧ (u.readGpr rt).toNat = (s.readGpr rb).toNat / 2 ^ 12 * 2 ^ 12)

/-- `slbie` (R163): every valid entry with the ESID of the operand loses its V bit and nothing else; no other entry
changes, nothing else changes but pc, and exactly the old contents of the entries changed enter the window of R261. -/
def Obligations.SlbieInvalidatesTheEsid : Prop :=
  ∀ (s : State) (rb : Reg), let b := (s.readGpr rb).toNat
    msrPR s.msr = false → b % 2 ^ 27 = 0 →
    (∀ e ∈ s.slb, e.v = true → e.esid.toNat = b / 2 ^ 28 → e.c = b.testBit 27) →
    ∃ t, exec (.slbie rb) s = .next t ∧ t.pc = s.pc + 4 ∧
      t.slb = s.slb.map (fun e => if e.v = true ∧ e.esid.toNat = b / 2 ^ 28 then { e with v := false } else e) ∧
      (∀ i e, (i, e) ∈ t.slbWindow ↔
        (s.slb[i]? = some e ∧ e.v = true ∧ e.esid.toNat = b / 2 ^ 28) ∨ (i, e) ∈ s.slbWindow) ∧
      { t with slb := s.slb, slbWindow := s.slbWindow, pc := s.pc } = s

/-- `slbia` (R164): every entry but entry 0 loses its V bit and nothing else, entry 0 too where SLBIA_KEEPS_ENTRY0 is
false (P8); nothing else changes but pc, and exactly the old contents of the entries that lose a V of 1 enter the window of
R261; in user mode it traps. -/
def Obligations.SlbiaInvalidatesAllButEntryZero : Prop :=
  ∀ s : State,
    (msrPR s.msr = true → exec .slbia s = .next (s.takeException .programPrivileged)) ∧
    (msrPR s.msr = false → ∃ t, exec .slbia s = .next t ∧ t.pc = s.pc + 4 ∧ t.slb.length = s.slb.length ∧
      (∀ i e, s.slb[i]? = some e →
        t.slb[i]? = some (if i = 0 ∧ s.cfg.slbiaKeepsEntry0 = true then e else { e with v := false })) ∧
      (∀ i e, (i, e) ∈ t.slbWindow ↔
        (s.slb[i]? = some e ∧ e.v = true ∧ ¬ (i = 0 ∧ s.cfg.slbiaKeepsEntry0 = true)) ∨ (i, e) ∈ s.slbWindow) ∧
      { t with slb := s.slb, slbWindow := s.slbWindow, pc := s.pc } = s)

/-- The operands of R160 to R163 that the spec calls undefined are refused by name (U3): an index at or above
SLB_ENTRIES, a must-be-zero field that is not zero, a class bit that differs from the entry's. -/
def Obligations.UndefinedSlbOperandsAreRefused : Prop :=
  ∀ (s : State) (r rb : Reg), let a := (s.readGpr r).toNat
    let b := (s.readGpr rb).toNat
    msrPR s.msr = false →
    (s.slb.length ≤ b % 4096 →
      exec (.slbmte r rb) s = .refused .slbOperand ∧ exec (.slbmfev r rb) s = .refused .slbOperand ∧
      exec (.slbmfee r rb) s = .refused .slbOperand) ∧
    (a % 2 ^ 7 ≠ 0 ∨ b / 2 ^ 12 % 2 ^ 15 ≠ 0 → exec (.slbmte r rb) s = .refused .slbOperand) ∧
    (b % 2 ^ 27 ≠ 0 ∨ (∃ e ∈ s.slb, e.v = true ∧ e.esid.toNat = b / 2 ^ 28 ∧ e.c ≠ b.testBit 27) →
      exec (.slbie rb) s = .refused .slbOperand)

/-- `tlbie` with L = 0 (R165): every entry whose VPN ends in the operand's 36 bits leaves the TLB, no entry is added, and
exactly the entries removed join those that stay usable in the window of R262; without a TLB nothing changes; nothing else
changes but pc (and the model's count of draws). With L = 1 it is refused (R124). That operand bits 0:15 and 52:63, which
must be 0, are ignored is log entry 29. -/
def Obligations.TlbieRemovesThePage : Prop :=
  ∀ (s : State) (rb : Reg), msrPR s.msr = false → let b := (s.readGpr rb).toNat
    (∃ t, exec (.tlbie rb 0) s = .next t ∧ t.pc = s.pc + 4 ∧ (∀ e ∈ t.tlb, e ∈ s.tlb) ∧
      (s.cfg.tlbPresent = true → s.cfg.tlbieOperand = .layoutR165 →
        ∀ e ∈ t.tlb, e.vpn.toNat % 2 ^ 36 ≠ b / 2 ^ 12 % 2 ^ 36) ∧
      (∃ removed, t.tlbWindow = removed ++ s.tlbWindow ∧ (removed ++ t.tlb).Perm s.tlb) ∧
      (s.cfg.tlbPresent = false → t = { s with pc := s.pc + 4 }) ∧
      { t with tlb := s.tlb, tlbWindow := s.tlbWindow, draws := s.draws, pc := s.pc } = s) ∧
    exec (.tlbie rb 1) s = .refused .largePage

/-- `tlbia` (R166) empties the TLB where there is one, and with it the window of removed entries (log entry 15, the model's
choice), and is refused where the implementation lacks it (R152); `tlbsync` (R167) changes nothing but pc. -/
def Obligations.TlbiaEmptiesTheTlbAndTlbsyncChangesOnlyPc : Prop :=
  ∀ s : State,
    (msrPR s.msr = false → s.cfg.tlbiaImplemented = true →
      exec .tlbia s = .next (if s.cfg.tlbPresent = true then { s with tlb := [], tlbWindow := [], pc := s.pc + 4 }
        else { s with pc := s.pc + 4 })) ∧
    (s.cfg.tlbiaImplemented = false → exec .tlbia s = .refused .tlbiaAbsent) ∧
    (msrPR s.msr = false → exec .tlbsync s = .next { s with pc := s.pc + 4 })

/-- `sync`, `lwsync`, `ptesync` and `isync` (R185, R186), in either mode of privilege: no register and no memory byte
changes but pc; `sync` and `ptesync` close the page-table-store window (and `ptesync` that on removed TLB entries: log
entry 15), `isync` the context windows; L = 3 is refused. -/
def Obligations.SyncAndIsyncCloseWindows : Prop :=
  ∀ s : State,
    exec (.sync 0) s = .next { s with pteWindow := [], pc := s.pc + 4 } ∧
    exec (.sync 1) s = .next { s with pc := s.pc + 4 } ∧
    exec (.sync 2) s = .next { s with pteWindow := [], tlbWindow := [], pc := s.pc + 4 } ∧
    exec (.sync 3) s = .refused .syncReserved ∧
    exec .isync s = .next { s with msrWindow := ⟨false, false, false⟩, slbWindow := [], sdr1Window := [], pc := s.pc + 4 }

/-! The whole machine -/

/-- Every step keeps the invariant of Safety.lean: parameters in range, memory canonical and at present addresses only,
pc a multiple of 4, an SLB with entries, no TLB state without a TLB, windows that record what exists. -/
def Obligations.StepKeepsTheInvariant : Prop := ∀ s t : State, s.Inv → step s = .next t → t.Inv

/-- Every step keeps: in variant v2, user mode has instruction and data translation on, and EE (R180, R184). -/
def Obligations.StepKeepsUserModeTranslated : Prop :=
  ∀ s t : State, s.UserTranslated → step s = .next t → t.UserTranslated

/-- The state after reset: real addressing mode, supervisor, SF = 1, LE = 0, pc = VECTOR_BASE + 0x100 (R56, R250), and it
meets both invariants. -/
def Obligations.ResetState : Prop :=
  msrIR State.reset.msr = false ∧ msrDR State.reset.msr = false ∧ msrPR State.reset.msr = false ∧
  State.reset.Supported ∧ State.reset.pc = State.reset.cfg.vectorBase.setWidth 64 + 0x100 ∧
  State.reset.Inv ∧ State.reset.UserTranslated ∧ State.reset.Quiet

/-- A step from user mode changes neither SDR1 nor the SLB nor the parameters; either it changes none of the MSR and the
exception registers, or it is the entry of an exception, to a vector, in supervisor mode and real addressing mode, with
the user's pc and MSR[PR] = 1 saved (R148, R221 to R225, R232). -/
def Obligations.UserModeStepIsContained : Prop :=
  ∀ s t : State, msrPR s.msr = true → step s = .next t →
    t.sdr1 = s.sdr1 ∧ t.slb = s.slb ∧ t.cfg = s.cfg ∧
    ((t.msr = s.msr ∧ t.srr0 = s.srr0 ∧ t.srr1 = s.srr1 ∧ t.dar = s.dar ∧ t.dsisr = s.dsisr) ∨
      (msrPR t.msr = false ∧ msrIR t.msr = false ∧ msrDR t.msr = false ∧ t.srr0 = s.pc ∧ msrPR t.srr1 = true ∧
        t.gpr = s.gpr ∧ ∃ e, t.pc = s.cfg.vectorBase.setWidth 64 + vectorOffset e))

/-- Which instructions change system state (R26, R27, R37): the SLB only `slbmte`, `slbie`, `slbia`; SDR1 only `mtspr 25`;
the MSR only `mtmsrd`, `rfid` and the entry of an exception; the number of SLB entries and the parameters none. -/
def Obligations.OnlyTheseInstructionsChangeSystemState : Prop :=
  ∀ (s t : State) (i : Instr), exec i s = .next t →
    (t.slb ≠ s.slb → msrPR s.msr = false ∧ ((∃ rs rb, i = .slbmte rs rb) ∨ (∃ rb, i = .slbie rb) ∨ i = .slbia)) ∧
    (t.sdr1 ≠ s.sdr1 → msrPR s.msr = false ∧ ∃ rs, i = .mtspr 25 rs) ∧
    (t.msr ≠ s.msr → (msrPR s.msr = false ∧ ((∃ rs l, i = .mtmsrd rs l) ∨ i = .rfid)) ∨
      (t.srr0 = s.pc ∧ msrIR t.msr = false ∧ msrDR t.msr = false ∧ msrPR t.msr = false)) ∧
    t.slb.length = s.slb.length ∧ t.cfg = s.cfg

/-- Machine check (R64, R76, R216). A load or a store in real addressing mode whose byte `k` is the first that is not
present ends the run with that byte's address. An access of any kind for which the page-table search (with no TLB and no
window) comes to a slot whose doubleword 0, or, where that matches, doubleword 1, has its first absent byte at `b + k` ends
with that address (R105); so does each of the four data-access instructions. The state left has no byte of memory and no
register changed.
That an access at the top of the 62-bit space goes on at physical address 0 (R66, R73) is log entry 25, the model's
choice; that a wide VSID in a slot (R85) is refused first is log entry 21, the model's reading. -/
def Obligations.AbsentMemoryIsAMachineCheck : Prop :=
  (∀ (s : State) (r ra : Reg) (k : Nat), s.RealData →
    (∀ d : BitVec 16, let ea := s.eaD ra d
      presentAt s.cfg (realByte ea 0) = false → ∀ i, i = .lbz r ra d ∨ i = .stb r ra d →
        exec i s = .fault (.machineCheck (realByte ea 0) { s with draws := s.draws + 2 })) ∧
    (∀ ds : BitVec 14, let ea := s.eaDs ra ds
      k < 8 → presentAt s.cfg (realByte ea k) = false →
      (∀ j, j < k → presentAt s.cfg (realByte ea j) = true) → ∀ i, i = .ld r ra ds ∨ i = .std r ra ds →
        exec i s = .fault (.machineCheck (realByte ea k) { s with draws := s.draws + 2 }))) ∧
  (∀ (s : State) (ea : Word) (kind : AccessKind) (e : SlbEntry) (before after : List (PA × Bool)) (x : PA × Bool)
      (b k : Nat), let vpn := pageOf e ea
    s.Quiet → s.cfg.tlbPresent = false → s.Translating kind → s.SegmentOf ea e → e.l = false →
    (kind = .fetch → e.n = false) → s.TableLegal → pteSlots s.sdr1 vpn = before ++ x :: after →
    (∀ y ∈ pteSlots s.sdr1 vpn, pteV (s.mem.readDw y.1.toNat) = true →
      vsidFits s.cfg (pteVsid (s.mem.readDw y.1.toNat)) = true) →
    (∀ y ∈ before, (∀ j, j < 8 → presentAt s.cfg (y.1.toNat + j) = true) ∧
      pteMatches (s.mem.readDw y.1.toNat) vpn y.2 = false) →
    b = x.1.toNat ∨ (b = x.1.toNat + 8 ∧ (∀ j, j < 8 → presentAt s.cfg (x.1.toNat + j) = true) ∧
      pteMatches (s.mem.readDw x.1.toNat) vpn x.2 = true) →
    k < 8 → presentAt s.cfg (b + k) = false → (∀ j, j < k → presentAt s.cfg (b + j) = true) →
    (∀ d, translate s d ea kind = .error (.machineCheck (b + k))) ∧
    ∀ (i : Instr) (r ra : Reg),
      (kind = .load ∧ ((∃ o, i = .lbz r ra o ∧ ea = s.eaD ra o) ∨ (∃ o, i = .ld r ra o ∧ ea = s.eaDs ra o))) ∨
        (kind = .store ∧ ((∃ o, i = .stb r ra o ∧ ea = s.eaD ra o) ∨ (∃ o, i = .std r ra o ∧ ea = s.eaDs ra o))) →
      exec i s = .fault (.machineCheck (b + k) { s with draws := s.draws + 2 }))

/-- An access that raises a machine check at the physical access has already set the referenced bit, and for a store the
changed bit (R123): each of the four instructions within a page, whose byte `k` is the first that is not present, and `ld`
and `std` across two mapped pages, where both PTEs have their bits set (that the bytes are checked in ascending order over
both parts is log entry 19, the model's reading). -/
def Obligations.MachineCheckComesAfterTheHistoryBits : Prop :=
  (∀ (s : State) (r ra : Reg) (ea : Word) (n k : Nat) (e : SlbEntry) (t : PA),
    let pa := (pagePa (s.pteAt t) ea).toNat
    s.mem.wf = true → ea.toNat % 4096 + n ≤ 4096 → k < n → presentAt s.cfg (pa + k) = false →
    (∀ j, j < k → presentAt s.cfg (pa + j) = true) →
    (∀ i, (∃ x, i = .lbz r ra x ∧ ea = s.eaD ra x ∧ n = 1) ∨ (∃ x, i = .ld r ra x ∧ ea = s.eaDs ra x ∧ n = 8) →
      s.Mapped ea .load e t →
      ∃ u, exec i s = .fault (.machineCheck (pa + k) u) ∧
        u.mem.read (t.toNat + 14) = s.mem.read (t.toNat + 14) ||| 0x01) ∧
    (∀ i, (∃ x, i = .stb r ra x ∧ ea = s.eaD ra x ∧ n = 1) ∨ (∃ x, i = .std r ra x ∧ ea = s.eaDs ra x ∧ n = 8) →
      s.Mapped ea .store e t →
      ∃ u, exec i s = .fault (.machineCheck (pa + k) u) ∧
        u.mem.read (t.toNat + 14) = s.mem.read (t.toNat + 14) ||| 0x01 ∧
        u.mem.read (t.toNat + 15) = s.mem.read (t.toNat + 15) ||| 0x80)) ∧
  (∀ (s : State) (r ra : Reg) (x : BitVec 14) (e e' : SlbEntry) (t t' : PA) (a : Nat), let ea := s.eaDs ra x
    let n := 4096 - ea.toNat % 4096
    let ea' := BitVec.ofNat 64 (ea.toNat + n)
    let as := bytesFrom (pagePa (s.pteAt t) ea).toNat n ++ bytesFrom (pagePa (s.pteAt t') ea').toNat (8 - n)
    s.mem.wf = true → n < 8 → firstAbsent s.cfg as = some a →
    (s.Mapped ea .load e t → s.Mapped ea' .load e' t' →
      ∃ u, exec (.ld r ra x) s = .fault (.machineCheck a u) ∧
        ∀ q, q = t ∨ q = t' → u.mem.read (q.toNat + 14) = s.mem.read (q.toNat + 14) ||| 0x01) ∧
    (s.Mapped ea .store e t → s.Mapped ea' .store e' t' →
      ∃ u, exec (.std r ra x) s = .fault (.machineCheck a u) ∧
        ∀ q, q = t ∨ q = t' → u.mem.read (q.toNat + 14) = s.mem.read (q.toNat + 14) ||| 0x01 ∧
          u.mem.read (q.toNat + 15) = s.mem.read (q.toNat + 15) ||| 0x80))
end

