-- ==== Sys2Proof/Laws/Bits.lean ====
section
/-! SUPPORT. Bits of masks and of masked words, and the bytes of a word: what later proofs cite instead of unfolding a
mask (spec/00_scope.md R7, R8; spec/20_memory.md R62, R64). -/

namespace Sys2Proof

theorem bit_eq_getLsbD {w : Nat} (v : BitVec w) (i : Nat) : bit v i = (decide (i < w) && v.getLsbD (w - 1 - i)) := rfl

/-- Two words with the same 64 bits are equal. -/
theorem eq_of_bit_eq (v w : Word) (h : ∀ i, i < 64 → bit v i = bit w i) : v = w :=
  BitVec.eq_of_getMsbD_eq fun i hi => h i hi

theorem bit_of_ge {w : Nat} (v : BitVec w) (i : Nat) (h : w ≤ i) : bit v i = false := by
  simp [bit_eq_getLsbD, Nat.not_lt.mpr h]

@[simp] theorem bit_and (v w : Word) (i : Nat) : bit (v &&& w) i = (bit v i && bit w i) := by
  simp [bit]

@[simp] theorem bit_or (v w : Word) (i : Nat) : bit (v ||| w) i = (bit v i || bit w i) := by
  simp [bit]

theorem bit_not (v : Word) (i : Nat) (h : i < 64) : bit (~~~v) i = !bit v i := by
  simp [bit, h]

theorem bit_fieldMask (a b i : Nat) (hab : a ≤ b) (hb : b < 64) :
    bit (fieldMask a b) i = decide (a ≤ i ∧ i ≤ b) := by
  by_cases hi : i < 64
  · rw [Bool.eq_iff_iff]
    simp only [bit_eq_getLsbD, fieldMask, BitVec.getLsbD_ofNat, Nat.testBit_shiftLeft, Nat.testBit_two_pow_sub_one,
      Bool.and_eq_true, decide_eq_true_eq]
    omega
  · rw [bit_of_ge _ _ (by omega), eq_comm, decide_eq_false_iff_not]
    omega

theorem bit_bitMask (a i : Nat) (ha : a < 64) : bit (bitMask a) i = decide (i = a) := by
  rw [bitMask, bit_fieldMask a a i (Nat.le_refl a) ha]
  congr 1
  simp only [eq_iff_iff]
  omega

/-- What `copyBits` does to each bit. -/
theorem bit_copyBits (mask src dst : Word) (i : Nat) :
    bit (copyBits mask src dst) i = if bit mask i then bit src i else bit dst i := by
  by_cases hi : i < 64
  · cases hm : bit mask i <;> simp [copyBits, bit_not, hi, hm]
  · simp [bit_of_ge _ i (by omega : 64 ≤ i)]

/-- What `putBit` does to each bit. -/
theorem bit_putBit (v : Word) (a i : Nat) (b : Bool) (ha : a < 64) :
    bit (putBit v a b) i = if i = a then b else bit v i := by
  by_cases hi : i < 64
  · cases b <;> by_cases h : i = a <;> simp [putBit, bit_not, hi, ha, h, bit_bitMask a _ ha]
  · rw [bit_of_ge _ i (by omega), if_neg (by omega), bit_of_ge _ i (by omega)]

/-! Bytes -/

theorem beValue_append (as bs : List Byte) :
    beValue (as ++ bs) = beValue as * 256 ^ bs.length + beValue bs := by
  suffices h : ∀ (bs : List Byte) (n : Nat),
      bs.foldl (fun acc b => acc * 256 + b.toNat) n = n * 256 ^ bs.length + beValue bs by
    simp only [beValue, List.foldl_append]
    exact h bs _
  intro bs
  induction bs with
  | nil => intro n; simp [beValue]
  | cons b bs ih =>
    intro n
    simp only [beValue, List.foldl_cons, List.length_cons]
    rw [ih, ih (0 * 256 + b.toNat)]
    ring

theorem beValue_lt (bs : List Byte) : beValue bs < 256 ^ bs.length := by
  induction bs with
  | nil => simp [beValue]
  | cons b bs ih =>
    have h := beValue_append [b] bs
    simp only [List.singleton_append] at h
    rw [h]
    have hb : b.toNat < 256 := b.isLt
    have h1 : beValue [b] = b.toNat := by simp [beValue]
    rw [h1, List.length_cons, Nat.pow_succ]
    have := Nat.mul_le_mul_right (256 ^ bs.length) (Nat.succ_le_of_lt hb)
    rw [Nat.succ_mul] at this
    omega

@[simp] theorem beBytes_length (n v : Nat) : (beBytes n v).length = n := by simp [beBytes]

theorem beBytes_succ (n v : Nat) : beBytes (n + 1) v = BitVec.ofNat 8 (v >>> (8 * n)) :: beBytes n v := by
  simp only [beBytes, List.range_succ_eq_map, List.map_cons, List.map_map, Nat.add_sub_cancel, Nat.sub_zero]
  refine congrArg _ (List.map_congr_left fun k hk => ?_)
  simp only [Function.comp, List.mem_range] at *
  congr 2
  omega

/-- The bytes of a number spell it, modulo their width (R64). -/
theorem beValue_beBytes (n v : Nat) : beValue (beBytes n v) = v % 256 ^ n := by
  induction n with
  | zero => simp [beBytes, beValue, Nat.mod_one]
  | succ n ih =>
    have h := beValue_append [BitVec.ofNat 8 (v >>> (8 * n))] (beBytes n v)
    simp only [List.singleton_append] at h
    rw [beBytes_succ, h, ih]
    have h1 : beValue [BitVec.ofNat 8 (v >>> (8 * n))] = v / 256 ^ n % 256 := by
      simp [beValue, Nat.shiftRight_eq_div_pow, Nat.pow_mul]
    rw [h1, beBytes_length, Nat.pow_succ, Nat.mod_mul]
    ring

/-- Decoding the bytes of a word is decoding the word. -/
theorem wordOfBytes_slices (w : Word32) :
    wordOfBytes (slice w 0 7) (slice w 8 15) (slice w 16 23) (slice w 24 31) = w := by
  apply BitVec.eq_of_getLsbD_eq
  intro i hi
  simp only [wordOfBytes, slice, BitVec.getLsbD_append, BitVec.getLsbD_extractLsb']
  split
  · simp only [*, show i < 8 from ‹_›, decide_true, Bool.true_and]
    congr 1
    omega
  · split
    · simp only [show i - 8 < 8 from ‹_›, decide_true, Bool.true_and]
      congr 1
      omega
    · split
      · simp only [show i - 8 - 8 < 8 from ‹_›, decide_true, Bool.true_and]
        congr 1
        omega
      · simp only [show i - 8 - 8 - 8 < 8 by omega, decide_true, Bool.true_and]
        congr 1
        omega

theorem decode_bytesOfWord (w : Word32) (rest : List Byte) :
    decode (bytesOfWord w ++ rest) =
      match decodeWord w with
      | .ok i => .ok (i, rest)
      | .error e => .error e := by
  show (match decodeWord (wordOfBytes (slice w 0 7) (slice w 8 15) (slice w 16 23) (slice w 24 31)) with
    | .ok i => Except.ok (i, rest)
    | .error e => .error e) = _
  rw [wordOfBytes_slices]

end Sys2Proof
end

