-- ==== Sys2Proof/Laws/State.lean ====
section
/-! SUPPORT. One lemma per field per update of the state, so that no later proof unfolds a record update. -/

namespace Sys2Proof.Machine

/-! setGpr -/

@[simp] theorem State.setGpr_gpr (s : State) (r : Reg) (v : Word) : (s.setGpr r v).gpr = s.gpr.set r.toNat v r.isLt := rfl
@[simp] theorem State.setGpr_pc (s : State) (r : Reg) (v : Word) : (s.setGpr r v).pc = s.pc := rfl
@[simp] theorem State.setGpr_msr (s : State) (r : Reg) (v : Word) : (s.setGpr r v).msr = s.msr := rfl
@[simp] theorem State.setGpr_sdr1 (s : State) (r : Reg) (v : Word) : (s.setGpr r v).sdr1 = s.sdr1 := rfl
@[simp] theorem State.setGpr_slb (s : State) (r : Reg) (v : Word) : (s.setGpr r v).slb = s.slb := rfl
@[simp] theorem State.setGpr_tlb (s : State) (r : Reg) (v : Word) : (s.setGpr r v).tlb = s.tlb := rfl
@[simp] theorem State.setGpr_srr0 (s : State) (r : Reg) (v : Word) : (s.setGpr r v).srr0 = s.srr0 := rfl
@[simp] theorem State.setGpr_srr1 (s : State) (r : Reg) (v : Word) : (s.setGpr r v).srr1 = s.srr1 := rfl
@[simp] theorem State.setGpr_dar (s : State) (r : Reg) (v : Word) : (s.setGpr r v).dar = s.dar := rfl
@[simp] theorem State.setGpr_dsisr (s : State) (r : Reg) (v : Word) : (s.setGpr r v).dsisr = s.dsisr := rfl
@[simp] theorem State.setGpr_mem (s : State) (r : Reg) (v : Word) : (s.setGpr r v).mem = s.mem := rfl
@[simp] theorem State.setGpr_msrWindow (s : State) (r : Reg) (v : Word) : (s.setGpr r v).msrWindow = s.msrWindow := rfl
@[simp] theorem State.setGpr_slbWindow (s : State) (r : Reg) (v : Word) : (s.setGpr r v).slbWindow = s.slbWindow := rfl
@[simp] theorem State.setGpr_sdr1Window (s : State) (r : Reg) (v : Word) : (s.setGpr r v).sdr1Window = s.sdr1Window := rfl
@[simp] theorem State.setGpr_pteWindow (s : State) (r : Reg) (v : Word) : (s.setGpr r v).pteWindow = s.pteWindow := rfl
@[simp] theorem State.setGpr_tlbWindow (s : State) (r : Reg) (v : Word) : (s.setGpr r v).tlbWindow = s.tlbWindow := rfl
@[simp] theorem State.setGpr_draws (s : State) (r : Reg) (v : Word) : (s.setGpr r v).draws = s.draws := rfl
@[simp] theorem State.setGpr_cfg (s : State) (r : Reg) (v : Word) : (s.setGpr r v).cfg = s.cfg := rfl

/-! nextPc -/

@[simp] theorem State.nextPc_gpr (s : State) : (s.nextPc).gpr = s.gpr := rfl
@[simp] theorem State.nextPc_pc (s : State) : (s.nextPc).pc = s.pc + 4 := rfl
@[simp] theorem State.nextPc_msr (s : State) : (s.nextPc).msr = s.msr := rfl
@[simp] theorem State.nextPc_sdr1 (s : State) : (s.nextPc).sdr1 = s.sdr1 := rfl
@[simp] theorem State.nextPc_slb (s : State) : (s.nextPc).slb = s.slb := rfl
@[simp] theorem State.nextPc_tlb (s : State) : (s.nextPc).tlb = s.tlb := rfl
@[simp] theorem State.nextPc_srr0 (s : State) : (s.nextPc).srr0 = s.srr0 := rfl
@[simp] theorem State.nextPc_srr1 (s : State) : (s.nextPc).srr1 = s.srr1 := rfl
@[simp] theorem State.nextPc_dar (s : State) : (s.nextPc).dar = s.dar := rfl
@[simp] theorem State.nextPc_dsisr (s : State) : (s.nextPc).dsisr = s.dsisr := rfl
@[simp] theorem State.nextPc_mem (s : State) : (s.nextPc).mem = s.mem := rfl
@[simp] theorem State.nextPc_msrWindow (s : State) : (s.nextPc).msrWindow = s.msrWindow := rfl
@[simp] theorem State.nextPc_slbWindow (s : State) : (s.nextPc).slbWindow = s.slbWindow := rfl
@[simp] theorem State.nextPc_sdr1Window (s : State) : (s.nextPc).sdr1Window = s.sdr1Window := rfl
@[simp] theorem State.nextPc_pteWindow (s : State) : (s.nextPc).pteWindow = s.pteWindow := rfl
@[simp] theorem State.nextPc_tlbWindow (s : State) : (s.nextPc).tlbWindow = s.tlbWindow := rfl
@[simp] theorem State.nextPc_draws (s : State) : (s.nextPc).draws = s.draws := rfl
@[simp] theorem State.nextPc_cfg (s : State) : (s.nextPc).cfg = s.cfg := rfl

/-! contextSync -/

@[simp] theorem State.contextSync_gpr (s : State) : (s.contextSync).gpr = s.gpr := rfl
@[simp] theorem State.contextSync_pc (s : State) : (s.contextSync).pc = s.pc := rfl
@[simp] theorem State.contextSync_msr (s : State) : (s.contextSync).msr = s.msr := rfl
@[simp] theorem State.contextSync_sdr1 (s : State) : (s.contextSync).sdr1 = s.sdr1 := rfl
@[simp] theorem State.contextSync_slb (s : State) : (s.contextSync).slb = s.slb := rfl
@[simp] theorem State.contextSync_tlb (s : State) : (s.contextSync).tlb = s.tlb := rfl
@[simp] theorem State.contextSync_srr0 (s : State) : (s.contextSync).srr0 = s.srr0 := rfl
@[simp] theorem State.contextSync_srr1 (s : State) : (s.contextSync).srr1 = s.srr1 := rfl
@[simp] theorem State.contextSync_dar (s : State) : (s.contextSync).dar = s.dar := rfl
@[simp] theorem State.contextSync_dsisr (s : State) : (s.contextSync).dsisr = s.dsisr := rfl
@[simp] theorem State.contextSync_mem (s : State) : (s.contextSync).mem = s.mem := rfl
@[simp] theorem State.contextSync_msrWindow (s : State) : (s.contextSync).msrWindow = ⟨false, false, false⟩ := rfl
@[simp] theorem State.contextSync_slbWindow (s : State) : (s.contextSync).slbWindow = [] := rfl
@[simp] theorem State.contextSync_sdr1Window (s : State) : (s.contextSync).sdr1Window = [] := rfl
@[simp] theorem State.contextSync_pteWindow (s : State) : (s.contextSync).pteWindow = s.pteWindow := rfl
@[simp] theorem State.contextSync_tlbWindow (s : State) : (s.contextSync).tlbWindow = s.tlbWindow := rfl
@[simp] theorem State.contextSync_draws (s : State) : (s.contextSync).draws = s.draws := rfl
@[simp] theorem State.contextSync_cfg (s : State) : (s.contextSync).cfg = s.cfg := rfl

/-! setMsrRacing -/

@[simp] theorem State.setMsrRacing_gpr (s : State) (m : Word) : (s.setMsrRacing m).gpr = s.gpr := rfl
@[simp] theorem State.setMsrRacing_pc (s : State) (m : Word) : (s.setMsrRacing m).pc = s.pc := rfl
@[simp] theorem State.setMsrRacing_msr (s : State) (m : Word) : (s.setMsrRacing m).msr = m := rfl
@[simp] theorem State.setMsrRacing_sdr1 (s : State) (m : Word) : (s.setMsrRacing m).sdr1 = s.sdr1 := rfl
@[simp] theorem State.setMsrRacing_slb (s : State) (m : Word) : (s.setMsrRacing m).slb = s.slb := rfl
@[simp] theorem State.setMsrRacing_tlb (s : State) (m : Word) : (s.setMsrRacing m).tlb = s.tlb := rfl
@[simp] theorem State.setMsrRacing_srr0 (s : State) (m : Word) : (s.setMsrRacing m).srr0 = s.srr0 := rfl
@[simp] theorem State.setMsrRacing_srr1 (s : State) (m : Word) : (s.setMsrRacing m).srr1 = s.srr1 := rfl
@[simp] theorem State.setMsrRacing_dar (s : State) (m : Word) : (s.setMsrRacing m).dar = s.dar := rfl
@[simp] theorem State.setMsrRacing_dsisr (s : State) (m : Word) : (s.setMsrRacing m).dsisr = s.dsisr := rfl
@[simp] theorem State.setMsrRacing_mem (s : State) (m : Word) : (s.setMsrRacing m).mem = s.mem := rfl
@[simp] theorem State.setMsrRacing_slbWindow (s : State) (m : Word) : (s.setMsrRacing m).slbWindow = s.slbWindow := rfl
@[simp] theorem State.setMsrRacing_sdr1Window (s : State) (m : Word) : (s.setMsrRacing m).sdr1Window = s.sdr1Window := rfl
@[simp] theorem State.setMsrRacing_pteWindow (s : State) (m : Word) : (s.setMsrRacing m).pteWindow = s.pteWindow := rfl
@[simp] theorem State.setMsrRacing_tlbWindow (s : State) (m : Word) : (s.setMsrRacing m).tlbWindow = s.tlbWindow := rfl
@[simp] theorem State.setMsrRacing_draws (s : State) (m : Word) : (s.setMsrRacing m).draws = s.draws := rfl
@[simp] theorem State.setMsrRacing_cfg (s : State) (m : Word) : (s.setMsrRacing m).cfg = s.cfg := rfl

/-! setSdr1Racing -/

@[simp] theorem State.setSdr1Racing_gpr (s : State) (v : Word) : (s.setSdr1Racing v).gpr = s.gpr := rfl
@[simp] theorem State.setSdr1Racing_pc (s : State) (v : Word) : (s.setSdr1Racing v).pc = s.pc := rfl
@[simp] theorem State.setSdr1Racing_msr (s : State) (v : Word) : (s.setSdr1Racing v).msr = s.msr := rfl
@[simp] theorem State.setSdr1Racing_sdr1 (s : State) (v : Word) : (s.setSdr1Racing v).sdr1 = v := rfl
@[simp] theorem State.setSdr1Racing_slb (s : State) (v : Word) : (s.setSdr1Racing v).slb = s.slb := rfl
@[simp] theorem State.setSdr1Racing_tlb (s : State) (v : Word) : (s.setSdr1Racing v).tlb = s.tlb := rfl
@[simp] theorem State.setSdr1Racing_srr0 (s : State) (v : Word) : (s.setSdr1Racing v).srr0 = s.srr0 := rfl
@[simp] theorem State.setSdr1Racing_srr1 (s : State) (v : Word) : (s.setSdr1Racing v).srr1 = s.srr1 := rfl
@[simp] theorem State.setSdr1Racing_dar (s : State) (v : Word) : (s.setSdr1Racing v).dar = s.dar := rfl
@[simp] theorem State.setSdr1Racing_dsisr (s : State) (v : Word) : (s.setSdr1Racing v).dsisr = s.dsisr := rfl
@[simp] theorem State.setSdr1Racing_mem (s : State) (v : Word) : (s.setSdr1Racing v).mem = s.mem := rfl
@[simp] theorem State.setSdr1Racing_msrWindow (s : State) (v : Word) : (s.setSdr1Racing v).msrWindow = s.msrWindow := rfl
@[simp] theorem State.setSdr1Racing_slbWindow (s : State) (v : Word) : (s.setSdr1Racing v).slbWindow = s.slbWindow := rfl
@[simp] theorem State.setSdr1Racing_sdr1Window (s : State) (v : Word) : (s.setSdr1Racing v).sdr1Window = s.sdr1 :: s.sdr1Window := rfl
@[simp] theorem State.setSdr1Racing_pteWindow (s : State) (v : Word) : (s.setSdr1Racing v).pteWindow = s.pteWindow := rfl
@[simp] theorem State.setSdr1Racing_tlbWindow (s : State) (v : Word) : (s.setSdr1Racing v).tlbWindow = s.tlbWindow := rfl
@[simp] theorem State.setSdr1Racing_draws (s : State) (v : Word) : (s.setSdr1Racing v).draws = s.draws := rfl
@[simp] theorem State.setSdr1Racing_cfg (s : State) (v : Word) : (s.setSdr1Racing v).cfg = s.cfg := rfl

/-! setSlbRacing -/

@[simp] theorem State.setSlbRacing_gpr (s : State) (i : Nat) (e : SlbEntry) : (s.setSlbRacing i e).gpr = s.gpr := rfl
@[simp] theorem State.setSlbRacing_pc (s : State) (i : Nat) (e : SlbEntry) : (s.setSlbRacing i e).pc = s.pc := rfl
@[simp] theorem State.setSlbRacing_msr (s : State) (i : Nat) (e : SlbEntry) : (s.setSlbRacing i e).msr = s.msr := rfl
@[simp] theorem State.setSlbRacing_sdr1 (s : State) (i : Nat) (e : SlbEntry) : (s.setSlbRacing i e).sdr1 = s.sdr1 := rfl
@[simp] theorem State.setSlbRacing_slb (s : State) (i : Nat) (e : SlbEntry) : (s.setSlbRacing i e).slb = s.slb.set i e := rfl
@[simp] theorem State.setSlbRacing_tlb (s : State) (i : Nat) (e : SlbEntry) : (s.setSlbRacing i e).tlb = s.tlb := rfl
@[simp] theorem State.setSlbRacing_srr0 (s : State) (i : Nat) (e : SlbEntry) : (s.setSlbRacing i e).srr0 = s.srr0 := rfl
@[simp] theorem State.setSlbRacing_srr1 (s : State) (i : Nat) (e : SlbEntry) : (s.setSlbRacing i e).srr1 = s.srr1 := rfl
@[simp] theorem State.setSlbRacing_dar (s : State) (i : Nat) (e : SlbEntry) : (s.setSlbRacing i e).dar = s.dar := rfl
@[simp] theorem State.setSlbRacing_dsisr (s : State) (i : Nat) (e : SlbEntry) : (s.setSlbRacing i e).dsisr = s.dsisr := rfl
@[simp] theorem State.setSlbRacing_mem (s : State) (i : Nat) (e : SlbEntry) : (s.setSlbRacing i e).mem = s.mem := rfl
@[simp] theorem State.setSlbRacing_msrWindow (s : State) (i : Nat) (e : SlbEntry) : (s.setSlbRacing i e).msrWindow = s.msrWindow := rfl
@[simp] theorem State.setSlbRacing_slbWindow (s : State) (i : Nat) (e : SlbEntry) : (s.setSlbRacing i e).slbWindow = (i, s.slb.getD i SlbEntry.reset) :: s.slbWindow := rfl
@[simp] theorem State.setSlbRacing_sdr1Window (s : State) (i : Nat) (e : SlbEntry) : (s.setSlbRacing i e).sdr1Window = s.sdr1Window := rfl
@[simp] theorem State.setSlbRacing_pteWindow (s : State) (i : Nat) (e : SlbEntry) : (s.setSlbRacing i e).pteWindow = s.pteWindow := rfl
@[simp] theorem State.setSlbRacing_tlbWindow (s : State) (i : Nat) (e : SlbEntry) : (s.setSlbRacing i e).tlbWindow = s.tlbWindow := rfl
@[simp] theorem State.setSlbRacing_draws (s : State) (i : Nat) (e : SlbEntry) : (s.setSlbRacing i e).draws = s.draws := rfl
@[simp] theorem State.setSlbRacing_cfg (s : State) (i : Nat) (e : SlbEntry) : (s.setSlbRacing i e).cfg = s.cfg := rfl

/-! invalidateSlb -/

@[simp] theorem State.invalidateSlb_gpr (s : State) (p : Nat → SlbEntry → Bool) : (s.invalidateSlb p).gpr = s.gpr := rfl
@[simp] theorem State.invalidateSlb_pc (s : State) (p : Nat → SlbEntry → Bool) : (s.invalidateSlb p).pc = s.pc := rfl
@[simp] theorem State.invalidateSlb_msr (s : State) (p : Nat → SlbEntry → Bool) : (s.invalidateSlb p).msr = s.msr := rfl
@[simp] theorem State.invalidateSlb_sdr1 (s : State) (p : Nat → SlbEntry → Bool) : (s.invalidateSlb p).sdr1 = s.sdr1 := rfl
@[simp] theorem State.invalidateSlb_tlb (s : State) (p : Nat → SlbEntry → Bool) : (s.invalidateSlb p).tlb = s.tlb := rfl
@[simp] theorem State.invalidateSlb_srr0 (s : State) (p : Nat → SlbEntry → Bool) : (s.invalidateSlb p).srr0 = s.srr0 := rfl
@[simp] theorem State.invalidateSlb_srr1 (s : State) (p : Nat → SlbEntry → Bool) : (s.invalidateSlb p).srr1 = s.srr1 := rfl
@[simp] theorem State.invalidateSlb_dar (s : State) (p : Nat → SlbEntry → Bool) : (s.invalidateSlb p).dar = s.dar := rfl
@[simp] theorem State.invalidateSlb_dsisr (s : State) (p : Nat → SlbEntry → Bool) : (s.invalidateSlb p).dsisr = s.dsisr := rfl
@[simp] theorem State.invalidateSlb_mem (s : State) (p : Nat → SlbEntry → Bool) : (s.invalidateSlb p).mem = s.mem := rfl
@[simp] theorem State.invalidateSlb_msrWindow (s : State) (p : Nat → SlbEntry → Bool) : (s.invalidateSlb p).msrWindow = s.msrWindow := rfl
@[simp] theorem State.invalidateSlb_sdr1Window (s : State) (p : Nat → SlbEntry → Bool) : (s.invalidateSlb p).sdr1Window = s.sdr1Window := rfl
@[simp] theorem State.invalidateSlb_pteWindow (s : State) (p : Nat → SlbEntry → Bool) : (s.invalidateSlb p).pteWindow = s.pteWindow := rfl
@[simp] theorem State.invalidateSlb_tlbWindow (s : State) (p : Nat → SlbEntry → Bool) : (s.invalidateSlb p).tlbWindow = s.tlbWindow := rfl
@[simp] theorem State.invalidateSlb_draws (s : State) (p : Nat → SlbEntry → Bool) : (s.invalidateSlb p).draws = s.draws := rfl
@[simp] theorem State.invalidateSlb_cfg (s : State) (p : Nat → SlbEntry → Bool) : (s.invalidateSlb p).cfg = s.cfg := rfl

/-! storeBytes -/

@[simp] theorem State.storeBytes_gpr (s : State) (as : List Nat) (bs : List Byte) : (s.storeBytes as bs).gpr = s.gpr := rfl
@[simp] theorem State.storeBytes_pc (s : State) (as : List Nat) (bs : List Byte) : (s.storeBytes as bs).pc = s.pc := rfl
@[simp] theorem State.storeBytes_msr (s : State) (as : List Nat) (bs : List Byte) : (s.storeBytes as bs).msr = s.msr := rfl
@[simp] theorem State.storeBytes_sdr1 (s : State) (as : List Nat) (bs : List Byte) : (s.storeBytes as bs).sdr1 = s.sdr1 := rfl
@[simp] theorem State.storeBytes_slb (s : State) (as : List Nat) (bs : List Byte) : (s.storeBytes as bs).slb = s.slb := rfl
@[simp] theorem State.storeBytes_tlb (s : State) (as : List Nat) (bs : List Byte) : (s.storeBytes as bs).tlb = s.tlb := rfl
@[simp] theorem State.storeBytes_srr0 (s : State) (as : List Nat) (bs : List Byte) : (s.storeBytes as bs).srr0 = s.srr0 := rfl
@[simp] theorem State.storeBytes_srr1 (s : State) (as : List Nat) (bs : List Byte) : (s.storeBytes as bs).srr1 = s.srr1 := rfl
@[simp] theorem State.storeBytes_dar (s : State) (as : List Nat) (bs : List Byte) : (s.storeBytes as bs).dar = s.dar := rfl
@[simp] theorem State.storeBytes_dsisr (s : State) (as : List Nat) (bs : List Byte) : (s.storeBytes as bs).dsisr = s.dsisr := rfl
@[simp] theorem State.storeBytes_mem (s : State) (as : List Nat) (bs : List Byte) : (s.storeBytes as bs).mem = s.mem.writeAll (as.zip bs) := rfl
@[simp] theorem State.storeBytes_msrWindow (s : State) (as : List Nat) (bs : List Byte) : (s.storeBytes as bs).msrWindow = s.msrWindow := rfl
@[simp] theorem State.storeBytes_slbWindow (s : State) (as : List Nat) (bs : List Byte) : (s.storeBytes as bs).slbWindow = s.slbWindow := rfl
@[simp] theorem State.storeBytes_sdr1Window (s : State) (as : List Nat) (bs : List Byte) : (s.storeBytes as bs).sdr1Window = s.sdr1Window := rfl
@[simp] theorem State.storeBytes_tlbWindow (s : State) (as : List Nat) (bs : List Byte) : (s.storeBytes as bs).tlbWindow = s.tlbWindow := rfl
@[simp] theorem State.storeBytes_draws (s : State) (as : List Nat) (bs : List Byte) : (s.storeBytes as bs).draws = s.draws := rfl
@[simp] theorem State.storeBytes_cfg (s : State) (as : List Nat) (bs : List Byte) : (s.storeBytes as bs).cfg = s.cfg := rfl

/-! markCopy -/

@[simp] theorem State.markCopy_gpr (s : State) (c : TlbEntry) (w : Bool) : (s.markCopy c w).gpr = s.gpr := rfl
@[simp] theorem State.markCopy_pc (s : State) (c : TlbEntry) (w : Bool) : (s.markCopy c w).pc = s.pc := rfl
@[simp] theorem State.markCopy_msr (s : State) (c : TlbEntry) (w : Bool) : (s.markCopy c w).msr = s.msr := rfl
@[simp] theorem State.markCopy_sdr1 (s : State) (c : TlbEntry) (w : Bool) : (s.markCopy c w).sdr1 = s.sdr1 := rfl
@[simp] theorem State.markCopy_slb (s : State) (c : TlbEntry) (w : Bool) : (s.markCopy c w).slb = s.slb := rfl
@[simp] theorem State.markCopy_srr0 (s : State) (c : TlbEntry) (w : Bool) : (s.markCopy c w).srr0 = s.srr0 := rfl
@[simp] theorem State.markCopy_srr1 (s : State) (c : TlbEntry) (w : Bool) : (s.markCopy c w).srr1 = s.srr1 := rfl
@[simp] theorem State.markCopy_dar (s : State) (c : TlbEntry) (w : Bool) : (s.markCopy c w).dar = s.dar := rfl
@[simp] theorem State.markCopy_dsisr (s : State) (c : TlbEntry) (w : Bool) : (s.markCopy c w).dsisr = s.dsisr := rfl
@[simp] theorem State.markCopy_mem (s : State) (c : TlbEntry) (w : Bool) : (s.markCopy c w).mem = s.mem := rfl
@[simp] theorem State.markCopy_msrWindow (s : State) (c : TlbEntry) (w : Bool) : (s.markCopy c w).msrWindow = s.msrWindow := rfl
@[simp] theorem State.markCopy_slbWindow (s : State) (c : TlbEntry) (w : Bool) : (s.markCopy c w).slbWindow = s.slbWindow := rfl
@[simp] theorem State.markCopy_sdr1Window (s : State) (c : TlbEntry) (w : Bool) : (s.markCopy c w).sdr1Window = s.sdr1Window := rfl
@[simp] theorem State.markCopy_pteWindow (s : State) (c : TlbEntry) (w : Bool) : (s.markCopy c w).pteWindow = s.pteWindow := rfl
@[simp] theorem State.markCopy_draws (s : State) (c : TlbEntry) (w : Bool) : (s.markCopy c w).draws = s.draws := rfl
@[simp] theorem State.markCopy_cfg (s : State) (c : TlbEntry) (w : Bool) : (s.markCopy c w).cfg = s.cfg := rfl

/-! returnFromException -/

@[simp] theorem State.returnFromException_gpr (s : State) : (s.returnFromException).gpr = s.gpr := rfl
@[simp] theorem State.returnFromException_pc (s : State) : (s.returnFromException).pc = s.srr0 &&& ~~~(fieldMask 62 63) := rfl
@[simp] theorem State.returnFromException_msr (s : State) : (s.returnFromException).msr = rfidMsr s.cfg.mtmsrdVariant s.srr1 s.msr := rfl
@[simp] theorem State.returnFromException_sdr1 (s : State) : (s.returnFromException).sdr1 = s.sdr1 := rfl
@[simp] theorem State.returnFromException_slb (s : State) : (s.returnFromException).slb = s.slb := rfl
@[simp] theorem State.returnFromException_tlb (s : State) : (s.returnFromException).tlb = s.tlb := rfl
@[simp] theorem State.returnFromException_srr0 (s : State) : (s.returnFromException).srr0 = s.srr0 := rfl
@[simp] theorem State.returnFromException_srr1 (s : State) : (s.returnFromException).srr1 = s.srr1 := rfl
@[simp] theorem State.returnFromException_dar (s : State) : (s.returnFromException).dar = s.dar := rfl
@[simp] theorem State.returnFromException_dsisr (s : State) : (s.returnFromException).dsisr = s.dsisr := rfl
@[simp] theorem State.returnFromException_mem (s : State) : (s.returnFromException).mem = s.mem := rfl
@[simp] theorem State.returnFromException_msrWindow (s : State) : (s.returnFromException).msrWindow = ⟨false, false, false⟩ := rfl
@[simp] theorem State.returnFromException_slbWindow (s : State) : (s.returnFromException).slbWindow = [] := rfl
@[simp] theorem State.returnFromException_sdr1Window (s : State) : (s.returnFromException).sdr1Window = [] := rfl
@[simp] theorem State.returnFromException_pteWindow (s : State) : (s.returnFromException).pteWindow = s.pteWindow := rfl
@[simp] theorem State.returnFromException_tlbWindow (s : State) : (s.returnFromException).tlbWindow = s.tlbWindow := rfl
@[simp] theorem State.returnFromException_draws (s : State) : (s.returnFromException).draws = s.draws := rfl
@[simp] theorem State.returnFromException_cfg (s : State) : (s.returnFromException).cfg = s.cfg := rfl

/-! takeException -/

theorem State.writeFaultRegisters_gpr (s : State) (e : Exc) : (s.writeFaultRegisters e).gpr = s.gpr := by
  cases e <;> rfl
@[simp] theorem State.takeException_gpr (s : State) (e : Exc) : (s.takeException e).gpr = s.gpr :=
  State.writeFaultRegisters_gpr s e
@[simp] theorem State.takeException_pc (s : State) (e : Exc) : (s.takeException e).pc = s.cfg.vectorBase.setWidth 64 + vectorOffset e := rfl
@[simp] theorem State.takeException_msr (s : State) (e : Exc) : (s.takeException e).msr = entryMsr s.msr := rfl
theorem State.writeFaultRegisters_sdr1 (s : State) (e : Exc) : (s.writeFaultRegisters e).sdr1 = s.sdr1 := by
  cases e <;> rfl
@[simp] theorem State.takeException_sdr1 (s : State) (e : Exc) : (s.takeException e).sdr1 = s.sdr1 :=
  State.writeFaultRegisters_sdr1 s e
theorem State.writeFaultRegisters_slb (s : State) (e : Exc) : (s.writeFaultRegisters e).slb = s.slb := by
  cases e <;> rfl
@[simp] theorem State.takeException_slb (s : State) (e : Exc) : (s.takeException e).slb = s.slb :=
  State.writeFaultRegisters_slb s e
theorem State.writeFaultRegisters_tlb (s : State) (e : Exc) : (s.writeFaultRegisters e).tlb = s.tlb := by
  cases e <;> rfl
@[simp] theorem State.takeException_tlb (s : State) (e : Exc) : (s.takeException e).tlb = s.tlb :=
  State.writeFaultRegisters_tlb s e
@[simp] theorem State.takeException_srr0 (s : State) (e : Exc) : (s.takeException e).srr0 = s.pc := rfl
@[simp] theorem State.takeException_srr1 (s : State) (e : Exc) : (s.takeException e).srr1 = entrySrr1 s.msr (statusBits e) := rfl
theorem State.writeFaultRegisters_mem (s : State) (e : Exc) : (s.writeFaultRegisters e).mem = s.mem := by
  cases e <;> rfl
@[simp] theorem State.takeException_mem (s : State) (e : Exc) : (s.takeException e).mem = s.mem :=
  State.writeFaultRegisters_mem s e
theorem State.takeException_dar (s : State) (e : Exc) : (s.takeException e).dar = (s.writeFaultRegisters e).dar := rfl
theorem State.takeException_dsisr (s : State) (e : Exc) : (s.takeException e).dsisr = (s.writeFaultRegisters e).dsisr := rfl
@[simp] theorem State.takeException_msrWindow (s : State) (e : Exc) : (s.takeException e).msrWindow = ⟨false, false, false⟩ := rfl
@[simp] theorem State.takeException_slbWindow (s : State) (e : Exc) : (s.takeException e).slbWindow = [] := rfl
@[simp] theorem State.takeException_sdr1Window (s : State) (e : Exc) : (s.takeException e).sdr1Window = [] := rfl
theorem State.writeFaultRegisters_pteWindow (s : State) (e : Exc) : (s.writeFaultRegisters e).pteWindow = s.pteWindow := by
  cases e <;> rfl
@[simp] theorem State.takeException_pteWindow (s : State) (e : Exc) : (s.takeException e).pteWindow = s.pteWindow :=
  State.writeFaultRegisters_pteWindow s e
theorem State.writeFaultRegisters_tlbWindow (s : State) (e : Exc) : (s.writeFaultRegisters e).tlbWindow = s.tlbWindow := by
  cases e <;> rfl
@[simp] theorem State.takeException_tlbWindow (s : State) (e : Exc) : (s.takeException e).tlbWindow = s.tlbWindow :=
  State.writeFaultRegisters_tlbWindow s e
theorem State.writeFaultRegisters_cfg (s : State) (e : Exc) : (s.writeFaultRegisters e).cfg = s.cfg := by
  cases e <;> rfl
@[simp] theorem State.takeException_cfg (s : State) (e : Exc) : (s.takeException e).cfg = s.cfg :=
  State.writeFaultRegisters_cfg s e

/-! tlbAgent -/

@[simp] theorem State.tlbAgent_gpr (s : State) : (s.tlbAgent).gpr = s.gpr := by
  unfold State.tlbAgent
  split <;> rfl
@[simp] theorem State.tlbAgent_pc (s : State) : (s.tlbAgent).pc = s.pc := by
  unfold State.tlbAgent
  split <;> rfl
@[simp] theorem State.tlbAgent_msr (s : State) : (s.tlbAgent).msr = s.msr := by
  unfold State.tlbAgent
  split <;> rfl
@[simp] theorem State.tlbAgent_sdr1 (s : State) : (s.tlbAgent).sdr1 = s.sdr1 := by
  unfold State.tlbAgent
  split <;> rfl
@[simp] theorem State.tlbAgent_slb (s : State) : (s.tlbAgent).slb = s.slb := by
  unfold State.tlbAgent
  split <;> rfl
@[simp] theorem State.tlbAgent_srr0 (s : State) : (s.tlbAgent).srr0 = s.srr0 := by
  unfold State.tlbAgent
  split <;> rfl
@[simp] theorem State.tlbAgent_srr1 (s : State) : (s.tlbAgent).srr1 = s.srr1 := by
  unfold State.tlbAgent
  split <;> rfl
@[simp] theorem State.tlbAgent_dar (s : State) : (s.tlbAgent).dar = s.dar := by
  unfold State.tlbAgent
  split <;> rfl
@[simp] theorem State.tlbAgent_dsisr (s : State) : (s.tlbAgent).dsisr = s.dsisr := by
  unfold State.tlbAgent
  split <;> rfl
@[simp] theorem State.tlbAgent_mem (s : State) : (s.tlbAgent).mem = s.mem := by
  unfold State.tlbAgent
  split <;> rfl
@[simp] theorem State.tlbAgent_msrWindow (s : State) : (s.tlbAgent).msrWindow = s.msrWindow := by
  unfold State.tlbAgent
  split <;> rfl
@[simp] theorem State.tlbAgent_slbWindow (s : State) : (s.tlbAgent).slbWindow = s.slbWindow := by
  unfold State.tlbAgent
  split <;> rfl
@[simp] theorem State.tlbAgent_sdr1Window (s : State) : (s.tlbAgent).sdr1Window = s.sdr1Window := by
  unfold State.tlbAgent
  split <;> rfl
@[simp] theorem State.tlbAgent_pteWindow (s : State) : (s.tlbAgent).pteWindow = s.pteWindow := by
  unfold State.tlbAgent
  split <;> rfl
@[simp] theorem State.tlbAgent_tlbWindow (s : State) : (s.tlbAgent).tlbWindow = s.tlbWindow := by
  unfold State.tlbAgent
  split <;> rfl
@[simp] theorem State.tlbAgent_cfg (s : State) : (s.tlbAgent).cfg = s.cfg := by
  unfold State.tlbAgent
  split <;> rfl

/-! tlbAfter -/

@[simp] theorem State.tlbAfter_gpr (s : State) (d : Nat) (x : Found) (w : Bool) : (s.tlbAfter d x w).gpr = s.gpr := by
  unfold State.tlbAfter
  split
  · rfl
  · split <;> rfl
@[simp] theorem State.tlbAfter_pc (s : State) (d : Nat) (x : Found) (w : Bool) : (s.tlbAfter d x w).pc = s.pc := by
  unfold State.tlbAfter
  split
  · rfl
  · split <;> rfl
@[simp] theorem State.tlbAfter_msr (s : State) (d : Nat) (x : Found) (w : Bool) : (s.tlbAfter d x w).msr = s.msr := by
  unfold State.tlbAfter
  split
  · rfl
  · split <;> rfl
@[simp] theorem State.tlbAfter_sdr1 (s : State) (d : Nat) (x : Found) (w : Bool) : (s.tlbAfter d x w).sdr1 = s.sdr1 := by
  unfold State.tlbAfter
  split
  · rfl
  · split <;> rfl
@[simp] theorem State.tlbAfter_slb (s : State) (d : Nat) (x : Found) (w : Bool) : (s.tlbAfter d x w).slb = s.slb := by
  unfold State.tlbAfter
  split
  · rfl
  · split <;> rfl
@[simp] theorem State.tlbAfter_srr0 (s : State) (d : Nat) (x : Found) (w : Bool) : (s.tlbAfter d x w).srr0 = s.srr0 := by
  unfold State.tlbAfter
  split
  · rfl
  · split <;> rfl
@[simp] theorem State.tlbAfter_srr1 (s : State) (d : Nat) (x : Found) (w : Bool) : (s.tlbAfter d x w).srr1 = s.srr1 := by
  unfold State.tlbAfter
  split
  · rfl
  · split <;> rfl
@[simp] theorem State.tlbAfter_dar (s : State) (d : Nat) (x : Found) (w : Bool) : (s.tlbAfter d x w).dar = s.dar := by
  unfold State.tlbAfter
  split
  · rfl
  · split <;> rfl
@[simp] theorem State.tlbAfter_dsisr (s : State) (d : Nat) (x : Found) (w : Bool) : (s.tlbAfter d x w).dsisr = s.dsisr := by
  unfold State.tlbAfter
  split
  · rfl
  · split <;> rfl
@[simp] theorem State.tlbAfter_mem (s : State) (d : Nat) (x : Found) (w : Bool) : (s.tlbAfter d x w).mem = s.mem := by
  unfold State.tlbAfter
  split
  · rfl
  · split <;> rfl
@[simp] theorem State.tlbAfter_msrWindow (s : State) (d : Nat) (x : Found) (w : Bool) : (s.tlbAfter d x w).msrWindow = s.msrWindow := by
  unfold State.tlbAfter
  split
  · rfl
  · split <;> rfl
@[simp] theorem State.tlbAfter_slbWindow (s : State) (d : Nat) (x : Found) (w : Bool) : (s.tlbAfter d x w).slbWindow = s.slbWindow := by
  unfold State.tlbAfter
  split
  · rfl
  · split <;> rfl
@[simp] theorem State.tlbAfter_sdr1Window (s : State) (d : Nat) (x : Found) (w : Bool) : (s.tlbAfter d x w).sdr1Window = s.sdr1Window := by
  unfold State.tlbAfter
  split
  · rfl
  · split <;> rfl
@[simp] theorem State.tlbAfter_pteWindow (s : State) (d : Nat) (x : Found) (w : Bool) : (s.tlbAfter d x w).pteWindow = s.pteWindow := by
  unfold State.tlbAfter
  split
  · rfl
  · split <;> rfl
@[simp] theorem State.tlbAfter_draws (s : State) (d : Nat) (x : Found) (w : Bool) : (s.tlbAfter d x w).draws = s.draws := by
  unfold State.tlbAfter
  split
  · rfl
  · split <;> rfl
@[simp] theorem State.tlbAfter_cfg (s : State) (d : Nat) (x : Found) (w : Bool) : (s.tlbAfter d x w).cfg = s.cfg := by
  unfold State.tlbAfter
  split
  · rfl
  · split <;> rfl

/-! storageSync -/

@[simp] theorem State.storageSync_gpr (s : State) (l : BitVec 2) : (s.storageSync l).gpr = s.gpr := by
  unfold State.storageSync
  split
  · rfl
  · split <;> rfl
@[simp] theorem State.storageSync_pc (s : State) (l : BitVec 2) : (s.storageSync l).pc = s.pc := by
  unfold State.storageSync
  split
  · rfl
  · split <;> rfl
@[simp] theorem State.storageSync_msr (s : State) (l : BitVec 2) : (s.storageSync l).msr = s.msr := by
  unfold State.storageSync
  split
  · rfl
  · split <;> rfl
@[simp] theorem State.storageSync_sdr1 (s : State) (l : BitVec 2) : (s.storageSync l).sdr1 = s.sdr1 := by
  unfold State.storageSync
  split
  · rfl
  · split <;> rfl
@[simp] theorem State.storageSync_slb (s : State) (l : BitVec 2) : (s.storageSync l).slb = s.slb := by
  unfold State.storageSync
  split
  · rfl
  · split <;> rfl
@[simp] theorem State.storageSync_tlb (s : State) (l : BitVec 2) : (s.storageSync l).tlb = s.tlb := by
  unfold State.storageSync
  split
  · rfl
  · split <;> rfl
@[simp] theorem State.storageSync_srr0 (s : State) (l : BitVec 2) : (s.storageSync l).srr0 = s.srr0 := by
  unfold State.storageSync
  split
  · rfl
  · split <;> rfl
@[simp] theorem State.storageSync_srr1 (s : State) (l : BitVec 2) : (s.storageSync l).srr1 = s.srr1 := by
  unfold State.storageSync
  split
  · rfl
  · split <;> rfl
@[simp] theorem State.storageSync_dar (s : State) (l : BitVec 2) : (s.storageSync l).dar = s.dar := by
  unfold State.storageSync
  split
  · rfl
  · split <;> rfl
@[simp] theorem State.storageSync_dsisr (s : State) (l : BitVec 2) : (s.storageSync l).dsisr = s.dsisr := by
  unfold State.storageSync
  split
  · rfl
  · split <;> rfl
@[simp] theorem State.storageSync_mem (s : State) (l : BitVec 2) : (s.storageSync l).mem = s.mem := by
  unfold State.storageSync
  split
  · rfl
  · split <;> rfl
@[simp] theorem State.storageSync_msrWindow (s : State) (l : BitVec 2) : (s.storageSync l).msrWindow = s.msrWindow := by
  unfold State.storageSync
  split
  · rfl
  · split <;> rfl
@[simp] theorem State.storageSync_slbWindow (s : State) (l : BitVec 2) : (s.storageSync l).slbWindow = s.slbWindow := by
  unfold State.storageSync
  split
  · rfl
  · split <;> rfl
@[simp] theorem State.storageSync_sdr1Window (s : State) (l : BitVec 2) : (s.storageSync l).sdr1Window = s.sdr1Window := by
  unfold State.storageSync
  split
  · rfl
  · split <;> rfl
@[simp] theorem State.storageSync_draws (s : State) (l : BitVec 2) : (s.storageSync l).draws = s.draws := by
  unfold State.storageSync
  split
  · rfl
  · split <;> rfl
@[simp] theorem State.storageSync_cfg (s : State) (l : BitVec 2) : (s.storageSync l).cfg = s.cfg := by
  unfold State.storageSync
  split
  · rfl
  · split <;> rfl

/-! tlbInvalidate -/

@[simp] theorem State.tlbInvalidate_gpr (s : State) (b : Word) : (s.tlbInvalidate b).gpr = s.gpr := by
  unfold State.tlbInvalidate
  split <;> rfl
@[simp] theorem State.tlbInvalidate_pc (s : State) (b : Word) : (s.tlbInvalidate b).pc = s.pc := by
  unfold State.tlbInvalidate
  split <;> rfl
@[simp] theorem State.tlbInvalidate_msr (s : State) (b : Word) : (s.tlbInvalidate b).msr = s.msr := by
  unfold State.tlbInvalidate
  split <;> rfl
@[simp] theorem State.tlbInvalidate_sdr1 (s : State) (b : Word) : (s.tlbInvalidate b).sdr1 = s.sdr1 := by
  unfold State.tlbInvalidate
  split <;> rfl
@[simp] theorem State.tlbInvalidate_slb (s : State) (b : Word) : (s.tlbInvalidate b).slb = s.slb := by
  unfold State.tlbInvalidate
  split <;> rfl
@[simp] theorem State.tlbInvalidate_srr0 (s : State) (b : Word) : (s.tlbInvalidate b).srr0 = s.srr0 := by
  unfold State.tlbInvalidate
  split <;> rfl
@[simp] theorem State.tlbInvalidate_srr1 (s : State) (b : Word) : (s.tlbInvalidate b).srr1 = s.srr1 := by
  unfold State.tlbInvalidate
  split <;> rfl
@[simp] theorem State.tlbInvalidate_dar (s : State) (b : Word) : (s.tlbInvalidate b).dar = s.dar := by
  unfold State.tlbInvalidate
  split <;> rfl
@[simp] theorem State.tlbInvalidate_dsisr (s : State) (b : Word) : (s.tlbInvalidate b).dsisr = s.dsisr := by
  unfold State.tlbInvalidate
  split <;> rfl
@[simp] theorem State.tlbInvalidate_mem (s : State) (b : Word) : (s.tlbInvalidate b).mem = s.mem := by
  unfold State.tlbInvalidate
  split <;> rfl
@[simp] theorem State.tlbInvalidate_msrWindow (s : State) (b : Word) : (s.tlbInvalidate b).msrWindow = s.msrWindow := by
  unfold State.tlbInvalidate
  split <;> rfl
@[simp] theorem State.tlbInvalidate_slbWindow (s : State) (b : Word) : (s.tlbInvalidate b).slbWindow = s.slbWindow := by
  unfold State.tlbInvalidate
  split <;> rfl
@[simp] theorem State.tlbInvalidate_sdr1Window (s : State) (b : Word) : (s.tlbInvalidate b).sdr1Window = s.sdr1Window := by
  unfold State.tlbInvalidate
  split <;> rfl
@[simp] theorem State.tlbInvalidate_pteWindow (s : State) (b : Word) : (s.tlbInvalidate b).pteWindow = s.pteWindow := by
  unfold State.tlbInvalidate
  split <;> rfl
@[simp] theorem State.tlbInvalidate_cfg (s : State) (b : Word) : (s.tlbInvalidate b).cfg = s.cfg := by
  unfold State.tlbInvalidate
  split <;> rfl

/-! Registers read after a write -/

@[simp] theorem State.readGpr_setGpr_same (s : State) (r : Reg) (v : Word) : (s.setGpr r v).readGpr r = v := by
  simp [State.readGpr]

theorem State.readGpr_setGpr_of_ne (s : State) (r q : Reg) (v : Word) (h : q ≠ r) :
    (s.setGpr r v).readGpr q = s.readGpr q := by
  have hn : r.toNat ≠ q.toNat := fun e => h (BitVec.eq_of_toNat_eq e.symm)
  simp [State.readGpr, hn]

theorem State.readGpr_congr (s t : State) (h : t.gpr = s.gpr) (r : Reg) : t.readGpr r = s.readGpr r := by
  simp [State.readGpr, h]

@[simp] theorem State.readGpr_nextPc (s : State) (r : Reg) : s.nextPc.readGpr r = s.readGpr r := rfl

@[simp] theorem State.readGpr_takeException (s : State) (e : Exc) (r : Reg) :
    (s.takeException e).readGpr r = s.readGpr r := State.readGpr_congr _ _ (by simp) r

/-- Without a TLB the agent does nothing (R40). -/
@[simp] theorem State.tlbAgent_of_absent (s : State) (h : s.cfg.tlbPresent = false) : s.tlbAgent = s := by
  simp [State.tlbAgent, h]

end Sys2Proof.Machine
end

