-- ==== Sys2Proof/Laws/Memory.lean ====
section
/-! SUPPORT. The laws of physical memory (spec/20_memory.md R64): reading after writing, and that every operation keeps
the canonical form and lists no address but those written. -/

namespace Sys2Proof.Machine

/-! Reading after writing -/

theorem Memory.read_erase_of_ne (m : Memory) (a c : Nat) (h : c ≠ a) : (m.erase a).read c = m.read c := by
  induction m with
  | nil => rfl
  | cons x m ih =>
    obtain ⟨k, b⟩ := x
    by_cases hk : k = a
    · subst hk
      simp [Memory.erase, Memory.read, Ne.symm h]
    · simp [Memory.erase, hk, Memory.read, ih]

theorem Memory.read_insert (m : Memory) (a c : Nat) (b : Byte) :
    (m.insert a b).read c = if c = a then b else m.read c := by
  induction m with
  | nil =>
    by_cases h : c = a
    · simp [Memory.insert, Memory.read, h]
    · simp [Memory.insert, Memory.read, h, Ne.symm h]
  | cons x m ih =>
    obtain ⟨k, e⟩ := x
    simp only [Memory.insert]
    split
    · simp only [Memory.read]
      by_cases h : c = a
      · simp [h]
      · simp [h, Ne.symm h]
    · split
      · rename_i h1 h2
        subst h2
        simp only [Memory.read]
        by_cases h : c = a
        · simp [h]
        · simp [h, Ne.symm h]
      · rename_i h1 h2
        simp only [Memory.read, ih]
        by_cases h : c = a
        · subst h
          simp [Ne.symm h2]
        · simp [h]

/-- A write leaves every other address alone. -/
theorem Memory.read_write_of_ne (m : Memory) (a c : Nat) (b : Byte) (h : c ≠ a) :
    (m.write a b).read c = m.read c := by
  unfold Memory.write
  split
  · exact m.read_erase_of_ne a c h
  · simp [m.read_insert, h]

/-- Writes leave every other address alone. -/
theorem Memory.read_writeAll_of_not_mem (m : Memory) (w : List (Nat × Byte)) (c : Nat) (h : ∀ x ∈ w, x.1 ≠ c) :
    (m.writeAll w).read c = m.read c := by
  induction w generalizing m with
  | nil => rfl
  | cons x w ih =>
    obtain ⟨a, b⟩ := x
    rw [Memory.writeAll, ih _ fun y hy => h y (List.mem_cons_of_mem _ hy)]
    exact m.read_write_of_ne a c b (Ne.symm (h (a, b) List.mem_cons_self))

/-! The canonical form -/

theorem Memory.risingFrom_cons (lo : Option Nat) (k : Nat) (b : Byte) (m : Memory) :
    Memory.risingFrom lo ((k, b) :: m) = true ↔
      (∀ l, lo = some l → l < k) ∧ b ≠ Memory.unlisted ∧ Memory.risingFrom (some k) m = true := by
  cases lo <;> simp [Memory.risingFrom, and_assoc]

theorem Memory.risingFrom_mono (l k : Nat) (m : Memory) (h : l ≤ k) :
    Memory.risingFrom (some k) m = true → Memory.risingFrom (some l) m = true := by
  cases m with
  | nil => simp [Memory.risingFrom]
  | cons x m =>
    obtain ⟨a, b⟩ := x
    simp only [Memory.risingFrom_cons, Option.some.injEq]
    rintro ⟨h1, h2, h3⟩
    refine ⟨?_, h2, h3⟩
    rintro _ rfl
    exact Nat.lt_of_le_of_lt h (h1 k rfl)

theorem Memory.risingFrom_weaken (lo : Option Nat) (k : Nat) (m : Memory) (h : ∀ l, lo = some l → l ≤ k) :
    Memory.risingFrom (some k) m = true → Memory.risingFrom lo m = true := by
  cases lo with
  | some l => exact Memory.risingFrom_mono l k m (h l rfl)
  | none =>
    cases m with
    | nil => simp [Memory.risingFrom]
    | cons x m =>
      obtain ⟨a, b⟩ := x
      simp only [Memory.risingFrom_cons]
      rintro ⟨-, h2, h3⟩
      exact ⟨by simp, h2, h3⟩

theorem Memory.risingFrom_erase (lo : Option Nat) (m : Memory) (a : Nat) (h : Memory.risingFrom lo m = true) :
    Memory.risingFrom lo (m.erase a) = true := by
  induction m generalizing lo with
  | nil => exact h
  | cons x m ih =>
    obtain ⟨k, b⟩ := x
    obtain ⟨h1, h2, h3⟩ := (Memory.risingFrom_cons lo k b m).1 h
    by_cases hk : k = a
    · simp only [Memory.erase, hk, if_true]
      exact Memory.risingFrom_weaken lo k m (fun l hl => Nat.le_of_lt (h1 l hl)) h3
    · simp only [Memory.erase, hk, if_false]
      exact (Memory.risingFrom_cons lo k b _).2 ⟨h1, h2, ih _ h3⟩

theorem Memory.risingFrom_insert (lo : Option Nat) (m : Memory) (a : Nat) (b : Byte)
    (h : Memory.risingFrom lo m = true) (hlo : ∀ l, lo = some l → l < a) (hb : b ≠ Memory.unlisted) :
    Memory.risingFrom lo (m.insert a b) = true := by
  induction m generalizing lo with
  | nil => exact (Memory.risingFrom_cons lo a b []).2 ⟨hlo, hb, rfl⟩
  | cons x m ih =>
    obtain ⟨k, c⟩ := x
    obtain ⟨h1, h2, h3⟩ := (Memory.risingFrom_cons lo k c m).1 h
    simp only [Memory.insert]
    split
    · rename_i hak
      refine (Memory.risingFrom_cons lo a b _).2 ⟨hlo, hb, (Memory.risingFrom_cons _ k c m).2 ⟨?_, h2, h3⟩⟩
      rintro _ ⟨⟩
      exact hak
    · split
      · rename_i hak
        subst hak
        exact (Memory.risingFrom_cons lo a b m).2 ⟨h1, hb, h3⟩
      · rename_i hlt hne
        refine (Memory.risingFrom_cons lo k c _).2 ⟨h1, h2, ih _ h3 ?_⟩
        rintro _ ⟨⟩
        omega

/-- A write keeps the canonical form. -/
theorem Memory.wf_write (m : Memory) (a : Nat) (b : Byte) (h : m.wf = true) : (m.write a b).wf = true := by
  unfold Memory.write
  split
  · exact Memory.risingFrom_erase none m a h
  · exact Memory.risingFrom_insert none m a b h (by simp) ‹_›

/-- Writes keep the canonical form. -/
theorem Memory.wf_writeAll (m : Memory) (w : List (Nat × Byte)) (h : m.wf = true) : (m.writeAll w).wf = true := by
  induction w generalizing m with
  | nil => exact h
  | cons x w ih => exact ih _ (Memory.wf_write m x.1 x.2 h)

theorem Memory.read_of_risingFrom (m : Memory) (a k : Nat) (h : Memory.risingFrom (some k) m = true) (hk : a ≤ k) :
    m.read a = Memory.unlisted := by
  induction m generalizing k with
  | nil => rfl
  | cons x m ih =>
    obtain ⟨c, b⟩ := x
    obtain ⟨h1, -, h3⟩ := (Memory.risingFrom_cons (some k) c b m).1 h
    have hc := h1 k rfl
    rw [Memory.read, if_neg (by omega)]
    exact ih c h3 (by omega)

theorem Memory.read_erase_same (lo : Option Nat) (m : Memory) (a : Nat) (h : Memory.risingFrom lo m = true) :
    (m.erase a).read a = Memory.unlisted := by
  induction m generalizing lo with
  | nil => rfl
  | cons x m ih =>
    obtain ⟨k, b⟩ := x
    obtain ⟨-, -, h3⟩ := (Memory.risingFrom_cons lo k b m).1 h
    by_cases hk : k = a
    · subst hk
      simp only [Memory.erase, if_true]
      exact Memory.read_of_risingFrom m k k h3 (Nat.le_refl k)
    · simp only [Memory.erase, hk, if_false, Memory.read]
      exact ih _ h3

/-- A read after a write to the same address gives the byte written. -/
theorem Memory.read_write_same (m : Memory) (a : Nat) (b : Byte) (h : m.wf = true) : (m.write a b).read a = b := by
  unfold Memory.write
  split
  · rename_i hb
    rw [Memory.read_erase_same none m a h, hb]
  · simp [Memory.read_insert]

/-- Reading after one write, at any address. -/
theorem Memory.read_write (m : Memory) (a c : Nat) (b : Byte) (h : m.wf = true) :
    (m.write a b).read c = if c = a then b else m.read c := by
  split
  · rename_i hc
    subst hc
    exact m.read_write_same c b h
  · exact m.read_write_of_ne a c b ‹_›

/-- Reading the bytes just written at distinct addresses gives them back. -/
theorem Memory.map_read_writeAll_zip (m : Memory) (as : List Nat) (bs : List Byte) (h : m.wf = true)
    (hd : as.Nodup) (hl : as.length = bs.length) : as.map (m.writeAll (as.zip bs)).read = bs := by
  induction as generalizing m bs with
  | nil => simpa using hl.symm
  | cons a as ih =>
    cases bs with
    | nil => simp at hl
    | cons b bs =>
      obtain ⟨ha, hd⟩ := List.nodup_cons.1 hd
      simp only [List.zip_cons_cons, Memory.writeAll, List.map_cons]
      rw [ih _ _ (m.wf_write a b h) hd (by simpa using hl)]
      rw [Memory.read_writeAll_of_not_mem, m.read_write_same a b h]
      rintro ⟨x, y⟩ hx rfl
      exact ha (List.of_mem_zip hx).1

/-- Two memories in canonical form that read alike everywhere are equal. -/
theorem Memory.risingFrom_ext (lo : Option Nat) (m n : Memory) (hm : Memory.risingFrom lo m = true)
    (hn : Memory.risingFrom lo n = true) (h : ∀ a, m.read a = n.read a) : m = n := by
  induction m generalizing lo n with
  | nil =>
    cases n with
    | nil => rfl
    | cons y n =>
      obtain ⟨k, b⟩ := y
      obtain ⟨-, hb, -⟩ := (Memory.risingFrom_cons lo k b n).1 hn
      exact absurd (by simpa [Memory.read] using (h k).symm) hb
  | cons x m ih =>
    obtain ⟨j, c⟩ := x
    obtain ⟨-, hc, hm'⟩ := (Memory.risingFrom_cons lo j c m).1 hm
    cases n with
    | nil => exact absurd (by simpa [Memory.read] using h j) hc
    | cons y n =>
      obtain ⟨k, b⟩ := y
      obtain ⟨-, hb, hn'⟩ := (Memory.risingFrom_cons lo k b n).1 hn
      have hjk : j = k := by
        rcases Nat.lt_trichotomy j k with hlt | heq | hgt
        · have := h j
          rw [Memory.read, if_pos rfl, Memory.read, if_neg (by omega),
            Memory.read_of_risingFrom n j k hn' (by omega)] at this
          exact absurd this hc
        · exact heq
        · have := h k
          rw [Memory.read, if_neg (by omega), Memory.read_of_risingFrom m k j hm' (by omega), Memory.read,
            if_pos rfl] at this
          exact absurd this.symm hb
      subst hjk
      have hcb : c = b := by simpa [Memory.read] using h j
      subst hcb
      refine congrArg _ (ih (some j) n hm' hn' fun a => ?_)
      by_cases ha : j = a
      · subst ha
        rw [Memory.read_of_risingFrom m j j hm' (Nat.le_refl j), Memory.read_of_risingFrom n j j hn' (Nat.le_refl j)]
      · simpa [Memory.read, ha] using h a

theorem Memory.ext_of_wf (m n : Memory) (hm : m.wf = true) (hn : n.wf = true) (h : ∀ a, m.read a = n.read a) :
    m = n := Memory.risingFrom_ext none m n hm hn h

/-! What a memory lists -/

theorem Memory.mem_erase (m : Memory) (a : Nat) (x : Host.Cell) (h : x ∈ m.erase a) : x ∈ m := by
  induction m with
  | nil => exact h
  | cons y m ih =>
    obtain ⟨k, b⟩ := y
    simp only [Memory.erase] at h
    split at h
    · exact List.mem_cons_of_mem _ h
    · rcases List.mem_cons.1 h with rfl | h
      · exact List.mem_cons_self
      · exact List.mem_cons_of_mem _ (ih h)

theorem Memory.mem_insert (m : Memory) (a : Nat) (b : Byte) (x : Host.Cell) (h : x ∈ m.insert a b) :
    x ∈ m ∨ x = (a, b) := by
  induction m with
  | nil => exact Or.inr (by simpa [Memory.insert] using h)
  | cons y m ih =>
    obtain ⟨k, c⟩ := y
    simp only [Memory.insert] at h
    split at h
    · rcases List.mem_cons.1 h with rfl | h
      · exact Or.inr rfl
      · exact Or.inl h
    · split at h
      · rcases List.mem_cons.1 h with rfl | h
        · exact Or.inr rfl
        · exact Or.inl (List.mem_cons_of_mem _ h)
      · rcases List.mem_cons.1 h with rfl | h
        · exact Or.inl List.mem_cons_self
        · exact (ih h).imp (List.mem_cons_of_mem _) id

/-- A write lists no address but those listed before and its own. -/
theorem Memory.mem_write (m : Memory) (a : Nat) (b : Byte) (x : Host.Cell) (h : x ∈ m.write a b) :
    x ∈ m ∨ x.1 = a := by
  unfold Memory.write at h
  split at h
  · exact Or.inl (m.mem_erase a x h)
  · exact (m.mem_insert a b x h).imp id fun e => by rw [e]

theorem Memory.mem_writeAll (m : Memory) (w : List (Nat × Byte)) (x : Host.Cell) (h : x ∈ m.writeAll w) :
    x ∈ m ∨ ∃ y ∈ w, x.1 = y.1 := by
  induction w generalizing m with
  | nil => exact Or.inl h
  | cons y w ih =>
    rcases ih _ h with h | ⟨z, hz, hx⟩
    · exact (m.mem_write y.1 y.2 x h).imp id fun e => ⟨y, List.mem_cons_self, e⟩
    · exact Or.inr ⟨z, List.mem_cons_of_mem _ hz, hx⟩

/-! Doublewords -/

theorem Memory.readDw_toNat (m : Memory) (a : Nat) :
    (m.readDw a).toNat = beValue ((List.range 8).map fun k => m.read (a + k)) := by
  rw [Memory.readDw, BitVec.toNat_ofNat, Nat.mod_eq_of_lt]
  have h := beValue_lt ((List.range 8).map fun k => m.read (a + k))
  simpa using h

/-- A byte of a doubleword read (R62): byte `k` has weight 256^(7-k). -/
theorem Memory.readDw_byte (m : Memory) (a k : Nat) (hk : k < 8) :
    (m.readDw a).toNat / 256 ^ (7 - k) % 256 = (m.read (a + k)).toNat := by
  rw [m.readDw_toNat]
  have e : (List.range 8).map (fun k => m.read (a + k)) =
      [m.read (a + 0), m.read (a + 1), m.read (a + 2), m.read (a + 3), m.read (a + 4), m.read (a + 5), m.read (a + 6),
        m.read (a + 7)] := rfl
  simp only [e, beValue, List.foldl_cons, List.foldl_nil]
  have h0 := (m.read (a + 0)).isLt
  have h1 := (m.read (a + 1)).isLt
  have h2 := (m.read (a + 2)).isLt
  have h3 := (m.read (a + 3)).isLt
  have h4 := (m.read (a + 4)).isLt
  have h5 := (m.read (a + 5)).isLt
  have h6 := (m.read (a + 6)).isLt
  have h7 := (m.read (a + 7)).isLt
  interval_cases k <;> norm_num <;> omega

/-- A bit of a doubleword read is a bit of one byte. -/
theorem Memory.readDw_getLsbD (m : Memory) (a k j : Nat) (hk : k < 8) (hj : j < 8) :
    (m.readDw a).getLsbD (8 * (7 - k) + j) = (m.read (a + k)).getLsbD j := by
  rw [← BitVec.testBit_toNat, ← BitVec.testBit_toNat, ← m.readDw_byte a k hk, show (256 : Nat) = 2 ^ 8 from rfl,
    ← pow_mul, Nat.testBit_mod_two_pow, Nat.testBit_div_two_pow]
  simp [hj, Nat.add_comm]

/-- R of the PTE at `t` is bit 0x01 of byte `t + 14` (R101, R122). -/
theorem pteR_pteAt (s : State) (t : PA) : pteR (s.pteAt t) = (s.mem.read (t.toNat + 14)).getLsbD 0 :=
  s.mem.readDw_getLsbD (t.toNat + 8) 6 0 (by omega) (by omega)

/-- C of the PTE at `t` is bit 0x80 of byte `t + 15` (R101, R122). -/
theorem pteC_pteAt (s : State) (t : PA) : pteC (s.pteAt t) = (s.mem.read (t.toNat + 15)).getLsbD 7 :=
  s.mem.readDw_getLsbD (t.toNat + 8) 7 7 (by omega) (by omega)

theorem byte_or_01 (b : Byte) (h : b.getLsbD 0 = true) : b ||| 0x01 = b := by
  revert b
  decide

theorem byte_or_80 (b : Byte) (h : b.getLsbD 7 = true) : b ||| 0x80 = b := by
  revert b
  decide

/-! Presence -/

theorem firstAbsent_eq_none (c : Config) (as : List Nat) :
    firstAbsent c as = none ↔ ∀ a ∈ as, presentAt c a = true := by
  simp [firstAbsent]

theorem firstAbsent_eq_some (c : Config) (as : List Nat) (a : Nat) (h : firstAbsent c as = some a) :
    a ∈ as ∧ presentAt c a = false := by
  refine ⟨List.mem_of_find?_eq_some h, ?_⟩
  simpa using List.find?_some h

/-- The first absent byte of a range, by its offset. -/
theorem firstAbsent_bytesFrom_absent (c : Config) (a n k : Nat) (hk : k < n) (h : presentAt c (a + k) = false)
    (hj : ∀ j, j < k → presentAt c (a + j) = true) : firstAbsent c (bytesFrom a n) = some (a + k) := by
  rw [firstAbsent, bytesFrom, List.find?_map, Option.map_eq_some_iff]
  refine ⟨k, ?_, rfl⟩
  rw [List.find?_range_eq_some]
  simpa [h, hk] using hj

theorem firstAbsent_bytesFrom (c : Config) (a n : Nat) (h : ∀ k, k < n → presentAt c (a + k) = true) :
    firstAbsent c (bytesFrom a n) = none := by
  rw [firstAbsent_eq_none]
  intro x hx
  simp only [bytesFrom, List.mem_map, List.mem_range] at hx
  obtain ⟨k, hk, rfl⟩ := hx
  exact h k hk

end Sys2Proof.Machine
end

