-- ==== Sys2Proof/Laws/Access.lean ====
section
/-! SUPPORT. What an access can do, said once: the frame of the translation unit's work (spec/20_memory.md R119 to R123,
spec/10_state.md R41), and the cases of a load, a store, a privileged instruction and a step. Later proofs cite these
instead of unfolding the operations. -/

namespace Sys2Proof.Machine

/-- The state an operation leaves, whatever its result. -/
def Res.state {α : Type} : Res α → State
  | .ok _ s => s
  | .fail _ s => s

@[simp] theorem Res.state_ok {α : Type} (a : α) (s : State) : (Res.ok a s).state = s := rfl
@[simp] theorem Res.state_fail {α : Type} (f : Failure) (s : State) : (Res.fail f s : Res α).state = s := rfl

/-- What the translation unit and the TLB agent may change: memory bytes at present addresses, the TLB and its window
where there is a TLB, and the count of draws. -/
structure State.UnitFrame (s t : State) : Prop where
  regs : s.SameRegisters t
  pc : t.pc = s.pc
  msrWindow : t.msrWindow = s.msrWindow
  slbWindow : t.slbWindow = s.slbWindow
  sdr1Window : t.sdr1Window = s.sdr1Window
  pteWindow : t.pteWindow = s.pteWindow
  memWf : s.mem.wf = true → t.mem.wf = true
  memPresent : (∀ x ∈ s.mem, presentAt s.cfg x.1 = true) → ∀ x ∈ t.mem, presentAt s.cfg x.1 = true
  noTlb : s.cfg.tlbPresent = false → s.tlb = [] ∧ s.tlbWindow = [] → t.tlb = [] ∧ t.tlbWindow = []

theorem State.SameRegisters.refl (s : State) : s.SameRegisters s := ⟨rfl, rfl, rfl, rfl, rfl, rfl, rfl, rfl, rfl⟩

theorem State.SameRegisters.trans {s t u : State} (h : s.SameRegisters t) (g : t.SameRegisters u) :
    s.SameRegisters u :=
  ⟨g.gpr.trans h.gpr, g.msr.trans h.msr, g.sdr1.trans h.sdr1, g.slb.trans h.slb, g.srr0.trans h.srr0,
    g.srr1.trans h.srr1, g.dar.trans h.dar, g.dsisr.trans h.dsisr, g.cfg.trans h.cfg⟩

theorem State.UnitFrame.refl (s : State) : s.UnitFrame s :=
  ⟨.refl s, rfl, rfl, rfl, rfl, rfl, id, id, fun _ => id⟩

theorem State.UnitFrame.trans {s t u : State} (h : s.UnitFrame t) (g : t.UnitFrame u) : s.UnitFrame u where
  regs := h.regs.trans g.regs
  pc := g.pc.trans h.pc
  msrWindow := g.msrWindow.trans h.msrWindow
  slbWindow := g.slbWindow.trans h.slbWindow
  sdr1Window := g.sdr1Window.trans h.sdr1Window
  pteWindow := g.pteWindow.trans h.pteWindow
  memWf := fun w => g.memWf (h.memWf w)
  memPresent := fun w => by
    have := g.memPresent (by rw [h.regs.cfg]; exact h.memPresent w)
    rwa [h.regs.cfg] at this
  noTlb := fun c w => g.noTlb (by rw [h.regs.cfg]; exact c) (h.noTlb c w)

/-- Drawing a free value changes the count of draws alone. -/
theorem State.UnitFrame.draw (s : State) (n : Nat) : s.UnitFrame { s with draws := n } :=
  ⟨⟨rfl, rfl, rfl, rfl, rfl, rfl, rfl, rfl, rfl⟩, rfl, rfl, rfl, rfl, rfl, id, id, fun _ => id⟩

theorem State.tlbAgent_frame (s : State) : s.UnitFrame s.tlbAgent where
  regs := by constructor <;> simp
  pc := by simp
  msrWindow := by simp
  slbWindow := by simp
  sdr1Window := by simp
  pteWindow := by simp
  memWf := by simp
  memPresent := by simp
  noTlb := fun c w => by simpa [c] using w

theorem State.tlbAfter_frame (s : State) (d : Nat) (x : Found) (w : Bool) : s.UnitFrame (s.tlbAfter d x w) where
  regs := by constructor <;> simp
  pc := by simp
  msrWindow := by simp
  slbWindow := by simp
  sdr1Window := by simp
  pteWindow := by simp
  memWf := by simp
  memPresent := by simp
  noTlb := fun c h => by
    unfold State.tlbAfter
    split
    · simp [State.markCopy, h]
    · simpa [c] using h

/-- A byte set by the translation unit (R122): a machine check where nothing is present, else that byte alone. -/
theorem orByte_cases (s : State) (a : Nat) (m : Byte) :
    (presentAt s.cfg a = false ∧ orByte s a m = .fail (.machineCheck a) s) ∨
      (presentAt s.cfg a = true ∧ orByte s a m = .ok () { s with mem := s.mem.write a (s.mem.read a ||| m) }) := by
  cases h : presentAt s.cfg a <;> simp [orByte, firstAbsent, h]

theorem orByte_frame (s : State) (a : Nat) (m : Byte) : s.UnitFrame (orByte s a m).state := by
  rcases orByte_cases s a m with ⟨-, h⟩ | ⟨hp, h⟩
  · rw [h]
    exact .refl s
  · rw [h]
    refine ⟨⟨rfl, rfl, rfl, rfl, rfl, rfl, rfl, rfl, rfl⟩, rfl, rfl, rfl, rfl, rfl, s.mem.wf_write _ _, ?_, fun _ => id⟩
    intro w x hx
    rcases s.mem.mem_write _ _ x hx with hx | hx
    · exact w x hx
    · rw [hx]
      exact hp

theorem recordFound_frame (s : State) (d : Nat) (x : Found) (w : Bool) : s.UnitFrame (recordFound s d x w).state := by
  have h0 := s.tlbAfter_frame d x w
  have h1 : s.UnitFrame
      (if pteR x.pte then Res.ok () (s.tlbAfter d x w) else orByte (s.tlbAfter d x w) (x.addr.toNat + 14) 0x01).state := by
    split
    · exact h0
    · exact h0.trans (orByte_frame _ _ _)
  unfold recordFound
  revert h1
  dsimp only
  cases (if pteR x.pte then Res.ok () (s.tlbAfter d x w) else orByte (s.tlbAfter d x w) (x.addr.toNat + 14) 0x01) with
  | fail f t => exact fun h => h
  | ok u t =>
    intro h
    dsimp only
    split
    · exact h.trans (orByte_frame _ _ _)
    · exact h

theorem orByte_tlb (s : State) (a : Nat) (m : Byte) :
    (orByte s a m).state.tlb = s.tlb ∧ (orByte s a m).state.tlbWindow = s.tlbWindow := by
  rcases orByte_cases s a m with ⟨-, h⟩ | ⟨-, h⟩ <;> rw [h] <;> exact ⟨rfl, rfl⟩

/-- Setting R and C leaves the TLB as `tlbAfter` has made it (R87, R122). -/
theorem recordFound_tlb (s : State) (d : Nat) (x : Found) (w : Bool) :
    (recordFound s d x w).state.tlb = (s.tlbAfter d x w).tlb ∧
      (recordFound s d x w).state.tlbWindow = (s.tlbAfter d x w).tlbWindow := by
  have h1 : (if pteR x.pte then Res.ok () (s.tlbAfter d x w)
      else orByte (s.tlbAfter d x w) (x.addr.toNat + 14) 0x01).state.tlb = (s.tlbAfter d x w).tlb ∧
      (if pteR x.pte then Res.ok () (s.tlbAfter d x w)
      else orByte (s.tlbAfter d x w) (x.addr.toNat + 14) 0x01).state.tlbWindow = (s.tlbAfter d x w).tlbWindow := by
    split
    · exact ⟨rfl, rfl⟩
    · exact orByte_tlb _ _ _
  unfold recordFound
  revert h1
  dsimp only
  cases (if pteR x.pte then Res.ok () (s.tlbAfter d x w) else orByte (s.tlbAfter d x w) (x.addr.toNat + 14) 0x01) with
  | fail f t => exact id
  | ok u t =>
    intro h
    dsimp only
    split
    · exact ⟨(orByte_tlb _ _ _).1.trans h.1, (orByte_tlb _ _ _).2.trans h.2⟩
    · exact h

/-- An access that has used no TLB copy leaves the window of removed entries alone. -/
theorem recordFound_tlbWindow_of_search (s : State) (d : Nat) (x : Found) (w : Bool) (h : x.copy = none) :
    (recordFound s d x w).state.tlbWindow = s.tlbWindow := by
  rw [(recordFound_tlb s d x w).2]
  simp only [State.tlbAfter, h]
  split <;> rfl

theorem recordPart_frame (s : State) (d : Nat) (x : Xlat) (w : Bool) : s.UnitFrame (recordPart s d x w).state := by
  unfold recordPart
  split
  · exact .refl s
  · exact recordFound_frame s d _ w

theorem maybeReferenced_frame (s : State) (d : Nat) (x : Xlat) : s.UnitFrame (maybeReferenced s d x) := by
  have h := recordPart_frame s d x false
  have g : s.UnitFrame (match recordPart s d x false with | .ok () t => t | .fail _ _ => s) := by
    revert h
    cases recordPart s d x false with
    | ok u t => exact id
    | fail f t => exact fun _ => .refl s
  unfold maybeReferenced
  cases Config.freeBool d .firstPartR with
  | false => exact .refl s
  | true => exact ⟨⟨rfl, rfl, rfl, rfl, rfl, rfl, rfl, rfl, rfl⟩, rfl, rfl, rfl, rfl, rfl, g.memWf, g.memPresent, g.noTlb⟩

/-- Whatever the result of steps 1 to 7 of R115, only the translation unit's frame has changed. -/
theorem translateAccess_frame (s : State) (ea : Word) (n : Nat) (kind : AccessKind) :
    s.UnitFrame (translateAccess s ea n kind).state := by
  have h0 := State.UnitFrame.draw s (s.draws + 2)
  unfold translateAccess
  dsimp only
  cases translate { s with draws := s.draws + 2 } s.draws ea kind with
  | error f => exact h0
  | ok x =>
    dsimp only
    have hx := h0.trans (recordPart_frame { s with draws := s.draws + 2 } s.draws x (kind == .store))
    split
    · revert hx
      cases recordPart { s with draws := s.draws + 2 } s.draws x (kind == .store) <;> exact id
    · cases translate { s with draws := s.draws + 2 } (s.draws + 1) (secondPartEa ea n) kind with
      | error f => exact h0.trans (maybeReferenced_frame _ _ _)
      | ok y =>
        dsimp only
        revert hx
        cases recordPart { s with draws := s.draws + 2 } s.draws x (kind == .store) with
        | fail f t => exact id
        | ok u t =>
          intro hx
          have hy := hx.trans (recordPart_frame t (s.draws + 1) y (kind == .store))
          dsimp only
          revert hy
          cases recordPart t (s.draws + 1) y (kind == .store) <;> exact id

theorem translateAccess_ok (s u : State) (ea : Word) (n : Nat) (kind : AccessKind) (as : List Nat)
    (h : translateAccess s ea n kind = .ok as u) : s.UnitFrame u := by
  have hf := translateAccess_frame s ea n kind
  rwa [h] at hf

theorem translateAccess_fail (s u : State) (ea : Word) (n : Nat) (kind : AccessKind) (f : Failure)
    (h : translateAccess s ea n kind = .fail f u) : s.UnitFrame u := by
  have hf := translateAccess_frame s ea n kind
  rwa [h] at hf

/-! Step 7, where the PTE is present -/

theorem orByte_of_present (s : State) (a : Nat) (m : Byte) (h : presentAt s.cfg a = true) :
    orByte s a m = .ok () { s with mem := s.mem.write a (s.mem.read a ||| m) } := by
  simp [orByte, firstAbsent, h]

/-- What step 7 does to every byte of memory (R120 to R122). -/
theorem recordFound_read (s : State) (d : Nat) (x : Found) (w : Bool) (hw : s.mem.wf = true)
    (h14 : presentAt s.cfg (x.addr.toNat + 14) = true) (h15 : presentAt s.cfg (x.addr.toNat + 15) = true) :
    ∃ u, recordFound s d x w = .ok () u ∧ ∀ a, u.mem.read a =
      if a = x.addr.toNat + 14 ∧ pteR x.pte = false then s.mem.read a ||| 0x01
      else if a = x.addr.toNat + 15 ∧ w = true ∧ pteC x.pte = false then s.mem.read a ||| 0x80
      else s.mem.read a := by
  unfold recordFound
  cases hR : pteR x.pte <;> cases hC : pteC x.pte <;> cases w <;>
    simp [orByte_of_present, h14, h15, Memory.read_write, Memory.wf_write, hw]
  all_goals
    intro a
    by_cases e1 : a = x.addr.toNat + 14 <;> by_cases e2 : a = x.addr.toNat + 15 <;> simp_all

/-- Step 7 for the PTE that memory holds at `t`, whatever its R and C were. -/
theorem recordFound_pteAt (s : State) (d : Nat) (vpn : VPN) (t : PA) (w : Bool) (hw : s.mem.wf = true)
    (h : ∀ k, k < 16 → presentAt s.cfg (t.toNat + k) = true) :
    ∃ u, recordFound s d ⟨vpn, s.pteAt t, t, none⟩ w = .ok () u ∧ ∀ a, u.mem.read a =
      if a = t.toNat + 14 then s.mem.read a ||| 0x01
      else if a = t.toNat + 15 ∧ w = true then s.mem.read a ||| 0x80
      else s.mem.read a := by
  obtain ⟨u, h1, h2⟩ := recordFound_read s d ⟨vpn, s.pteAt t, t, none⟩ w hw (h 14 (by omega)) (h 15 (by omega))
  refine ⟨u, h1, fun a => ?_⟩
  rw [h2]
  have r := byte_or_01 (s.mem.read (t.toNat + 14))
  have c := byte_or_80 (s.mem.read (t.toNat + 15))
  rw [← pteR_pteAt] at r
  rw [← pteC_pteAt] at c
  by_cases e1 : a = t.toNat + 14
  · subst e1
    cases hR : pteR (s.pteAt t) <;> simp_all
  · by_cases e2 : a = t.toNat + 15
    · subst e2
      cases hC : pteC (s.pteAt t) <;> cases w <;> simp_all
    · simp [e1, e2]

/-! What step 7 leaves alone (R122) -/

theorem orByte_read (s : State) (a c : Nat) (m : Byte) (h : c ≠ a) : (orByte s a m).state.mem.read c = s.mem.read c := by
  rcases orByte_cases s a m with ⟨-, e⟩ | ⟨-, e⟩
  · rw [e]
    rfl
  · rw [e]; exact s.mem.read_write_of_ne a c _ h

theorem recordFound_read_of_ne (s : State) (d : Nat) (x : Found) (w : Bool) (c : Nat) (h1 : c ≠ x.addr.toNat + 14)
    (h2 : w = true → c ≠ x.addr.toNat + 15) : (recordFound s d x w).state.mem.read c = s.mem.read c := by
  have h0 : (s.tlbAfter d x w).mem = s.mem := by simp
  have h3 : (if pteR x.pte then Res.ok () (s.tlbAfter d x w) else
      orByte (s.tlbAfter d x w) (x.addr.toNat + 14) 0x01).state.mem.read c = s.mem.read c := by
    split
    · rw [Res.state_ok, h0]
    · rw [orByte_read _ _ _ _ h1, h0]
  unfold recordFound
  revert h3
  dsimp only
  cases (if pteR x.pte then Res.ok () (s.tlbAfter d x w) else orByte (s.tlbAfter d x w) (x.addr.toNat + 14) 0x01) with
  | fail f t => exact id
  | ok u t =>
    intro h3
    dsimp only
    split
    · rename_i hw
      rw [orByte_read _ _ _ _ (h2 (by simp_all)), ← h3]; rfl
    · exact h3

/-- The bytes that step 7 may change for one part. -/
theorem recordPart_read_of_not_mem (s : State) (d : Nat) (x : Xlat) (w : Bool) (c : Nat)
    (h : ∀ f, x.found = some f → c ≠ f.addr.toNat + 14 ∧ (w = true → c ≠ f.addr.toNat + 15)) :
    (recordPart s d x w).state.mem.read c = s.mem.read c := by
  unfold recordPart
  split
  · rfl
  · rename_i f hf
    exact recordFound_read_of_ne _ _ _ _ _ (h f hf).1 (h f hf).2

theorem maybeReferenced_read_of_ne (s : State) (d : Nat) (x : Xlat) (c : Nat)
    (h : ∀ f, x.found = some f → c ≠ f.addr.toNat + 14) :
    (maybeReferenced s d x).mem.read c = s.mem.read c := by
  have h3 := recordPart_read_of_not_mem s d x false c (fun f hf => ⟨h f hf, by simp⟩)
  unfold maybeReferenced
  dsimp only
  split
  · revert h3
    cases recordPart s d x false with
    | ok u t => exact id
    | fail f t => exact fun _ => rfl
  · rfl

theorem ne_of_not_mem_historyBytes (kind : AccessKind) (c : Nat) (x : Xlat) (l : List Xlat) (hx : x ∈ l)
    (h : c ∉ l.flatMap fun x => match x.found with
      | none => []
      | some f => if kind = .store then [f.addr.toNat + 14, f.addr.toNat + 15] else [f.addr.toNat + 14]) :
    ∀ f, x.found = some f → c ≠ f.addr.toNat + 14 ∧ ((kind == .store) = true → c ≠ f.addr.toNat + 15) := by
  intro f hf
  rw [List.mem_flatMap] at h
  constructor
  · rintro rfl
    refine h ⟨x, hx, ?_⟩
    rw [hf]
    dsimp only
    split <;> simp
  · rintro hw rfl
    refine h ⟨x, hx, ?_⟩
    rw [hf]
    dsimp only
    rw [if_pos (by simpa using hw)]
    simp

/-- Steps 1 to 7 of R115 change no byte but those of `historyBytes`. -/
theorem translateAccess_read (s : State) (ea : Word) (n : Nat) (kind : AccessKind) (c : Nat)
    (h : c ∉ s.historyBytes ea n kind) : (translateAccess s ea n kind).state.mem.read c = s.mem.read c := by
  unfold State.historyBytes State.partsOf at h
  unfold translateAccess
  dsimp only
  rw [show translate { s with draws := s.draws + 2 } s.draws ea kind = translate s s.draws ea kind from rfl,
    show translate { s with draws := s.draws + 2 } (s.draws + 1) (secondPartEa ea n) kind =
      translate s (s.draws + 1) (secondPartEa ea n) kind from rfl]
  cases hx : translate s s.draws ea kind with
  | error f => rfl
  | ok x =>
    rw [hx] at h
    dsimp only at h ⊢
    by_cases hn : firstPartLen ea n = n
    · rw [if_pos hn] at h ⊢
      have := recordPart_read_of_not_mem { s with draws := s.draws + 2 } s.draws x (kind == .store) c
        (ne_of_not_mem_historyBytes kind c x _ (by simp) h)
      revert this
      cases recordPart { s with draws := s.draws + 2 } s.draws x (kind == .store) <;> exact id
    · rw [if_neg hn] at h ⊢
      cases hy : translate s (s.draws + 1) (secondPartEa ea n) kind with
      | error f =>
        rw [hy] at h
        dsimp only at h ⊢
        have := ne_of_not_mem_historyBytes kind c x _ (by simp) h
        exact maybeReferenced_read_of_ne { s with draws := s.draws + 2 } s.draws x c (fun f hf => (this f hf).1)
      | ok y =>
        rw [hy] at h
        dsimp only at h ⊢
        have := recordPart_read_of_not_mem { s with draws := s.draws + 2 } s.draws x (kind == .store) c
          (ne_of_not_mem_historyBytes kind c x _ (by simp) h)
        revert this
        cases recordPart { s with draws := s.draws + 2 } s.draws x (kind == .store) with
        | fail f t => exact id
        | ok u t =>
          intro h1
          dsimp only
          have := recordPart_read_of_not_mem t (s.draws + 1) y (kind == .store) c
            (ne_of_not_mem_historyBytes kind c y _ (by simp) h)
          rw [show t.mem.read c = s.mem.read c from h1] at this
          revert this
          cases recordPart t (s.draws + 1) y (kind == .store) <;> exact id

/-! The parts of an access -/

/-- An access that ends within its page has one part (R66). -/
theorem firstPartLen_within (ea : Word) (n : Nat) (h : ea.toNat % 4096 + n ≤ 4096) : firstPartLen ea n = n := by
  simp [firstPartLen, eaOffset, slice]
  omega

/-- An access that does not end within its page has a first part up to the boundary, and its second part begins at the
next page (R66). -/
theorem firstPartLen_crossing (ea : Word) (n : Nat) (h : 4096 < ea.toNat % 4096 + n) :
    firstPartLen ea n = 4096 - ea.toNat % 4096 := by
  simp [firstPartLen, eaOffset, slice]
  omega

/-- The cases of MemRead (R11, R64). -/
theorem memRead_cases (s : State) (ea : Word) (n : Nat) (kind : AccessKind) :
    (∃ f u, translateAccess s ea n kind = .fail f u ∧ memRead s ea n kind = .fail f u) ∨
    (∃ as u a, translateAccess s ea n kind = .ok as u ∧ firstAbsent s.cfg as = some a ∧
      memRead s ea n kind = .fail (.machineCheck a) u) ∨
    (∃ as u, translateAccess s ea n kind = .ok as u ∧ firstAbsent s.cfg as = none ∧
      memRead s ea n kind = .ok (as.map u.mem.read) u) := by
  have hf := translateAccess_frame s ea n kind
  unfold memRead
  revert hf
  cases translateAccess s ea n kind with
  | fail f u => exact fun _ => .inl ⟨f, u, rfl, rfl⟩
  | ok as u =>
    intro hf
    have hc : u.cfg = s.cfg := hf.regs.cfg
    cases h : firstAbsent s.cfg as with
    | some a => exact .inr (.inl ⟨as, u, a, rfl, h, by simp [hc, h]⟩)
    | none => exact .inr (.inr ⟨as, u, rfl, h, by simp [hc, h]⟩)

theorem memRead_frame (s : State) (ea : Word) (n : Nat) (kind : AccessKind) :
    s.UnitFrame (memRead s ea n kind).state := by
  have hf := translateAccess_frame s ea n kind
  rcases memRead_cases s ea n kind with ⟨f, u, h, hr⟩ | ⟨as, u, a, h, -, hr⟩ | ⟨as, u, h, -, hr⟩ <;>
    · rw [h] at hf
      rw [hr]
      exact hf

/-- The cases of MemWrite (R11, R64, R66): a failure of the translation, an absent byte, or every byte written. -/
theorem memWrite_cases (s : State) (ea : Word) (bs : List Byte) :
    (∃ f u, translateAccess s ea bs.length .store = .fail f u ∧ memWrite s ea bs = .fail f u) ∨
    (∃ as u a, translateAccess s ea bs.length .store = .ok as u ∧ firstAbsent s.cfg as = some a ∧
      memWrite s ea bs = .fail (.machineCheck a) u) ∨
    (∃ as u, translateAccess s ea bs.length .store = .ok as u ∧ firstAbsent s.cfg as = none ∧
      memWrite s ea bs = .ok () (u.tlbAgent.storeBytes as bs)) := by
  have hf := translateAccess_frame s ea bs.length .store
  unfold memWrite
  revert hf
  cases translateAccess s ea bs.length .store with
  | fail f u => exact fun _ => .inl ⟨f, u, rfl, rfl⟩
  | ok as u =>
    intro hf
    have hc : u.cfg = s.cfg := hf.regs.cfg
    cases h : firstAbsent s.cfg as with
    | some a => exact .inr (.inl ⟨as, u, a, rfl, h, by simp [hc, h]⟩)
    | none => exact .inr (.inr ⟨as, u, rfl, h, by simp [hc, h]⟩)

/-! Outcomes -/

/-- A failure gives a next state only by taking an exception. -/
theorem raise_next (f : Failure) (s t : State) : raise f s = .next t ↔ ∃ e, f = .exc e ∧ t = s.takeException e := by
  cases f with
  | exc e =>
    simp only [raise, Host.Outcome.next.injEq, Failure.exc.injEq]
    exact ⟨fun h => ⟨e, rfl, h.symm⟩, fun ⟨e', h, ht⟩ => by rw [h, ht]⟩
  | machineCheck a => simp [raise]
  | refuse r => simp [raise]

/-- The privilege check (R148), by the mode. -/
theorem privileged_user (s : State) (o : Host.Outcome State Fault Refusal) (h : msrPR s.msr = true) :
    privileged s o = .next (s.takeException .programPrivileged) := by
  simp [privileged, h, raise]

theorem privileged_supervisor (s : State) (o : Host.Outcome State Fault Refusal) (h : msrPR s.msr = false) :
    privileged s o = o := by
  simp [privileged, h]

/-- The two ways a privileged instruction gives a next state. -/
theorem privileged_next (s t : State) (o : Host.Outcome State Fault Refusal) :
    privileged s o = .next t ↔
      (msrPR s.msr = true ∧ t = s.takeException .programPrivileged) ∨ (msrPR s.msr = false ∧ o = .next t) := by
  cases h : msrPR s.msr <;> simp [privileged, h, raise, eq_comm]

/-- A load completes where its parts translate and its bytes are present. -/
theorem loadInto_of_ok (rt : Reg) (ea : Word) (n : Nat) (s u : State) (as : List Nat)
    (h : translateAccess s ea n .load = .ok as u) (hp : firstAbsent s.cfg as = none) :
    loadInto rt ea n s = .next (u.setGpr rt (BitVec.ofNat 64 (beValue (as.map u.mem.read)))).nextPc := by
  have hf := translateAccess_frame s ea n .load
  rw [h] at hf
  have hc : u.cfg = s.cfg := hf.regs.cfg
  simp [loadInto, memRead, h, hc, hp]

/-- A store completes where its parts translate and its bytes are present. -/
theorem storeFrom_of_ok (ea : Word) (bs : List Byte) (s u : State) (as : List Nat)
    (h : translateAccess s ea bs.length .store = .ok as u) (hp : firstAbsent s.cfg as = none) :
    storeFrom ea bs s = .next (u.tlbAgent.storeBytes as bs).nextPc := by
  have hf := translateAccess_frame s ea bs.length .store
  rw [h] at hf
  have hc : u.cfg = s.cfg := hf.regs.cfg
  simp [storeFrom, memWrite, h, hc, hp]

/-- A load whose translation succeeds and whose first absent byte is at `a` ends the run there (R64, R216). -/
theorem loadInto_of_absent (rt : Reg) (ea : Word) (n : Nat) (s u : State) (as : List Nat) (a : Nat)
    (h : translateAccess s ea n .load = .ok as u) (hp : firstAbsent s.cfg as = some a) :
    loadInto rt ea n s = .fault (.machineCheck a u) := by
  have hf := translateAccess_frame s ea n .load
  rw [h] at hf
  have hc : u.cfg = s.cfg := hf.regs.cfg
  simp [loadInto, memRead, h, hc, hp, raise]

/-- A store whose translation succeeds and whose first absent byte is at `a` ends the run there (R64, R216). -/
theorem storeFrom_of_absent (ea : Word) (bs : List Byte) (s u : State) (as : List Nat) (a : Nat)
    (h : translateAccess s ea bs.length .store = .ok as u) (hp : firstAbsent s.cfg as = some a) :
    storeFrom ea bs s = .fault (.machineCheck a u) := by
  have hf := translateAccess_frame s ea bs.length .store
  rw [h] at hf
  have hc : u.cfg = s.cfg := hf.regs.cfg
  simp [storeFrom, memWrite, h, hc, hp, raise]

/-- A store of the program opens the window of R127 and R262 on what it stores to, and no other. -/
theorem State.storeBytes_windows (s : State) (as : List Nat) (bs : List Byte) :
    s.StoreWindows (s.storeBytes as bs) as s.mem :=
  ⟨⟨_, rfl, by simp [doublewordsOf, eq_comm, and_comm]⟩, rfl, rfl, rfl, rfl⟩

/-- The two ways a load gives a next state: the register is written, or an exception is taken. -/
theorem loadInto_next (rt : Reg) (ea : Word) (n : Nat) (s t : State) (h : loadInto rt ea n s = .next t) :
    (∃ as u, translateAccess s ea n .load = .ok as u ∧ firstAbsent s.cfg as = none ∧
      t = (u.setGpr rt (BitVec.ofNat 64 (beValue (as.map u.mem.read)))).nextPc) ∨
    (∃ e u, translateAccess s ea n .load = .fail (.exc e) u ∧ t = u.takeException e) := by
  unfold loadInto at h
  rcases memRead_cases s ea n .load with ⟨f, u, ht, hr⟩ | ⟨as, u, a, -, -, hr⟩ | ⟨as, u, ht, ha, hr⟩
  · rw [hr] at h
    obtain ⟨e, rfl, rfl⟩ := (raise_next f u t).1 h
    exact .inr ⟨e, u, ht, rfl⟩
  · rw [hr] at h
    simp [raise] at h
  · rw [hr] at h
    exact .inl ⟨as, u, ht, ha, by simpa using h.symm⟩

/-- The two ways a store gives a next state: the bytes are written, or an exception is taken. -/
theorem storeFrom_next (ea : Word) (bs : List Byte) (s t : State) (h : storeFrom ea bs s = .next t) :
    (∃ as u, translateAccess s ea bs.length .store = .ok as u ∧ firstAbsent s.cfg as = none ∧
      t = (u.tlbAgent.storeBytes as bs).nextPc) ∨
    (∃ e u, translateAccess s ea bs.length .store = .fail (.exc e) u ∧ t = u.takeException e) := by
  unfold storeFrom at h
  rcases memWrite_cases s ea bs with ⟨f, u, ht, hr⟩ | ⟨as, u, a, -, -, hr⟩ | ⟨as, u, ht, ha, hr⟩
  · rw [hr] at h
    obtain ⟨e, rfl, rfl⟩ := (raise_next f u t).1 h
    exact .inr ⟨e, u, ht, rfl⟩
  · rw [hr] at h
    simp [raise] at h
  · rw [hr] at h
    exact .inl ⟨as, u, ht, ha, by simpa using h.symm⟩

/-- The two ways a step gives a next state: the fetch takes an exception, or the decoded instruction runs. -/
theorem step_next (s t : State) (h : step s = .next t) :
    unsupportedMode s = none ∧
      ((∃ e u, fetchBytes s.tlbAgent = .fail (.exc e) u ∧ t = u.takeException e) ∨
       (∃ bs u i rest, fetchBytes s.tlbAgent = .ok bs u ∧ decode bs = .ok (i, rest) ∧
         exec i u.tlbAgent = .next t)) := by
  unfold step at h
  split at h
  · cases h
  · rename_i hm
    refine ⟨hm, ?_⟩
    split at h
    · rename_i f u hf
      obtain ⟨e, rfl, rfl⟩ := (raise_next f u t).1 h
      exact .inl ⟨e, u, hf, rfl⟩
    · rename_i bs u hf
      split at h
      · cases h
      · rename_i i rest hd
        exact .inr ⟨bs, u, i, rest, hf, hd, h⟩

end Sys2Proof.Machine
end

