-- ==== Sys2Proof/Laws/PerInstr.lean ====
section
/-! SUPPORT. Statements made for every instruction, one lemma per constructor: `TableRow`, that the word of an
instruction belongs to the instruction's own row of R149. -/

namespace Sys2Proof.Laws.TableRow

/-- The table has a row with the instruction's mnemonic, and the instruction's word has that row's opcode, extended
opcode and zero reserved fields. -/
def Statement (i : Instr) : Prop :=
  ∃ row ∈ opcodeTable, row.mnemonic = i.mnemonic ∧ encode i &&& row.mask = row.pattern

theorem slbmte (rs : Reg) (rb : Reg) : Statement (.slbmte rs rb) := by
  refine ⟨⟨"slbmte", 0x7C000324, 0xFC1F07FF⟩, by decide, rfl, BitVec.eq_of_getLsbD_eq fun i hi => ?_⟩
  simp only [encode, encodeX, BitVec.getLsbD_and, BitVec.getLsbD_append]
  interval_cases i <;> simp

theorem slbmfev (rt : Reg) (rb : Reg) : Statement (.slbmfev rt rb) := by
  refine ⟨⟨"slbmfev", 0x7C0006A6, 0xFC1F07FF⟩, by decide, rfl, BitVec.eq_of_getLsbD_eq fun i hi => ?_⟩
  simp only [encode, encodeX, BitVec.getLsbD_and, BitVec.getLsbD_append]
  interval_cases i <;> simp

theorem slbmfee (rt : Reg) (rb : Reg) : Statement (.slbmfee rt rb) := by
  refine ⟨⟨"slbmfee", 0x7C000726, 0xFC1F07FF⟩, by decide, rfl, BitVec.eq_of_getLsbD_eq fun i hi => ?_⟩
  simp only [encode, encodeX, BitVec.getLsbD_and, BitVec.getLsbD_append]
  interval_cases i <;> simp

theorem slbie (rb : Reg) : Statement (.slbie rb) := by
  refine ⟨⟨"slbie", 0x7C000364, 0xFFFF07FF⟩, by decide, rfl, BitVec.eq_of_getLsbD_eq fun i hi => ?_⟩
  simp only [encode, encodeX, BitVec.getLsbD_and, BitVec.getLsbD_append]
  interval_cases i <;> simp

theorem slbia : Statement (.slbia) := by
  exact ⟨⟨"slbia", 0x7C0003E4, 0xFFFFFFFF⟩, by decide, rfl, by decide⟩

theorem tlbie (rb : Reg) (l : BitVec 1) : Statement (.tlbie rb l) := by
  refine ⟨⟨"tlbie", 0x7C000264, 0xFFDF07FF⟩, by decide, rfl, BitVec.eq_of_getLsbD_eq fun i hi => ?_⟩
  simp only [encode, encodeX, BitVec.getLsbD_and, BitVec.getLsbD_append]
  interval_cases i <;> simp

theorem tlbia : Statement (.tlbia) := by
  exact ⟨⟨"tlbia", 0x7C0002E4, 0xFFFFFFFF⟩, by decide, rfl, by decide⟩

theorem tlbsync : Statement (.tlbsync) := by
  exact ⟨⟨"tlbsync", 0x7C00046C, 0xFFFFFFFF⟩, by decide, rfl, by decide⟩

theorem mtmsrd (rs : Reg) (l : BitVec 1) : Statement (.mtmsrd rs l) := by
  refine ⟨⟨"mtmsrd", 0x7C000164, 0xFC1EFFFF⟩, by decide, rfl, BitVec.eq_of_getLsbD_eq fun i hi => ?_⟩
  simp only [encode, encodeX, BitVec.getLsbD_and, BitVec.getLsbD_append]
  interval_cases i <;> simp

theorem mfmsr (rt : Reg) : Statement (.mfmsr rt) := by
  refine ⟨⟨"mfmsr", 0x7C0000A6, 0xFC1FFFFF⟩, by decide, rfl, BitVec.eq_of_getLsbD_eq fun i hi => ?_⟩
  simp only [encode, encodeX, BitVec.getLsbD_and, BitVec.getLsbD_append]
  interval_cases i <;> simp

theorem mtspr (spr : BitVec 10) (rs : Reg) : Statement (.mtspr spr rs) := by
  refine ⟨⟨"mtspr", 0x7C0003A6, 0xFC0007FF⟩, by decide, rfl, BitVec.eq_of_getLsbD_eq fun i hi => ?_⟩
  simp only [encode, encodeXfx, encodeX, BitVec.getLsbD_and, BitVec.getLsbD_append]
  interval_cases i <;> simp

theorem mfspr (rt : Reg) (spr : BitVec 10) : Statement (.mfspr rt spr) := by
  refine ⟨⟨"mfspr", 0x7C0002A6, 0xFC0007FF⟩, by decide, rfl, BitVec.eq_of_getLsbD_eq fun i hi => ?_⟩
  simp only [encode, encodeXfx, encodeX, BitVec.getLsbD_and, BitVec.getLsbD_append]
  interval_cases i <;> simp

theorem rfid : Statement (.rfid) := by
  exact ⟨⟨"rfid", 0x4C000024, 0xFFFFFFFF⟩, by decide, rfl, by decide⟩

theorem sync (l : BitVec 2) : Statement (.sync l) := by
  refine ⟨⟨"sync", 0x7C0004AC, 0xFF9FFFFF⟩, by decide, rfl, BitVec.eq_of_getLsbD_eq fun i hi => ?_⟩
  simp only [encode, encodeX, BitVec.getLsbD_and, BitVec.getLsbD_append]
  interval_cases i <;> simp

theorem isync : Statement (.isync) := by
  exact ⟨⟨"isync", 0x4C00012C, 0xFFFFFFFF⟩, by decide, rfl, by decide⟩

theorem lbz (rt : Reg) (ra : Reg) (d : BitVec 16) : Statement (.lbz rt ra d) := by
  refine ⟨⟨"lbz", 0x88000000, 0xFC000000⟩, by decide, rfl, BitVec.eq_of_getLsbD_eq fun i hi => ?_⟩
  simp only [encode, encodeD, BitVec.getLsbD_and, BitVec.getLsbD_append]
  interval_cases i <;> simp

theorem stb (rs : Reg) (ra : Reg) (d : BitVec 16) : Statement (.stb rs ra d) := by
  refine ⟨⟨"stb", 0x98000000, 0xFC000000⟩, by decide, rfl, BitVec.eq_of_getLsbD_eq fun i hi => ?_⟩
  simp only [encode, encodeD, BitVec.getLsbD_and, BitVec.getLsbD_append]
  interval_cases i <;> simp

theorem ld (rt : Reg) (ra : Reg) (ds : BitVec 14) : Statement (.ld rt ra ds) := by
  refine ⟨⟨"ld", 0xE8000000, 0xFC000003⟩, by decide, rfl, BitVec.eq_of_getLsbD_eq fun i hi => ?_⟩
  simp only [encode, encodeDs, BitVec.getLsbD_and, BitVec.getLsbD_append]
  interval_cases i <;> simp

theorem std (rs : Reg) (ra : Reg) (ds : BitVec 14) : Statement (.std rs ra ds) := by
  refine ⟨⟨"std", 0xF8000000, 0xFC000003⟩, by decide, rfl, BitVec.eq_of_getLsbD_eq fun i hi => ?_⟩
  simp only [encode, encodeDs, BitVec.getLsbD_and, BitVec.getLsbD_append]
  interval_cases i <;> simp

end Sys2Proof.Laws.TableRow
end

