-- ==== Sys2Proof/Laws/Translate.lean ====
section
/-! SUPPORT. The laws of the translation unit (spec/20_memory.md R70 to R125): what an access sees when no window is open,
what the search of the page table finds, and what `translate` answers, step by step. -/

namespace Sys2Proof.Machine

/-! What an access sees -/

theorem pickSeen_nil {α : Type} (n : Nat) (c : α) : pickSeen n c [] = c := by simp [pickSeen]

/-- Inside a window an access sees the current value or a recorded one. -/
theorem pickSeen_mem {α : Type} (n : Nat) (c : α) (old : List α) : pickSeen n c old = c ∨ pickSeen n c old ∈ old := by
  rw [pickSeen, List.getD_eq_getElem?_getD]
  cases h : old[n % (old.length + 1)]? with
  | none => exact .inl rfl
  | some x => exact .inr (List.mem_of_getElem? h)

theorem mem_recordedAt {α : Type} (i : Nat) (x : α) (w : List (Nat × α)) : x ∈ recordedAt i w ↔ (i, x) ∈ w := by
  simp [recordedAt]

theorem seenSlb_of_closed (s : State) (d : Nat) (h : s.slbWindow = []) : seenSlb s d = s.slb := by
  apply List.ext_getElem?
  intro i
  simp [seenSlb, h, recordedAt, pickSeen_nil]

theorem seenSdr1_of_closed (s : State) (d : Nat) (h : s.sdr1Window = []) : seenSdr1 s d = s.sdr1 := by
  simp [seenSdr1, h, pickSeen_nil]

theorem seenDw_of_closed (s : State) (d : Nat) (h : s.pteWindow = []) : seenDw s d = s.mem.readDw := by
  funext a
  simp [seenDw, h, recordedAt, pickSeen_nil]

theorem seenPr_of_closed (s : State) (d : Nat) (h : s.msrWindow = ⟨false, false, false⟩) : seenPr s d = msrPR s.msr := by
  simp [seenPr, seenBit, h]

theorem seenEnabled_of_closed (s : State) (d : Nat) (kind : AccessKind) (h : s.msrWindow = ⟨false, false, false⟩) :
    seenEnabled s d kind = true ↔ s.Translating kind := by
  cases kind <;> simp [seenEnabled, seenBit, h, State.Translating]

/-! Step 1 -/

/-- A hit, as the ESID number of the address (R79, R80). -/
theorem slbHit_iff (ea : Word) (e : SlbEntry) :
    slbHit ea e = true ↔ e.v = true ∧ e.esid.toNat = ea.toNat / 2 ^ 28 := by
  have h : (eaEsid ea).toNat = ea.toNat / 2 ^ 28 := by
    have := ea.isLt
    simp only [eaEsid, slice, BitVec.extractLsb'_toNat, Nat.shiftRight_eq_div_pow]
    omega
  simp only [slbHit, Bool.and_eq_true, beq_iff_eq, ← BitVec.toNat_inj, h]

/-- A VSID that does not fit, in numbers (R85). -/
theorem vsidFits_eq_false (c : Config) (v : BitVec 52) (h : 2 ^ (c.vaBits - 28) ≤ v.toNat) : vsidFits c v = false := by
  simpa [vsidFits, Nat.shiftRight_eq_div_pow] using h

/-- Step 1 through the one entry that hits. -/
theorem segmentLookup_of_segment (s : State) (d : Nat) (ea : Word) (kind : AccessKind) (e : SlbEntry)
    (hq : s.ContextSynced) (h : s.SegmentOf ea e) :
    segmentLookup s d ea kind =
      if kind = .fetch ∧ e.n then .error (.exc (.instructionStorage .noExecute))
      else if e.l then .error (.refuse .largePage) else .ok e := by
  unfold segmentLookup
  rw [seenSlb_of_closed s d hq.2.1, h.1]
  simp [h.2]

/-! Step 2 -/

theorem readTableDw_of_present (c : Config) (rd : Nat → Word) (a : Nat)
    (h : ∀ k, k < 8 → presentAt c (a + k) = true) : readTableDw c rd a = .ok (rd a) := by
  have hn : firstAbsent c (bytesFrom a 8) = none := by
    rw [firstAbsent_eq_none]
    intro x hx
    simp only [bytesFrom, List.mem_map, List.mem_range] at hx
    obtain ⟨k, hk, rfl⟩ := hx
    exact h k hk
  rw [readTableDw, hn]

theorem readTableDw_ok (c : Config) (rd : Nat → Word) (a : Nat) (w : Word) (h : readTableDw c rd a = .ok w) :
    w = rd a := by
  unfold readTableDw at h
  split at h <;> simp_all

/-- A doubleword whose first absent byte is at `a + k` cannot be read (R64, R105). -/
theorem readTableDw_of_absent (c : Config) (rd : Nat → Word) (a k : Nat) (hk : k < 8)
    (h : presentAt c (a + k) = false) (hj : ∀ j, j < k → presentAt c (a + j) = true) :
    readTableDw c rd a = .error (a + k) := by
  rw [readTableDw, firstAbsent_bytesFrom_absent c a 8 k hk h hj]

/-- A search that comes to a slot it cannot read fails there (R104, R105): doubleword 0, or doubleword 1 of a match. -/
theorem firstMatch_of_absent (c : Config) (rd : Nat → Word) (vpn : VPN) (before after : List (PA × Bool))
    (x : PA × Bool) (b k : Nat)
    (hb : ∀ y ∈ before, (∀ j, j < 8 → presentAt c (y.1.toNat + j) = true) ∧ pteMatches (rd y.1.toNat) vpn y.2 = false)
    (hx : b = x.1.toNat ∨ (b = x.1.toNat + 8 ∧ (∀ j, j < 8 → presentAt c (x.1.toNat + j) = true) ∧
      pteMatches (rd x.1.toNat) vpn x.2 = true))
    (hk : k < 8) (h : presentAt c (b + k) = false) (hj : ∀ j, j < k → presentAt c (b + j) = true) :
    firstMatch c rd vpn (before ++ x :: after) = .error (b + k) := by
  induction before with
  | nil =>
    rw [List.nil_append, firstMatch]
    rcases hx with rfl | ⟨rfl, hp, hm⟩
    · rw [readTableDw_of_absent c rd _ k hk h hj]
    · rw [readTableDw_of_present c rd _ hp]
      simp only [hm, if_true, readTableDw_of_absent c rd _ k hk h hj]
  | cons y l ih =>
    obtain ⟨hp, hm⟩ := hb y List.mem_cons_self
    rw [List.cons_append, firstMatch, readTableDw_of_present c rd _ hp]
    simpa only [hm, Bool.false_eq_true, if_false] using ih fun z hz => hb z (List.mem_cons_of_mem _ hz)

theorem firstMatch_of_none (c : Config) (rd : Nat → Word) (vpn : VPN) (l : List (PA × Bool))
    (hp : ∀ x ∈ l, ∀ k, k < 16 → presentAt c (x.1.toNat + k) = true)
    (h : ∀ x ∈ l, pteMatches (rd x.1.toNat) vpn x.2 = false) : firstMatch c rd vpn l = .ok none := by
  induction l with
  | nil => rfl
  | cons x l ih =>
    obtain ⟨t, b⟩ := x
    rw [firstMatch, readTableDw_of_present _ _ _ fun k hk => hp (t, b) List.mem_cons_self k (by omega)]
    simpa only [h (t, b) List.mem_cons_self, Bool.false_eq_true, if_false] using
      ih (fun x hx => hp x (List.mem_cons_of_mem _ hx)) (fun x hx => h x (List.mem_cons_of_mem _ hx))

theorem firstMatch_of_unique (c : Config) (rd : Nat → Word) (vpn : VPN) (l : List (PA × Bool)) (t : PA)
    (hp : ∀ x ∈ l, ∀ k, k < 16 → presentAt c (x.1.toNat + k) = true)
    (h : ∃ x ∈ l, x.1 = t ∧ pteMatches (rd t.toNat) vpn x.2 = true)
    (hu : ∀ x ∈ l, pteMatches (rd x.1.toNat) vpn x.2 = true → x.1 = t) :
    firstMatch c rd vpn l = .ok (some (⟨rd t.toNat, rd (t.toNat + 8)⟩, t)) := by
  induction l with
  | nil => simp at h
  | cons x l ih =>
    obtain ⟨q, b⟩ := x
    have h0 := hp (q, b) List.mem_cons_self
    rw [firstMatch, readTableDw_of_present _ _ _ fun k hk => h0 k (by omega)]
    by_cases hm : pteMatches (rd q.toNat) vpn b = true
    · have hq := hu (q, b) List.mem_cons_self hm
      dsimp only at hq
      subst hq
      simp only [hm, if_true]
      rw [readTableDw_of_present _ _ _ fun k hk => by rw [Nat.add_assoc]; exact h0 (8 + k) (by omega)]
    · simp only [hm, Bool.false_eq_true, if_false]
      refine ih (fun x hx => hp x (List.mem_cons_of_mem _ hx)) ?_ (fun x hx => hu x (List.mem_cons_of_mem _ hx))
      obtain ⟨x, hx, he, hxm⟩ := h
      rcases List.mem_cons.1 hx with rfl | hx
      · dsimp only at he
        subst he
        exact absurd hxm hm
      · exact ⟨x, hx, he, hxm⟩

/-- Where some present slot matches, the search finds one that does. -/
theorem firstMatch_of_hit (c : Config) (rd : Nat → Word) (vpn : VPN) (l : List (PA × Bool))
    (hp : ∀ x ∈ l, ∀ k, k < 16 → presentAt c (x.1.toNat + k) = true)
    (h : ∃ x ∈ l, pteMatches (rd x.1.toNat) vpn x.2 = true) :
    ∃ y ∈ l, pteMatches (rd y.1.toNat) vpn y.2 = true ∧
      firstMatch c rd vpn l = .ok (some (⟨rd y.1.toNat, rd (y.1.toNat + 8)⟩, y.1)) := by
  induction l with
  | nil => simp at h
  | cons x l ih =>
    have h0 := hp x List.mem_cons_self
    by_cases hm : pteMatches (rd x.1.toNat) vpn x.2 = true
    · refine ⟨x, List.mem_cons_self, hm, ?_⟩
      rw [firstMatch, readTableDw_of_present _ _ _ fun k hk => h0 k (by omega)]
      simp only [hm, if_true]
      rw [readTableDw_of_present _ _ _ fun k hk => by rw [Nat.add_assoc]; exact h0 (8 + k) (by omega)]
    · obtain ⟨y, hy, hym, he⟩ := ih (fun z hz => hp z (List.mem_cons_of_mem _ hz)) (by simpa [hm] using h)
      refine ⟨y, List.mem_cons_of_mem _ hy, hym, ?_⟩
      rw [firstMatch, readTableDw_of_present _ _ _ fun k hk => h0 k (by omega)]
      simpa only [hm, Bool.false_eq_true, if_false] using he

/-- A present slot that matches is among the matches. -/
theorem mem_allMatches_of_hit (c : Config) (rd : Nat → Word) (vpn : VPN) (l : List (PA × Bool)) (x : PA × Bool)
    (hx : x ∈ l) (hp : ∀ k, k < 16 → presentAt c (x.1.toNat + k) = true)
    (hm : pteMatches (rd x.1.toNat) vpn x.2 = true) :
    (⟨rd x.1.toNat, rd (x.1.toNat + 8)⟩ : Pte) ∈ allMatches c rd vpn l := by
  refine List.mem_filterMap.2 ⟨x, hx, ?_⟩
  dsimp only
  rw [readTableDw_of_present _ _ _ fun k hk => hp k (by omega),
    readTableDw_of_present _ _ _ fun k hk => by rw [Nat.add_assoc]; exact hp (8 + k) (by omega)]
  simp only [hm, if_true]

/-- Every match is at a slot. -/
theorem mem_allMatches (c : Config) (rd : Nat → Word) (vpn : VPN) (l : List (PA × Bool)) (p : Pte)
    (h : p ∈ allMatches c rd vpn l) :
    ∃ x ∈ l, pteMatches (rd x.1.toNat) vpn x.2 = true ∧ p = ⟨rd x.1.toNat, rd (x.1.toNat + 8)⟩ := by
  simp only [allMatches, List.mem_filterMap] at h
  obtain ⟨⟨t, b⟩, hx, h⟩ := h
  dsimp only at h
  split at h
  · rename_i u v h1 h2
    split at h
    · rename_i hm
      cases h
      rw [readTableDw_ok _ _ _ _ h1] at hm
      exact ⟨(t, b), hx, hm, by rw [readTableDw_ok _ _ _ _ h1, readTableDw_ok _ _ _ _ h2]⟩
    · cases h
  · cases h

/-- Where no valid PTE in a slot has a VSID above VA_BITS, the check of R85 passes. -/
theorem slotTooWide_of_fits (c : Config) (rd : Nat → Word) (l : List (PA × Bool))
    (h : ∀ x ∈ l, pteV (rd x.1.toNat) = true → vsidFits c (pteVsid (rd x.1.toNat)) = true) :
    l.any (slotTooWide c rd) = false := by
  rw [List.any_eq_false]
  intro x hx hw
  rw [slotTooWide] at hw
  split at hw
  · cases hw
  · rename_i hr
    rw [readTableDw_ok _ _ _ _ hr, Bool.and_eq_true, Bool.not_eq_true'] at hw
    exact Bool.false_ne_true (hw.2.symm.trans (h x hx hw.1))

theorem slotTooWide_of_legal (s : State) (vpn : VPN) (hs : s.SlotsLegal vpn) :
    (pteSlots s.sdr1 vpn).any (slotTooWide s.cfg s.mem.readDw) = false :=
  slotTooWide_of_fits _ _ _ fun x hx => (hs x hx).2

/-- A search of legal slots under a legal SDR1 is the first match, checked against every match (R104, R106). -/
theorem searchTable_of_legal (s : State) (vpn : VPN) (ht : s.TableLegal) (hs : s.SlotsLegal vpn) :
    searchTable s.cfg s.sdr1 s.mem.readDw vpn =
      match firstMatch s.cfg s.mem.readDw vpn (pteSlots s.sdr1 vpn) with
      | .error a => .error (.machineCheck a)
      | .ok none => .ok none
      | .ok (some (p, t)) =>
        if !(allMatches s.cfg s.mem.readDw vpn (pteSlots s.sdr1 vpn)).all (pteReservedZero s.cfg) then
          .error (.refuse .pteReserved)
        else if !(allMatches s.cfg s.mem.readDw vpn (pteSlots s.sdr1 vpn)).all (ptesAgree p) then
          .error (.refuse .pteMultipleMatches)
        else .ok (some (p, t)) := by
  unfold searchTable
  rw [ht.1, slotTooWide_of_legal s vpn hs, if_neg (Nat.not_lt.2 ht.2)]
  rfl

theorem searchTable_of_holds (s : State) (vpn : VPN) (t : PA) (ht : s.TableLegal) (hs : s.SlotsLegal vpn)
    (hh : s.TableHolds vpn t) : searchTable s.cfg s.sdr1 s.mem.readDw vpn = .ok (some (s.pteAt t, t)) := by
  have hall : ∀ p ∈ allMatches s.cfg s.mem.readDw vpn (pteSlots s.sdr1 vpn), p = s.pteAt t := by
    intro p hp
    obtain ⟨x, hx, hm, rfl⟩ := mem_allMatches _ _ _ _ _ hp
    rw [hh.2.1 x hx hm]
    rfl
  rw [searchTable_of_legal s vpn ht hs,
    firstMatch_of_unique s.cfg s.mem.readDw vpn _ t (fun x hx => (hs x hx).1) hh.1 hh.2.1]
  have h1 : (allMatches s.cfg s.mem.readDw vpn (pteSlots s.sdr1 vpn)).all (pteReservedZero s.cfg) = true :=
    List.all_eq_true.2 fun p hp => by rw [hall p hp]; exact hh.2.2
  have h2 : (allMatches s.cfg s.mem.readDw vpn (pteSlots s.sdr1 vpn)).all
      (ptesAgree ⟨s.mem.readDw t.toNat, s.mem.readDw (t.toNat + 8)⟩) = true :=
    List.all_eq_true.2 fun p hp => by rw [hall p hp]; simp [ptesAgree, State.pteAt]
  simp only [h1, h2, Bool.not_true, Bool.false_eq_true, if_false]
  rfl

theorem searchTable_of_none (s : State) (vpn : VPN) (ht : s.TableLegal) (hs : s.SlotsLegal vpn)
    (hh : ∀ x ∈ pteSlots s.sdr1 vpn, pteMatches (s.mem.readDw x.1.toNat) vpn x.2 = false) :
    searchTable s.cfg s.sdr1 s.mem.readDw vpn = .ok none := by
  rw [searchTable_of_legal s vpn ht hs, firstMatch_of_none s.cfg s.mem.readDw vpn _ (fun x hx => (hs x hx).1) hh]

/-- A present slot that holds a valid PTE with a VSID above VA_BITS makes the search refuse (R85, U6). -/
theorem searchTable_of_wide (s : State) (vpn : VPN) (ht : s.TableLegal) (x : PA × Bool) (hx : x ∈ pteSlots s.sdr1 vpn)
    (hp : ∀ k, k < 8 → presentAt s.cfg (x.1.toNat + k) = true) (hv : pteV (s.mem.readDw x.1.toNat) = true)
    (hw : vsidFits s.cfg (pteVsid (s.mem.readDw x.1.toNat)) = false) :
    searchTable s.cfg s.sdr1 s.mem.readDw vpn = .error (.refuse .vsidTooWide) := by
  have h : (pteSlots s.sdr1 vpn).any (slotTooWide s.cfg s.mem.readDw) = true :=
    List.any_eq_true.2 ⟨x, hx, by simp [slotTooWide, readTableDw_of_present _ _ _ hp, hv, hw]⟩
  unfold searchTable
  rw [ht.1, if_neg (Nat.not_lt.2 ht.2), h]
  rfl

/-- Outside every window a search reads SDR1 and memory as they are. -/
theorem searchSeen_of_quiet (s : State) (d : Nat) (vpn : VPN) (h : s.Quiet) :
    searchSeen s d vpn = searchTable s.cfg s.sdr1 s.mem.readDw vpn := by
  rw [searchSeen, seenSdr1_of_closed s d h.1.2.2, seenDw_of_closed s d h.2.1]

theorem tlbLookup_of_absent (s : State) (d : Nat) (vpn : VPN) (h : s.cfg.tlbPresent = false) :
    tlbLookup s d vpn = none := by
  simp [tlbLookup, h]

/-- The one copy of a page in the TLB, none in the window, is the one used (R87). -/
theorem tlbLookup_of_copy (s : State) (d : Nat) (vpn : VPN) (c : TlbEntry) (h : s.cfg.tlbPresent = true)
    (hc : s.tlb.filter (fun e => e.vpn == vpn) = [c]) (hw : s.tlbWindow = []) : tlbLookup s d vpn = some c := by
  simp [tlbLookup, h, hc, hw, Nat.mod_one]

theorem pageLookup_of_holds (s : State) (d : Nat) (vpn : VPN) (ea : Word) (kind : AccessKind) (t : PA) (hq : s.Quiet)
    (hn : s.cfg.tlbPresent = false) (ht : s.TableLegal) (hs : s.SlotsLegal vpn) (hh : s.TableHolds vpn t) :
    pageLookup s d vpn ea kind = .ok ⟨vpn, s.pteAt t, t, none⟩ := by
  simp [pageLookup, tlbLookup_of_absent s d vpn hn, searchSeen_of_quiet s d vpn hq, searchTable_of_holds s vpn t ht hs hh]

theorem pageLookup_of_none (s : State) (d : Nat) (vpn : VPN) (ea : Word) (kind : AccessKind) (hq : s.Quiet)
    (hn : s.cfg.tlbPresent = false) (ht : s.TableLegal) (hs : s.SlotsLegal vpn)
    (hh : ∀ x ∈ pteSlots s.sdr1 vpn, pteMatches (s.mem.readDw x.1.toNat) vpn x.2 = false) :
    pageLookup s d vpn ea kind = .error (.exc (pageFault kind ea)) := by
  simp [pageLookup, tlbLookup_of_absent s d vpn hn, searchSeen_of_quiet s d vpn hq, searchTable_of_none s vpn ht hs hh]

/-! The whole translation -/

theorem translate_of_translating (s : State) (d : Nat) (ea : Word) (kind : AccessKind) (hq : s.ContextSynced)
    (h : s.Translating kind) : translate s d ea kind = pageTranslate s d ea kind := by
  rw [translate, if_pos ((seenEnabled_of_closed s d kind hq.1).2 h)]

/-- Page address translation after step 1 through the one entry that hits. -/
theorem translate_of_segment (s : State) (d : Nat) (ea : Word) (kind : AccessKind) (e : SlbEntry)
    (hq : s.ContextSynced) (h : s.Translating kind) (he : s.SegmentOf ea e) (hn : ¬ (kind = .fetch ∧ e.n = true))
    (hl : e.l = false) :
    translate s d ea kind =
      match pageLookup s d (pageOf e ea) ea kind with
      | .error f => .error f
      | .ok x =>
        match checkPage s.cfg e (msrPR s.msr) x.pte ea kind with
        | .error f => .error f
        | .ok () => .ok ⟨pagePa x.pte ea, some x⟩ := by
  rw [translate_of_translating s d ea kind hq h, pageTranslate, segmentLookup_of_segment s d ea kind e hq he,
    if_neg hn, if_neg (by simp [hl]), seenPr_of_closed s d hq.1]
  rfl

/-- Page address translation with no TLB and no window fails where the search of the page table does. -/
theorem translate_of_searchTable_error (s : State) (d : Nat) (ea : Word) (kind : AccessKind) (e : SlbEntry) (f : Failure)
    (hq : s.Quiet) (h : s.Translating kind) (he : s.SegmentOf ea e) (hn : ¬ (kind = .fetch ∧ e.n = true))
    (hl : e.l = false) (ht : s.cfg.tlbPresent = false)
    (hf : searchTable s.cfg s.sdr1 s.mem.readDw (pageOf e ea) = .error f) : translate s d ea kind = .error f := by
  rw [translate_of_segment s d ea kind e hq.1 h he hn hl]
  simp [pageLookup, tlbLookup_of_absent s d _ ht, searchSeen_of_quiet s d _ hq, hf]

/-- Real addressing mode with EA bits 0:1 ignored (R73). -/
theorem realTranslate_of_ignore (c : Config) (ea : Word) (h : c.realModeHighBits = .ignore) :
    realTranslate c ea = .ok (BitVec.ofNat 62 (ea.toNat % 2 ^ 62)) := by
  rw [realTranslate, if_neg (by simp [h])]
  congr 1
  apply BitVec.eq_of_toNat_eq
  simp [slice]

/-- A translation reads the draw it is given, and not the count of draws. -/
theorem translate_draws (s : State) (n d : Nat) (ea : Word) (kind : AccessKind) :
    translate { s with draws := n } d ea kind = translate s d ea kind := rfl

end Sys2Proof.Machine
end

