-- ==== Sys2Proof/Tests/Slice0.lean ====
section
/-! SUPPORT. The model's own tests, each a named theorem; expected values come from spec/95_test_vectors.md (T1 to T18) or
from the worked examples of the rules, and the encodings are written out from spec/30_encoding.md. The second half shows,
for each obligation with hypotheses, a state and operands that meet them (`witness_…`). -/

namespace Sys2Proof.Tests

open Sys2Proof Sys2Proof.Machine

/-! Helpers -/

/-- The next state of an outcome. -/
def nextOf (o : Host.Outcome State Fault Refusal) : Option State :=
  match o with
  | .next s => some s
  | .fault _ => none
  | .refused _ => none

/-- The refusal of an outcome. -/
def refusalOf (o : Host.Outcome State Fault Refusal) : Option Refusal :=
  match o with
  | .next _ => none
  | .fault _ => none
  | .refused r => some r

/-- The address of a machine check, and the state it leaves. -/
def faultOf (o : Host.Outcome State Fault Refusal) : Option (Nat × State) :=
  match o with
  | .next _ => none
  | .fault (.machineCheck a s) => some (a, s)
  | .refused _ => none

/-- A successful result and its state. -/
def okOf {α : Type} (r : Res α) : Option (α × State) :=
  match r with
  | .ok a s => some (a, s)
  | .fail _ _ => none

theorem next_of_isSome (o : Host.Outcome State Fault Refusal) (h : (nextOf o).isSome = true) : ∃ t, o = .next t := by
  cases o with
  | next s => exact ⟨s, rfl⟩
  | fault r => cases r; cases h
  | refused r => cases h

/-- The configuration of 95_test_vectors.md section 6: `Present(pa) = (pa < 02000000)`. -/
def start : State := { State.reset with cfg := { Config.standard with present := [⟨0, 0x2000000⟩] } }

/-- The number `v` in the `n` bytes at `a`, big-endian. -/
def poke (s : State) (a n v : Nat) : State := { s with mem := s.mem.writeAll ((bytesFrom a n).zip (beBytes n v)) }

/-- GPR[r] holding `v`. -/
def reg (s : State) (r : Reg) (v : Word) : State := s.setGpr r v

/-- An SLB entry with V = 1 and no flag but the keys. -/
def entry (esid : BitVec 36) (vsid : BitVec 52) (ks kp : Bool) : SlbEntry := ⟨esid, true, vsid, ks, kp, false, false, false⟩

/-- Vectors T1 and T8: SDR1, the SLB entry and the PTE of page index 0123 with doubleword 1 given; data translation on. -/
def mapped (dw1 : Nat) : State :=
  poke (poke { start with msr := 0x8000000000000010, sdr1 := 0x1000000,
                          slb := start.slb.set 1 (entry 0xC00000000 0x123456 false false) }
    0x102BA80 8 0x123456001) 0x102BA88 8 dw1

/-- User mode with both translations on (P4). -/
def user : State := { start with msr := 0x800000000000C030 }

/-! WellFormed: each check refuses an ill-formed term -/

theorem test_wf_refuses_mtspr_of_another_spr : (Instr.mtspr 58 3).wf = false := by decide
theorem test_wf_refuses_mfspr_of_another_spr : (Instr.mfspr 3 8).wf = false := by decide
theorem test_wf_refuses_sync_3 : (Instr.sync 3).wf = false := by decide
theorem test_wf_accepts_the_five_sprs : sprNumbers.all (fun n => (Instr.mtspr n 0).wf && (Instr.mfspr 0 n).wf) = true := by
  decide

/-! Decode: every constructor, from words written out field by field from R142 to R146 and R149 (T11) -/

theorem test_decode_slbmte : decodeWord 0b011111_00100_00000_00101_0110010010_0 = .ok (.slbmte 4 5) := by decide
theorem test_decode_slbmfev : decodeWord 0b011111_00110_00000_00101_1101010011_0 = .ok (.slbmfev 6 5) := by decide
theorem test_decode_slbmfee : decodeWord 0b011111_00111_00000_00101_1110010011_0 = .ok (.slbmfee 7 5) := by decide
theorem test_decode_slbie : decodeWord 0b011111_00000_00000_01001_0110110010_0 = .ok (.slbie 9) := by decide
theorem test_decode_slbia : decodeWord 0b011111_00000_00000_00000_0111110010_0 = .ok .slbia := by decide
theorem test_decode_tlbie : decodeWord 0b011111_00001_00000_00100_0100110010_0 = .ok (.tlbie 4 1) := by decide
theorem test_decode_tlbia : decodeWord 0b011111_00000_00000_00000_0101110010_0 = .ok .tlbia := by decide
theorem test_decode_tlbsync : decodeWord 0b011111_00000_00000_00000_1000110110_0 = .ok .tlbsync := by decide
theorem test_decode_mtmsrd : decodeWord 0b011111_00110_00001_00000_0010110010_0 = .ok (.mtmsrd 6 1) := by decide
theorem test_decode_mfmsr : decodeWord 0b011111_00011_00000_00000_0001010011_0 = .ok (.mfmsr 3) := by decide
theorem test_decode_mtspr : decodeWord 0b011111_00011_11001_00000_0111010011_0 = .ok (.mtspr 25 3) := by decide
theorem test_decode_mfspr : decodeWord 0b011111_00011_10010_00000_0101010011_0 = .ok (.mfspr 3 18) := by decide
theorem test_decode_rfid : decodeWord 0b010011_00000_00000_00000_0000010010_0 = .ok .rfid := by decide
theorem test_decode_sync : decodeWord 0b011111_00010_00000_00000_1001010110_0 = .ok (.sync 2) := by decide
theorem test_decode_isync : decodeWord 0b010011_00000_00000_00000_0010010110_0 = .ok .isync := by decide
theorem test_decode_lbz : decodeWord 0b100010_00000_00001_1000000000000000 = .ok (.lbz 0 1 0x8000) := by decide
theorem test_decode_stb : decodeWord 0b100110_11111_00000_0111111111111111 = .ok (.stb 31 0 0x7FFF) := by decide
theorem test_decode_ld : decodeWord 0b111010_11111_11111_11111111111111_00 = .ok (.ld 31 31 0x3FFF) := by decide
theorem test_decode_std : decodeWord 0b111110_11111_00001_01111111111111_00 = .ok (.std 31 1 0x1FFF) := by decide

/-- T11: the words of its table that the tests above do not have. -/
theorem test_encode_words :
    [Instr.slbmte 10 11, .slbmte 31 31, .slbie 31, .tlbie 31 1, .mtmsrd 31 1, .mfmsr 31, .mtspr 18 3, .mtspr 19 3,
      .mtspr 26 3, .mtspr 27 3, .mfspr 3 19, .mfspr 3 25, .mfspr 3 26, .mfspr 3 27, .sync 0, .sync 1, .lbz 7 8 0xFFFF,
      .stb 7 8 5, .ld 7 8 0x3FFE, .std 9 12 0].map encode =
    [0x7D405B24, 0x7FE0FB24, 0x7C00FB64, 0x7C20FA64, 0x7FE10164, 0x7FE000A6, 0x7C7203A6, 0x7C7303A6, 0x7C7A03A6,
      0x7C7B03A6, 0x7C7302A6, 0x7C7902A6, 0x7C7A02A6, 0x7C7B02A6, 0x7C0004AC, 0x7C2004AC, 0x88E8FFFF, 0x98E80005,
      0xE8E8FFF8, 0xF92C0000] := by decide

/-- T11: the words the model must refuse. -/
theorem test_decode_refuses :
    [0x7C802B25, 0x7C812B24, 0x7C6004AC, 0xE8E80001, 0xF9280002, 0x7C7A0BA6, 0x60000000, 0x00000000].all
      (fun w => match decodeWord w with | .ok _ => false | .error _ => true) = true := by decide

/-- No two rows of R149 overlap: some bit that both masks hold differs. -/
theorem test_rows_do_not_overlap :
    opcodeTable.Pairwise fun r q => (r.mask &&& q.mask) &&& (r.pattern ^^^ q.pattern) ≠ 0 := by decide

theorem test_decode_needs_four_bytes : decode [0x7C, 0x00, 0x04] = .error .truncated := by decide
theorem test_decode_bytes_big_endian :
    decode [0x7C, 0x60, 0x00, 0xA6, 0xFF] = .ok (.mfmsr 3, [0xFF]) := by decide

/-! Translation -/

/-- T1. -/
theorem test_T1_fields :
    let vpn := vpnOf 0x123456 0xC000000000123ABC
    eaEsid 0xC000000000123ABC = 0xC00000000 ∧ eaPageIndex 0xC000000000123ABC = 0x123 ∧
    eaOffset 0xC000000000123ABC = 0xABC ∧ vpn = 0x1234560123 ∧ hash1 vpn = 0x123575 ∧ hash2 vpn = 0x7FFFEDCA8A ∧
    ptegAddr 0x1000000 (hash1 vpn) = 0x102BA80 ∧ ptegAddr 0x1000000 (hash2 vpn) = 0x1014500 ∧
    pteMatches 0x123456001 vpn false = true ∧ pteMatches 0x123456003 vpn true = true := by decide

/-- T2. -/
theorem test_T2_larger_table :
    let vpn := vpnOf 0x00ABCDEF12345 0x00007FFFF7ABCDEF
    hash1 vpn = 0x3CDEF159F9 ∧ hash2 vpn = 0x43210EA606 ∧ ptegAddr 0x40000005 (hash1 vpn) = 0x402CFC80 ∧
    ptegAddr 0x40000005 (hash2 vpn) = 0x40530300 ∧ pteMatches 0x00ABCDEF12345781 vpn false = true ∧
    pagePa ⟨0, 0x12345678000⟩ 0x00007FFFF7ABCDEF = 0x12345678DEF := by decide

/-- T4: the OR, not the addition. -/
theorem test_T4_or :
    ptegAddr 0x10C0003 0x123575 = 0x11EBA80 ∧ ptegAddr 0x10C0003 0x7FFFEDCA8A = 0x10D4500 := by decide

/-- T5: the extremes. -/
theorem test_T5_all_ones :
    let vpn := vpnOf 0xFFFFFFFFFFFFF 0xFFFFFFFFFFFFFFFF
    hash1 vpn = 0x7FFFFF0000 ∧ ptegAddr 0x3FFFC0000000001C (hash1 vpn) = 0x3FFFFFFFFF800000 ∧
    ptegAddr 0x3FFFC0000000001C (hash2 vpn) = 0x3FFFC000007FFF80 ∧
    pteMatches 0xFFFFFFFFFFFFFF81 vpn false = true ∧
    pagePa ⟨0, 0x3FFFFFFFFFFFF000⟩ 0xFFFFFFFFFFFFFFFF = 0x3FFFFFFFFFFFFFFF := by decide

/-- T3: a hit in slot 5 of the secondary PTEG; the same PTE with H = 0 is no match and the page fault is raised. -/
theorem test_T3_secondary :
    let s := poke (poke (mapped 0) 0x102BA80 8 0) 0x1014558 8 0x400012
    translate (poke s 0x1014550 8 0x123456003) 0 0xC000000000123ABC .load =
      .ok ⟨0x400ABC, some ⟨0x1234560123, ⟨0x123456003, 0x400012⟩, 0x1014550, none⟩⟩ ∧
    translate (poke s 0x1014550 8 0x123456001) 0 0xC000000000123ABC .load =
      .error (.exc (.dataStorage 0xC000000000123ABC .pageFault false)) := by decide

/-- T7, T8: PP = 11 denies the store and not the load; G = 1 and N = 1 deny the fetch. -/
theorem test_T7_protection :
    translate (mapped 0x400013) 0 0xC000000000123ABC .store =
      .error (.exc (.dataStorage 0xC000000000123ABC .protection true)) ∧
    (translate (mapped 0x400013) 0 0xC000000000123ABC .load).toOption.isSome = true ∧
    translate { mapped 0x40001A with msr := 0x8000000000000020 } 0 0xC000000000123ABC .fetch =
      .error (.exc (.instructionStorage .noExecute)) ∧
    translate { mapped 0x400016 with msr := 0x8000000000000020 } 0 0xC000000000123ABC .fetch =
      .error (.exc (.instructionStorage .noExecute)) := by decide

/-- T9: V = 0 never hits; two hits are refused. -/
theorem test_T9_slb :
    translate { mapped 0 with slb := start.slb } 0 0xC000000000123ABC .load =
      .error (.exc (.dataSegment 0xC000000000123ABC)) ∧
    translate { mapped 0 with slb := (mapped 0).slb.set 9 (entry 0xC00000000 7 false false) } 0 0xC000000000123ABC .load =
      .error (.refuse .slbMultipleHits) := by decide

/-- T6: real addressing mode. -/
theorem test_T6_real :
    translate start 0 0xC000000000001234 .load = .ok ⟨0x1234, none⟩ ∧
    translate { start with cfg := { start.cfg with realModeHighBits := .machineCheck } } 0 0xC000000000001234 .load =
      .error (.machineCheck 0xC000000000001234) := by decide

/-- T8: R alone for a load, R and C for a store, nothing where both are set. -/
theorem test_T8_history :
    (okOf (translateAccess (mapped 0x400012) 0xC000000000123ABC 1 .load)).map (fun r => r.2.mem.readDw 0x102BA88) =
      some 0x400112 ∧
    (okOf (translateAccess (mapped 0x400012) 0xC000000000123ABC 1 .store)).map (fun r => r.2.mem.readDw 0x102BA88) =
      some 0x400192 ∧
    (okOf (translateAccess (mapped 0x400092) 0xC000000000123ABC 1 .load)).map (fun r => r.2.mem.readDw 0x102BA88) =
      some 0x400192 := by decide

/-- The copy of T1's page that the TLB holds, with R = C = 0. -/
def copy1 : TlbEntry := ⟨0x1234560123, ⟨0x123456001, 0x400012⟩, 0x102BA80⟩

/-- T1 with a TLB, in the window of R262 on doubleword 1, whose old value was 0. -/
def adding : State :=
  { mapped 0x400012 with cfg := { start.cfg with tlbPresent := true }, pteWindow := [(0x102BA88, 0)] }

/-- R41 (a) inside the window of R262: the agent copies the PTE that memory holds, and an access that has read the old
doubleword 1 does not add what it read. -/
theorem test_reload_in_the_window :
    reloadEntry adding 0x1234560123 = some copy1 ∧
    mayFill adding 0 ⟨0x1234560123, copy1.pte, 0x102BA80, none⟩ = true ∧
    mayFill adding 0 ⟨0x1234560123, ⟨0x123456001, 0⟩, 0x102BA80, none⟩ = false := by decide

/-- R122: the copy's bits are marked, R for a load, R and C for a store. -/
theorem test_markCopy :
    ({ adding with tlb := [copy1] }.markCopy copy1 false).tlb = [{ copy1 with pte := ⟨0x123456001, 0x400112⟩ }] ∧
    ({ adding with tlb := [copy1] }.markCopy copy1 true).tlb = [{ copy1 with pte := ⟨0x123456001, 0x400192⟩ }] := by
  decide

/-- Vector T13: a second page, index 0124, at PA 0102B900 with doubleword 1 given. -/
def mappedTwo (dw1 : Nat) : State := poke (poke (mapped 0x400012) 0x102B900 8 0x123456001) 0x102B908 8 dw1

/-- T13: four bytes in each page. -/
theorem test_T13_crossing_load :
    let s := reg (poke (poke (mappedTwo 0x401012) 0x400FFC 4 0x11223344) 0x401000 4 0x55667788) 8 0xC000000000123FFC
    (nextOf (exec (.ld 7 8 0) s)).map (fun t => (t.readGpr 7, t.mem.readDw 0x102BA88, t.mem.readDw 0x102B908)) =
      some (0x1122334455667788, 0x400112, 0x401112) := by decide

/-- T13: the second page read-only. -/
theorem test_T13_crossing_store_denied :
    let s := reg (mappedTwo 0x401013) 8 0xC000000000123FFC
    (nextOf (exec (.std 9 8 0) s)).map (fun t => (t.pc, t.dar, t.dsisr)) =
      some (0x300, 0xC000000000124000, 0x0A000000) := by decide

/-- T14: the first absent byte; and after R has been set. -/
theorem test_T14_machine_check :
    (faultOf (exec (.ld 7 8 0) (reg start 8 0x1FFFFFC))).map (·.1) = some 0x2000000 ∧
    (faultOf (exec (.lbz 7 8 0) (reg (mapped 0xABCDE012) 8 0xC000000000123ABC))).map
      (fun r => (r.1, r.2.mem.readDw 0x102BA88)) = some (0xABCDEABC, 0xABCDE112) := by decide

/-! Exceptions: T10 -/

/-- The state before the exceptions of T10. -/
def raising : State := { user with pc := 0x10000008 }

theorem test_T10_entry :
    [Exc.dataStorage 5 .pageFault false, .dataStorage 5 .protection true, .dataSegment 5, .instructionStorage .pageFault,
      .instructionStorage .noExecute, .instructionStorage .protection, .instructionSegment, .programPrivileged].map
      (fun e => let t := raising.takeException e; (t.pc, t.srr0, t.srr1, t.msr)) =
    [(0x300, 0x10000008, 0x800000000000C030, 0x8000000000000000),
      (0x300, 0x10000008, 0x800000000000C030, 0x8000000000000000),
      (0x380, 0x10000008, 0x800000000000C030, 0x8000000000000000),
      (0x400, 0x10000008, 0x800000004000C030, 0x8000000000000000),
      (0x400, 0x10000008, 0x800000001000C030, 0x8000000000000000),
      (0x400, 0x10000008, 0x800000000800C030, 0x8000000000000000),
      (0x480, 0x10000008, 0x800000000000C030, 0x8000000000000000),
      (0x700, 0x10000008, 0x800000000004C030, 0x8000000000000000)] := by decide

theorem test_T10_dsisr :
    (raising.takeException (.dataStorage 5 .pageFault true)).dsisr = 0x42000000 ∧
    (raising.takeException (.dataStorage 5 .protection false)).dsisr = 0x08000000 ∧
    (raising.takeException (.dataSegment 5)).dar = 5 ∧ (raising.takeException .programPrivileged).dar = 0 := by decide

/-- ME is kept at entry. -/
theorem test_T10_me_kept : entryMsr 0x800000000000D030 = 0x8000000000001000 := by decide

/-! Instructions: one step each on a small state -/

/-- R160, T12: index 63, all flags but L. -/
theorem test_slbmte :
    (nextOf (exec (.slbmte 4 5) (reg (reg start 4 0x123456E80) 5 0xC00000000800003F))).map (fun t => (t.slb[63]?, t.pc)) =
      some (some ⟨0xC00000000, true, 0x123456, true, true, true, false, true⟩, 0x104) := by decide

/-- T12: index 64. -/
theorem test_slbmte_index : refusalOf (exec (.slbmte 4 5) (reg start 5 0xC000000008000040)) = some .slbOperand := by
  decide

/-- R161. -/
theorem test_slbmfev :
    (nextOf (exec (.slbmfev 6 5) (reg { mapped 0 with msr := 0x8000000000000000 } 5 1))).map (·.readGpr 6) =
      some 0x123456000 := by decide

/-- R162. -/
theorem test_slbmfee :
    (nextOf (exec (.slbmfee 7 5) (reg { mapped 0 with msr := 0x8000000000000000 } 5 1))).map (·.readGpr 7) =
      some 0xC000000008000000 := by decide

/-- R163. -/
theorem test_slbie :
    (nextOf (exec (.slbie 9) (reg (mapped 0) 9 0xC000000000000000))).map (fun t => (t.slb[1]?.map (·.v))) =
      some (some false) := by decide

/-- T12: a class bit that differs; non-zero low bits. -/
theorem test_slbie_refused :
    refusalOf (exec (.slbie 9) (reg (mapped 0) 9 0xC000000008000000)) = some .slbOperand ∧
    refusalOf (exec (.slbie 9) (reg (mapped 0) 9 0xC000000000000001)) = some .slbOperand := by decide

/-- R164: entries 0, 1, 5 valid. -/
theorem test_slbia :
    let e := entry 1 1 false false
    let s := { start with slb := ((start.slb.set 0 e).set 1 e).set 5 e }
    (nextOf (exec .slbia s)).map (fun t => (t.slb.take 6).map (·.v)) =
      some [true, false, false, false, false, false] ∧
    (nextOf (exec .slbia { s with cfg := { s.cfg with slbiaKeepsEntry0 := false } })).map
      (fun t => (t.slb.take 6).map (·.v)) = some [false, false, false, false, false, false] := by decide

/-- R165: L = 1, and no TLB. -/
theorem test_tlbie :
    refusalOf (exec (.tlbie 4 1) start) = some .largePage ∧
    (nextOf (exec (.tlbie 4 0) start)).map (·.pc) = some 0x104 := by decide

/-- R165: the page of vector T1 (operand 0000234560123000) must leave the TLB. -/
theorem test_tlbie_must_remove :
    tlbieMust start.cfg 0x0000234560123000 ⟨0x1234560123, ⟨0, 0⟩, 0⟩ = true ∧
    tlbieMust start.cfg 0x0000234560124000 ⟨0x1234560123, ⟨0, 0⟩, 0⟩ = false := by decide

/-- R166. -/
theorem test_tlbia :
    (nextOf (exec .tlbia { start with cfg := { start.cfg with tlbPresent := true }, tlb := [⟨1, ⟨0, 0⟩, 0⟩] })).map
      (·.tlb) = some [] ∧
    refusalOf (exec .tlbia { user with cfg := { start.cfg with tlbiaImplemented := false } }) = some .tlbiaAbsent := by
  decide

/-- R167, R148. -/
theorem test_tlbsync :
    (nextOf (exec .tlbsync start)).map (·.pc) = some 0x104 ∧ (nextOf (exec .tlbsync user)).map (·.pc) = some 0x700 := by
  decide

/-- T17, with the window of R260. -/
theorem test_mtmsrd :
    (nextOf (exec (.mtmsrd 6 0) (reg start 6 0x8000000000000010))).map (fun t => (t.msr, t.msrWindow)) =
      some (0x8000000000000010, ⟨false, true, false⟩) := by decide

/-- T17: PR forces EE, IR, DR in v2; HV and ME are kept; the plain variant; L = 1. -/
theorem test_mtmsrd_images :
    mtmsrdMsr .v2 0 0x8000000000004000 0x8000000000000000 = 0x800000000000C030 ∧
    mtmsrdMsr .v2 0 0x9000000000001010 0x8000000000000000 = 0x8000000000000010 ∧
    mtmsrdMsr .plain 0 0x8000000000004000 0x8000000000000000 = 0x8000000000004000 ∧
    mtmsrdMsr .v2 1 0x8032 0x8000000000000000 = 0x8000000000008002 := by decide

/-- R181; P4: in user mode it traps. -/
theorem test_mfmsr :
    (nextOf (exec (.mfmsr 3) (mapped 0))).map (·.readGpr 3) = some 0x8000000000000010 ∧
    (nextOf (exec (.mfmsr 3) user)).map (fun t => (t.readGpr 3, t.srr1, t.pc)) = some (0, 0x800000000004C030, 0x700) := by
  decide

/-- R182. -/
theorem test_mtspr :
    (nextOf (exec (.mtspr 25 3) (reg start 3 0x1000000))).map (fun t => (t.sdr1, t.sdr1Window)) = some (0x1000000, [0]) ∧
    (nextOf (exec (.mtspr 18 3) (reg start 3 0x1234567842000000))).map (·.dsisr) = some 0x42000000 := by decide

/-- R183. -/
theorem test_mfspr :
    (nextOf (exec (.mfspr 3 19) { start with dar := 7 })).map (·.readGpr 3) = some 7 ∧
    (nextOf (exec (.mfspr 3 18) { start with dsisr := 0xFFFFFFFF })).map (·.readGpr 3) = some 0xFFFFFFFF := by decide

/-- R184, T10. -/
theorem test_rfid :
    (nextOf (exec .rfid { start with srr0 := 0x1000000A, srr1 := 0x800000004000C030 })).map (fun t => (t.pc, t.msr)) =
      some (0x10000008, 0x800000000000C030) := by decide

/-- R185: `ptesync` closes the window, `lwsync` does not. -/
theorem test_sync :
    (nextOf (exec (.sync 2) { user with pteWindow := [(8, 1)] })).map (·.pteWindow) = some [] ∧
    (nextOf (exec (.sync 1) { user with pteWindow := [(8, 1)] })).map (·.pteWindow) = some [(8, 1)] := by decide

/-- R186. -/
theorem test_isync :
    (nextOf (exec .isync { user with sdr1Window := [1], msrWindow := ⟨true, true, true⟩ })).map
      (fun t => (t.sdr1Window, t.msrWindow, t.pc)) = some ([], ⟨false, false, false⟩, 0x104) := by decide

/-- T18: the bytes at PA 1000. -/
def bytes18 : State := poke start 0x1000 9 0x112233445566778899

/-- T18: `lbz r7,-1(r8)`; `lbz r7,1(r8)` wraps to 0. -/
theorem test_lbz :
    (nextOf (exec (.lbz 7 8 0xFFFF) (reg bytes18 8 0x1004))).map (·.readGpr 7) = some 0x44 ∧
    (nextOf (exec (.lbz 7 8 1) (reg (poke start 0 1 0x5A) 8 0xFFFFFFFFFFFFFFFF))).map (·.readGpr 7) = some 0x5A := by
  decide

/-- T18: `stb r7,5(r8)`. -/
theorem test_stb :
    (nextOf (exec (.stb 7 8 5) (reg (reg bytes18 8 0x1000) 7 0xFFFFFFFFFFFFFFAB))).map (·.mem.readDw 0x1000) =
      some 0x1122334455AB7788 := by decide

/-- T18: misaligned; RA = 0 means the value 0. -/
theorem test_ld :
    (nextOf (exec (.ld 7 8 0) (reg bytes18 8 0x1001))).map (·.readGpr 7) = some 0x2233445566778899 ∧
    (nextOf (exec (.ld 7 0 0) (reg bytes18 0 0x1000))).map (·.readGpr 7) = some 0 := by decide

/-- T18, and the doubleword the window of R262 records. -/
theorem test_std :
    (nextOf (exec (.std 9 8 0) (reg (reg bytes18 8 0x1000) 9 0xDEADBEEFCAFEF00D))).map
      (fun t => (t.mem.readDw 0x1000, t.pteWindow)) = some (0xDEADBEEFCAFEF00D, [(0x1000, 0x1122334455667788)]) := by
  decide

/-! The step -/

/-- The first step after reset runs the word placed where it fetches. -/
theorem test_step_runs_the_placed_word :
    (nextOf (step (State.reset.withFetchWord 32 0x7C6000A6))).map (fun t => (t.readGpr 3, t.pc)) =
      some (0x8000000000000000, 0x104) := by decide

/-- P4, step 1: the fetch is translated (Key 1, PP 01) and sets R. -/
theorem test_step_translated_fetch :
    let s := poke (poke (poke (reg { user with pc := 0x10000000, sdr1 := 0x1000000,
                                               slb := start.slb.set 0 (entry 1 0x777 false true) } 8 0x10000004)
      0x103BB80 8 0x777001) 0x103BB88 8 0x500011) 0x500000 8 0x88E800007C6000A6
    (nextOf (step s)).map (fun t => (t.readGpr 7, t.pc, t.mem.readDw 0x103BB88)) =
      some (0x7C, 0x10000004, 0x500111) := by decide

/-- A fetch with IR = 1 and no SLB entry takes the instruction segment exception. -/
theorem test_step_fetch_segment_miss : (nextOf (step user)).map (·.pc) = some 0x480 := by decide

theorem test_step_refuses_unsupported_modes :
    refusalOf (step { start with msr := 0 }) = some .thirtyTwoBitMode ∧
    refusalOf (step { start with msr := 0x8000000000000001 }) = some .littleEndianMode := by decide

theorem test_step_refuses_word_by_name : refusalOf (step start) = some (.word (.outsideSpec 0)) := by decide

/-! Witnesses: states and operands that meet the hypotheses of the obligations -/

/-- `decide` runs over a list of slots, not over all addresses. -/
theorem slotsLegal_of_all {s : State} {vpn : VPN}
    (h : (pteSlots s.sdr1 vpn).all (fun x => ((List.range 16).all fun k => presentAt s.cfg (x.1.toNat + k)) &&
      (!pteV (s.mem.readDw x.1.toNat) || vsidFits s.cfg (pteVsid (s.mem.readDw x.1.toNat)))) = true) :
    s.SlotsLegal vpn := by
  intro x hx
  have hx := List.all_eq_true.1 h x hx
  rw [Bool.and_eq_true] at hx
  refine ⟨fun k hk => List.all_eq_true.1 hx.1 k (List.mem_range.2 hk), fun hv => ?_⟩
  simpa [hv] using hx.2

theorem noSlotMatches_of_all {s : State} {vpn : VPN}
    (h : (pteSlots s.sdr1 vpn).all (fun x => !pteMatches (s.mem.readDw x.1.toNat) vpn x.2) = true) :
    ∀ x ∈ pteSlots s.sdr1 vpn, pteMatches (s.mem.readDw x.1.toNat) vpn x.2 = false :=
  fun x hx => by simpa using List.all_eq_true.1 h x hx

theorem tableHolds_of_all {s : State} {vpn : VPN} {t : PA}
    (h : ((pteSlots s.sdr1 vpn).any (fun x => x.1 == t && pteMatches (s.pteAt t).dw0 vpn x.2) &&
      (pteSlots s.sdr1 vpn).all (fun x => !pteMatches (s.mem.readDw x.1.toNat) vpn x.2 || x.1 == t) &&
      pteReservedZero s.cfg (s.pteAt t)) = true) : s.TableHolds vpn t := by
  simp only [Bool.and_eq_true] at h
  obtain ⟨⟨h1, h2⟩, h3⟩ := h
  refine ⟨?_, fun x hx hm => ?_, h3⟩
  · obtain ⟨x, hx, hm⟩ := List.any_eq_true.1 h1
    exact ⟨x, hx, by simpa using hm⟩
  · have := List.all_eq_true.1 h2 x hx
    rw [hm] at this
    simpa using this

/-- The SLB entry of T1. -/
def e1 : SlbEntry := entry 0xC00000000 0x123456 false false

theorem witness_DecodeInvertsEncode : (Instr.mtspr 27 31).wf = true ∧ (Instr.sync 2).wf = true := by decide

theorem witness_TableWordDecodesToItsRow :
    decodeWord 0x7FFFFBA6 = .error (.sprOutsideSpec 1023) ∧ (0x7FFFFBA6 : Word32) &&& 0xFC0007FF = 0x7C0003A6 ∧
    decodeWord 0x7C6004AC = .error .syncReserved ∧ (0x7C6004AC : Word32) &&& 0xFF9FFFFF = 0x7C0004AC ∧
    (0xFBE17FFC : Word32) &&& 0xFC000003 = 0xF8000000 := by decide

/-- `isync` placed at pc: the hypotheses of the first clause. -/
def placed : State := start.withFetchWord 32 0x4C00012C

theorem witness_StepRunsTheDecodedInstruction :
    placed.Supported ∧
    (okOf (fetchBytes placed.tlbAgent)).map (fun r => decode r.1) = some (.ok (.isync, [])) ∧
    (okOf (fetchBytes start.tlbAgent)).map (fun r => decode r.1) = some (.error (.outsideSpec 0)) ∧
    user.Supported ∧
    (match fetchBytes user.tlbAgent with
      | .fail (.exc .instructionSegment) _ => true
      | .fail _ _ => false
      | .ok _ _ => false) = true ∧
    ¬ { start with msr := 0 }.Supported := by decide

/-- A fetch at an absent address, and one that two SLB entries hit. -/
theorem witness_StepRunsTheDecodedInstruction_stops :
    let s := { start with pc := 0x2000000 }
    let t := { user with pc := 0xC000000000000000,
                         slb := (user.slb.set 1 (entry 0xC00000000 1 false false)).set 2 (entry 0xC00000000 2 false false) }
    s.Supported ∧ t.Supported ∧
    (match fetchBytes s.tlbAgent with
      | .fail (.machineCheck 0x2000000) _ => true
      | .fail _ _ => false
      | .ok _ _ => false) = true ∧
    (match fetchBytes t.tlbAgent with
      | .fail (.refuse .slbMultipleHits) _ => true
      | .fail _ _ => false
      | .ok _ _ => false) = true := by decide

theorem witness_StepInRealModeRunsTheWordAtPc :
    placed.Supported ∧ msrIR placed.msr = false ∧ placed.msrWindow.ir = false ∧
    placed.cfg.realModeHighBits = .ignore ∧ placed.cfg.tlbPresent = false ∧ placed.pc.toNat % 4 = 0 ∧
    placed.RealBytesPresent placed.pc 4 ∧
    decodeWord (BitVec.ofNat 32
      ((placed.mem.read (realByte placed.pc 0)).toNat * 2 ^ 24 + (placed.mem.read (realByte placed.pc 1)).toNat * 2 ^ 16 +
        (placed.mem.read (realByte placed.pc 2)).toNat * 2 ^ 8 + (placed.mem.read (realByte placed.pc 3)).toNat)) =
      .ok .isync := by decide

theorem witness_RealModeAddressIsTheLowBits :
    seenEnabled start 0 .load = false ∧ start.cfg.realModeHighBits = .ignore ∧
    2 ^ 62 ≤ (0x4000000000000000 : Word).toNat ∧ (0x3FFFFFFFFFFFFFFF : Word).toNat < 2 ^ 62 ∧
    seenEnabled { start with cfg := { start.cfg with realModeHighBits := .machineCheck } } 0 .load = false := by decide

theorem witness_RealModeReadsNoTranslationState :
    start.ContextSynced ∧ ¬ start.Translating .load ∧
    { start with sdr1 := 1, msr := 0x8000000000004000 }.ContextSynced ∧
    ¬ { start with sdr1 := 1, msr := 0x8000000000004000 }.Translating .load := by decide

/-- An access of eight bytes at the last byte of the effective address space wraps to address 0. -/
theorem witness_LoadsInRealMode :
    State.reset.Supported ∧ State.reset.RealData ∧ State.reset.RealBytesPresent 0xFFFFFFFFFFFFFFFF 8 ∧
    (0 : Word) + BitVec.ofInt 64 (4 * (0x3FFF : BitVec 14).toInt) = 0xFFFFFFFFFFFFFFFC ∧
    State.reset.RealBytesPresent 0xFFFFFFFFFFFFFFFC 8 := by decide

theorem witness_StoresInRealMode : bytes18.Supported ∧ bytes18.RealData ∧ bytes18.mem.wf = true ∧
    bytes18.RealBytesPresent 0xFFC 8 := by decide

theorem witness_StdThenLdReturnsTheDoubleword :
    bytes18.RealBytesPresent (bytes18.eaDs 0 0x3FF) 8 ∧ (nextOf (exec (.std 9 0 0x3FF) bytes18)).isSome = true := by
  decide

theorem witness_PtegAddressIsAnOr : (0x3FFFC0000000001C : Word).toNat % 2 ^ 5 ≤ 28 ∧
    (0x3FFFC0000000001C : Word).toNat % 2 ^ 5 = 28 := by decide

theorem witness_PtegLiesInsideAnAlignedTable :
    (0x3FFFC0000000001C : Word).toNat / 2 ^ 18 % 2 ^ ((0x3FFFC0000000001C : Word).toNat % 2 ^ 5) = 0 := by decide

theorem witness_PtegAndApiFixThePage :
    vpnApi 0x1234560123 = vpnApi 0x1234560124 ∧ vpnVsid 0x1234560123 = vpnVsid 0x1234560124 ∧
    ptegAddr 0x1000000 (hash1 0x1234560123) ≠ ptegAddr 0x1000000 (hash1 0x1234560124) := by decide

/-- T1 for a load. -/
theorem witness_mapped_load : (mapped 0x400012).Mapped 0xC000000000123ABC .load e1 0x102BA80 :=
  ⟨by decide, by decide, by decide, by decide, by decide, slotsLegal_of_all (by decide), tableHolds_of_all (by decide),
    by decide⟩

/-- T1 for a store. -/
theorem witness_mapped_store : (mapped 0x400012).Mapped 0xC000000000123ABC .store e1 0x102BA80 :=
  ⟨by decide, by decide, by decide, by decide, by decide, slotsLegal_of_all (by decide), tableHolds_of_all (by decide),
    by decide⟩

/-- T1 for a fetch. -/
theorem witness_mapped_fetch :
    { mapped 0x400012 with msr := 0x8000000000000020 }.Mapped 0xC000000000123ABC .fetch e1 0x102BA80 :=
  ⟨by decide, by decide, by decide, by decide, by decide, slotsLegal_of_all (by decide), tableHolds_of_all (by decide),
    by decide⟩

/-- T3: the PTE in the secondary PTEG. -/
theorem witness_mapped_secondary :
    (poke (poke (poke (mapped 0) 0x102BA80 8 0) 0x1014550 8 0x123456003) 0x1014558 8 0x400012).Mapped
      0xC000000000123ABC .load e1 0x1014550 :=
  ⟨by decide, by decide, by decide, by decide, by decide, slotsLegal_of_all (by decide), tableHolds_of_all (by decide),
    by decide⟩

theorem witness_SegmentMissTakesTheSegmentException :
    let s := { mapped 0 with slb := start.slb }
    s.ContextSynced ∧ s.Translating .load ∧ s.Translating .store ∧
    (∀ e ∈ s.slb, ¬ (e.v = true ∧ e.esid.toNat = (s.eaD 0 0xFFFF).toNat / 2 ^ 28)) ∧ msrDR s.msr = true ∧
    (∀ e ∈ s.slb, ¬ (e.v = true ∧ e.esid.toNat = (s.eaDs 0 0x3FFF).toNat / 2 ^ 28)) ∧
    { s with msr := 0x8000000000000020 }.Translating .fetch := by decide

theorem witness_UndefinedTranslationsAreRefused :
    let s := mapped 0
    s.ContextSynced ∧ s.Translating .load ∧
    (s.slb.set 9 e1).filter (slbHit 0xC000000000123ABC) = [e1, e1] ∧
    { s with slb := start.slb.set 1 { e1 with l := true } }.SegmentOf 0xC000000000123ABC { e1 with l := true } ∧
    s.SegmentOf 0xC000000000123ABC e1 ∧ sdr1ReservedZero 0x1000020 = false ∧
    sdr1ReservedZero 0x100001D = true ∧ s.cfg.htabSizeMax < (0x100001D : Word).toNat % 32 := by decide

/-- VA_BITS = 65, and in slot 1 of T1's primary PTEG a valid PTE whose VSID has bit 37 set (R85). -/
def widePte : State :=
  let s := mapped 0x400012
  poke { s with cfg := { s.cfg with vaBits := 65 } } 0x102BA90 8 0x2000123456001

/-- T1 with a second match in slot 1 whose RPN differs (R106). -/
def twoMatches : State := poke (poke (mapped 0x400012) 0x102BA90 8 0x123456001) 0x102BA98 8 0x401012

/-- T1 with L = 1 in the PTE (R124). -/
def largePte : State := poke (mapped 0x400012) 0x102BA80 8 0x123456005

/-- What R85, R102, R106 and R124 say of each. -/
theorem test_undefined_ptes_are_refused :
    translate widePte 0 0xC000000000123ABC .load = .error (.refuse .vsidTooWide) ∧
    translate twoMatches 0 0xC000000000123ABC .load = .error (.refuse .pteMultipleMatches) ∧
    translate largePte 0 0xC000000000123ABC .load = .error (.refuse .largePage) ∧
    translate (mapped 0x4000000000400012) 0 0xC000000000123ABC .load = .error (.refuse .pteReserved) := by decide

/-- The clauses on the VSID of an SLB entry and of a PTE. -/
theorem witness_UndefinedTranslationsAreRefused_vsid :
    let e := entry 0xC00000000 0x2000000000 false false
    ({ widePte with slb := start.slb.set 1 e }).slb.filter (slbHit 0xC000000000123ABC) = [e] ∧
    2 ^ (widePte.cfg.vaBits - 28) ≤ e.vsid.toNat ∧
    widePte.Quiet ∧ widePte.Translating .load ∧ widePte.SegmentOf 0xC000000000123ABC e1 ∧ e1.l = false ∧
    widePte.cfg.tlbPresent = false ∧ widePte.TableLegal ∧
    ((0x102BA90, false) : PA × Bool) ∈ pteSlots widePte.sdr1 (pageOf e1 0xC000000000123ABC) ∧
    (∀ k, k < 8 → presentAt widePte.cfg (0x102BA90 + k) = true) ∧ pteV (widePte.pteAt 0x102BA90).dw0 = true ∧
    2 ^ (widePte.cfg.vaBits - 28) ≤ (pteVsid (widePte.pteAt 0x102BA90).dw0).toNat := by decide

/-- The clauses on reserved bits, on several matches and on a large page; of the matches every reserved bit is 0. -/
theorem witness_UndefinedTranslationsAreRefused_matches :
    let v := pageOf e1 0xC000000000123ABC
    let r := mapped 0x4000000000400012
    r.SlotsLegal v ∧ ((0x102BA80, false) : PA × Bool) ∈ pteSlots r.sdr1 v ∧
    pteMatches (r.pteAt 0x102BA80).dw0 v false = true ∧ pteReservedZero r.cfg (r.pteAt 0x102BA80) = false ∧
    twoMatches.SlotsLegal v ∧ ((0x102BA90, false) : PA × Bool) ∈ pteSlots twoMatches.sdr1 v ∧
    pteMatches (twoMatches.pteAt 0x102BA80).dw0 v false = true ∧
    pteMatches (twoMatches.pteAt 0x102BA90).dw0 v false = true ∧
    (pteSlots twoMatches.sdr1 v).all (fun x => pteReservedZero twoMatches.cfg (twoMatches.pteAt x.1)) = true ∧
    pteRpn (twoMatches.pteAt 0x102BA80) ≠ pteRpn (twoMatches.pteAt 0x102BA90) ∧
    largePte.SlotsLegal v ∧ largePte.TableHolds v 0x102BA80 ∧ pteL (largePte.pteAt 0x102BA80) = true :=
  ⟨slotsLegal_of_all (by decide), by decide, by decide, by decide, slotsLegal_of_all (by decide), by decide, by decide,
    by decide, by decide, by decide, slotsLegal_of_all (by decide), tableHolds_of_all (by decide), by decide⟩

/-- A guarded page, and a page with N = 1 (T7). -/
theorem witness_NoExecuteStopsTheFetch_page :
    let s := { mapped 0x40001A with msr := 0x8000000000000020 }
    let q := { mapped 0x400016 with msr := 0x8000000000000020 }
    s.Quiet ∧ s.cfg.tlbPresent = false ∧ msrIR s.msr = true ∧ s.SegmentOf 0xC000000000123ABC e1 ∧ s.TableLegal ∧
    s.SlotsLegal (pageOf e1 0xC000000000123ABC) ∧ s.TableHolds (pageOf e1 0xC000000000123ABC) 0x102BA80 ∧
    pteL (s.pteAt 0x102BA80) = false ∧ pteG (s.pteAt 0x102BA80) = true ∧
    q.TableHolds (pageOf e1 0xC000000000123ABC) 0x102BA80 ∧ pteG (q.pteAt 0x102BA80) = false ∧
    q.cfg.pteNImplemented = true ∧ pteN (q.pteAt 0x102BA80) = true :=
  ⟨by decide, by decide, by decide, by decide, by decide, slotsLegal_of_all (by decide), tableHolds_of_all (by decide),
    by decide, by decide, tableHolds_of_all (by decide), by decide, by decide, by decide⟩

/-- Key 1 and PP 00 deny all three kinds. -/
theorem witness_DeniedAccessRaisesProtection :
    let k := entry 0xC00000000 0x123456 true true
    let s := { mapped 0x400010 with msr := 0x8000000000000030, slb := start.slb.set 1 k }
    s.Quiet ∧ s.cfg.tlbPresent = false ∧ s.Translating .fetch ∧ s.Translating .load ∧ s.Translating .store ∧
    s.SegmentOf 0xC000000000123ABC k ∧ s.TableLegal ∧ s.SlotsLegal (pageOf k 0xC000000000123ABC) ∧
    s.TableHolds (pageOf k 0xC000000000123ABC) 0x102BA80 ∧ pteL (s.pteAt 0x102BA80) = false ∧ k.n = false ∧
    pteG (s.pteAt 0x102BA80) = false ∧ pteN (s.pteAt 0x102BA80) = false ∧
    accessAllowed k.ks (ptePp (s.pteAt 0x102BA80)) .fetch = false ∧
    accessAllowed k.ks (ptePp (s.pteAt 0x102BA80)) .load = false ∧
    accessAllowed k.kp (ptePp (s.pteAt 0x102BA80)) .store = false :=
  ⟨by decide, by decide, by decide, by decide, by decide, by decide, by decide, slotsLegal_of_all (by decide),
    tableHolds_of_all (by decide), by decide, by decide, by decide, by decide, by decide, by decide, by decide⟩

theorem witness_NoExecuteStopsTheFetch :
    let s := { mapped 0 with msr := 0x8000000000000020, slb := start.slb.set 1 { e1 with n := true } }
    s.ContextSynced ∧ msrIR s.msr = true ∧ s.SegmentOf 0xC000000000123ABC { e1 with n := true } := by decide

/-- T15: the PTEG holds a PTE with another API. -/
theorem witness_PageFaultWhenNoSlotMatches :
    let s := mapped 0x400012
    s.Quiet ∧ s.cfg.tlbPresent = false ∧ s.Translating .load ∧ s.SegmentOf 0xC000000000923ABC e1 ∧ s.TableLegal ∧
    s.SlotsLegal (pageOf e1 0xC000000000923ABC) ∧
    ∀ x ∈ pteSlots s.sdr1 (pageOf e1 0xC000000000923ABC),
      pteMatches (s.mem.readDw x.1.toNat) (pageOf e1 0xC000000000923ABC) x.2 = false :=
  ⟨by decide, by decide, by decide, by decide, by decide, slotsLegal_of_all (by decide),
    noSlotMatches_of_all (by decide)⟩

theorem witness_DeniedStoreChangesNoMemory :
    let s := reg (mapped 0x400013) 8 0xC000000000123ABC
    s.eaD 8 0 = 0xC000000000123ABC ∧ s.eaDs 8 0 = 0xC000000000123ABC ∧ s.Quiet ∧ s.cfg.tlbPresent = false ∧ msrDR s.msr = true ∧
    s.SegmentOf 0xC000000000123ABC e1 ∧ s.TableLegal ∧ s.SlotsLegal (pageOf e1 0xC000000000123ABC) ∧
    s.TableHolds (pageOf e1 0xC000000000123ABC) 0x102BA80 ∧ pteL (s.pteAt 0x102BA80) = false ∧
    accessAllowed (protectionKey e1 (msrPR s.msr)) (ptePp (s.pteAt 0x102BA80)) .store = false :=
  ⟨by decide, by decide, by decide, by decide, by decide, by decide, by decide, slotsLegal_of_all (by decide),
    tableHolds_of_all (by decide), by decide, by decide⟩

/-- The last byte of the page, with `witness_mapped_load` and `witness_mapped_store`. -/
theorem witness_ReferencedAndChangedBits :
    (mapped 0x400012).mem.wf = true ∧ (0xC000000000123ABC : Word).toNat % 4096 + 0x544 ≤ 4096 := by decide

/-- The TLB holds the one copy of the page, with R = C = 0, where memory has both 1. -/
theorem witness_ReferencedAndChangedBits_tlb :
    let ea : Word := 0xC000000000123ABC
    let s := { mapped 0x400192 with cfg := { start.cfg with tlbPresent := true }, tlb := [copy1] }
    s.ContextSynced ∧ s.cfg.tlbPresent = true ∧ s.Translating .load ∧ s.Translating .store ∧ s.SegmentOf ea e1 ∧
    s.Permits e1 copy1.pte .load ∧ s.Permits e1 copy1.pte .store ∧
    s.tlb.filter (fun x => x.vpn == pageOf e1 ea) = [copy1] ∧ s.tlbWindow = [] ∧
    pteReservedZero s.cfg copy1.pte = true ∧ s.mem.wf = true ∧ ea.toNat % 4096 + 0x544 ≤ 4096 ∧
    presentAt s.cfg (copy1.addr.toNat + 14) = true ∧ presentAt s.cfg (copy1.addr.toNat + 15) = true := by decide

/-- With `witness_mapped_load` and `witness_mapped_store`: GPR[8] holds the effective address, and the page's bytes are
present. -/
theorem witness_LoadsAndStores_of_a_mapped_page :
    let s := reg (mapped 0x400012) 8 0xC000000000123FF8
    s.Supported ∧ s.mem.wf = true ∧ s.eaDs 8 0 = 0xC000000000123FF8 ∧ s.eaD 8 0 = 0xC000000000123FF8 ∧
    (0xC000000000123FF8 : Word).toNat % 4096 + 8 ≤ 4096 ∧
    ∀ k, k < 8 → presentAt s.cfg ((pagePa (s.pteAt 0x102BA80) 0xC000000000123FF8).toNat + k) = true := by decide

theorem witness_LoadsFromAMappedPage :
    (reg (mapped 0x400012) 8 0xC000000000123FF8).Mapped 0xC000000000123FF8 .load e1 0x102BA80 :=
  ⟨by decide, by decide, by decide, by decide, by decide, slotsLegal_of_all (by decide), tableHolds_of_all (by decide),
    by decide⟩

theorem witness_StoresToAMappedPage :
    (reg (mapped 0x400012) 8 0xC000000000123FF8).Mapped 0xC000000000123FF8 .store e1 0x102BA80 :=
  ⟨by decide, by decide, by decide, by decide, by decide, slotsLegal_of_all (by decide), tableHolds_of_all (by decide),
    by decide⟩

/-- T13: both pages. -/
def crossing : State := reg (mappedTwo 0x401012) 8 0xC000000000123FFC

theorem witness_DoublewordAccessAcrossTwoPages_first :
    crossing.Mapped 0xC000000000123FFC .load e1 0x102BA80 ∧ crossing.Mapped 0xC000000000123FFC .store e1 0x102BA80 :=
  ⟨⟨by decide, by decide, by decide, by decide, by decide, slotsLegal_of_all (by decide), tableHolds_of_all (by decide),
    by decide⟩,
    ⟨by decide, by decide, by decide, by decide, by decide, slotsLegal_of_all (by decide), tableHolds_of_all (by decide),
    by decide⟩⟩

theorem witness_DoublewordAccessAcrossTwoPages_second :
    crossing.Mapped 0xC000000000124000 .load e1 0x102B900 ∧ crossing.Mapped 0xC000000000124000 .store e1 0x102B900 :=
  ⟨⟨by decide, by decide, by decide, by decide, by decide, slotsLegal_of_all (by decide), tableHolds_of_all (by decide),
    by decide⟩,
    ⟨by decide, by decide, by decide, by decide, by decide, slotsLegal_of_all (by decide), tableHolds_of_all (by decide),
    by decide⟩⟩

theorem witness_DoublewordAccessAcrossTwoPages :
    crossing.eaDs 8 0 = 0xC000000000123FFC ∧ 4096 - (0xC000000000123FFC : Word).toNat % 4096 = 4 ∧
    BitVec.ofNat 64 ((0xC000000000123FFC : Word).toNat + 4) = (0xC000000000124000 : Word) ∧ crossing.Supported ∧
    crossing.mem.wf = true ∧
    ∀ a ∈ bytesFrom (pagePa (crossing.pteAt 0x102BA80) 0xC000000000123FFC).toNat 4 ++
      bytesFrom (pagePa (crossing.pteAt 0x102B900) 0xC000000000124000).toNat 4, presentAt crossing.cfg a = true := by
  decide

theorem witness_TranslatingTwiceChangesNothingMore :
    (mapped 0x400012).Quiet ∧ (mapped 0x400012).mem.wf = true ∧
    (okOf (translateAccess (mapped 0x400012) 0xC000000000123ABC 8 .store)).isSome = true ∧
    (okOf (translateAccess start 0xABC 8 .store)).isSome = true := by decide

theorem witness_CrossingStoreFailsWithoutAByteWritten :
    let s := reg (mapped 0x400012) 8 0xC000000000123FFC
    4096 < (s.eaDs 8 0).toNat % 4096 + 8 ∧ (translate s s.draws (s.eaDs 8 0) .store).toOption.isSome = true ∧
    translate s (s.draws + 1) (BitVec.ofNat 64 ((s.eaDs 8 0).toNat / 4096 * 4096 + 4096)) .store =
      .error (.exc (.dataStorage 0xC000000000124000 .pageFault true)) ∧
    translate (reg (mapped 0x400013) 8 0xC000000000123FFC) 0 0xC000000000123FFC .store =
      .error (.exc (.dataStorage 0xC000000000123FFC .protection true)) := by decide

/-- A load that completes, one that takes an exception, and the same of a store; each on a translated page. -/
theorem witness_DataAccessFrame :
    let s := reg (mapped 0x400012) 8 0xC000000000123ABC
    let d := reg (mapped 0x400013) 8 0xC000000000123ABC
    (nextOf (exec (.ld 7 8 0) s)).map (·.pc) = some 0x104 ∧ (nextOf (exec (.lbz 7 0 0) s)).map (·.pc) = some 0x380 ∧
    (nextOf (exec (.std 7 8 0) s)).map (·.pc) = some 0x104 ∧ (nextOf (exec (.stb 7 8 0) d)).map (·.pc) = some 0x300 ∧
    s.historyBytes 0xC000000000123ABC 8 .store = [0x102BA8E, 0x102BA8F] ∧
    s.bytesOf 0xC000000000123ABC 1 .store = [0x400ABC] := by decide

theorem witness_TlbCopyIsUsedBeforeThePageTable :
    let s := { adding with tlb := [copy1] }
    s.cfg.tlbPresent = true ∧ s.tlb.filter (fun e => e.vpn == 0x1234560123) = [copy1] ∧ s.tlbWindow = [] ∧
    pteReservedZero s.cfg copy1.pte = true := by decide

theorem witness_ReloadAgentCopiesTableEntries :
    (⟨0x1234560123, copy1.pte, copy1.addr, none⟩ : Found).copy = none ∧ adding.cfg.tlbPresent = true ∧
    start.cfg.tlbPresent = false := by decide

theorem witness_AccessesSeeOldOrNewValues :
    start.ContextSynced ∧ (3, e1) ∈ { start with slbWindow := [(3, e1)] }.slbWindow := by decide

theorem witness_PrivilegedInstructionTrapsInUserMode :
    Instr.tlbia.privileged = true ∧ msrPR user.msr = true ∧ user.cfg.tlbiaImplemented = true ∧
    (Instr.slbie 3).privileged = true := by decide

/-- Supervisor mode, and user mode: RfidRestores, MtmsrdWritesMsr, MfmsrReadsMsr, MtsprWritesTheNamedRegister,
MfsprReadsTheNamedRegister, SlbiaInvalidatesAllButEntryZero, TlbieRemovesThePage, TlbiaEmptiesTheTlbAndTlbsyncWaits. -/
theorem witness_supervisor :
    msrPR start.msr = false ∧ msrPR user.msr = true ∧ start.cfg.tlbiaImplemented = true ∧ start.cfg.tlbieOperand = .layoutR165 ∧
    { start with cfg := { start.cfg with tlbPresent := true } }.cfg.tlbPresent = true ∧
    { start with cfg := { start.cfg with tlbiaImplemented := false } }.cfg.tlbiaImplemented = false ∧
    (1023 : BitVec 10) ∉ sprNumbers ∧ (17 : BitVec 10) ∉ sprNumbers ∧
    start.slb[0]? = some SlbEntry.reset := by decide

theorem witness_RfidReturnsToTheInterruptedContext : raising.pc.toNat % 4 = 0 ∧ raising.UserTranslated := by decide

/-- The last index, 63, with all flags. -/
theorem witness_SlbmteWritesTheEntry :
    let a := (0xFFFFFFFFFFFFFF80 : Word).toNat
    let b := (0xFFFFFFFFF800003F : Word).toNat
    b % 4096 < start.slb.length ∧ b % 4096 = 63 ∧ a % 2 ^ 7 = 0 ∧ b / 2 ^ 12 % 2 ^ 15 = 0 := by decide

/-- A valid entry and an invalid one. -/
theorem witness_SlbmfevAndSlbmfeeReadTheEntry :
    (reg { mapped 0 with msr := 0x8000000000000000 } 5 1).slb[((1 : Word)).toNat % 4096]? = some e1 ∧
    start.slb[((63 : Word)).toNat % 4096]? = some SlbEntry.reset ∧ e1.v = true ∧ SlbEntry.reset.v = false := by decide

theorem witness_SlbImagesReadBack :
    let s := reg (reg start 4 0x123456E80) 5 0xC00000000800003F
    msrPR s.msr = false ∧ (nextOf (exec (.slbmte 4 5) s)).isSome = true ∧ (s.readGpr 5).toNat.testBit 27 = true := by
  decide

theorem witness_SlbieInvalidatesTheEsid :
    let b := (0xC000000000000000 : Word).toNat
    b % 2 ^ 27 = 0 ∧ ∀ e ∈ (mapped 0).slb, e.v = true → e.esid.toNat = b / 2 ^ 28 → e.c = b.testBit 27 := by decide

theorem witness_UndefinedSlbOperandsAreRefused :
    start.slb.length ≤ (64 : Word).toNat % 4096 ∧ (1 : Word).toNat % 2 ^ 7 ≠ 0 ∧
    (0x1000 : Word).toNat / 2 ^ 12 % 2 ^ 15 ≠ 0 ∧ (0x4000000 : Word).toNat % 2 ^ 27 ≠ 0 ∧
    ∃ e ∈ (mapped 0).slb, e.v = true ∧ e.esid.toNat = (0xC000000008000000 : Word).toNat / 2 ^ 28 ∧
      e.c ≠ (0xC000000008000000 : Word).toNat.testBit 27 := by decide

/-- Reset meets the invariant (R56). -/
theorem witness_inv_reset : State.reset.Inv :=
  ⟨by decide, by decide, by decide, by decide, by decide, by decide, by decide, by decide⟩

theorem witness_inv_placed : placed.Inv :=
  ⟨by decide, by decide, by decide, by decide, by decide, by decide, by decide, by decide⟩

theorem witness_StepKeepsTheInvariant : ∃ s t : State, s.Inv ∧ step s = .next t :=
  ⟨placed, (next_of_isSome _ (by decide : (nextOf (step placed)).isSome = true)).choose, witness_inv_placed,
    (next_of_isSome _ (by decide : (nextOf (step placed)).isSome = true)).choose_spec⟩

/-- A user-mode state with translation on, whose step takes an exception of the fetch. -/
theorem witness_StepKeepsUserModeTranslated :
    user.UserTranslated ∧ msrPR user.msr = true ∧ (nextOf (step user)).isSome = true := by decide

/-- P4, step 1: a user-mode step that completes; and one that takes an exception. -/
theorem witness_UserModeStepIsContained :
    let s := poke (poke (poke (reg { user with pc := 0x10000000, sdr1 := 0x1000000,
                                               slb := start.slb.set 0 (entry 1 0x777 false true) } 8 0x10000004)
      0x103BB80 8 0x777001) 0x103BB88 8 0x500011) 0x500000 8 0x88E800007C6000A6
    msrPR s.msr = true ∧ (nextOf (step s)).map (·.pc) = some 0x10000004 ∧ (nextOf (step user)).map (·.pc) = some 0x480 := by
  decide

theorem witness_OnlyTheseInstructionsChangeSystemState :
    (nextOf (exec .slbia (mapped 0))).map (·.slb == (mapped 0).slb) = some false ∧
    (nextOf (exec (.mtspr 25 3) (reg start 3 1))).map (·.sdr1) = some 1 ∧
    (nextOf (exec (.mfmsr 3) user)).map (·.msr) = some 0x8000000000000000 := by decide

/-- The first absent byte is byte 0, and byte 7. -/
theorem witness_AbsentMemoryIsAMachineCheck :
    start.RealData ∧ presentAt start.cfg (realByte 0x2000000 0) = false ∧
    presentAt start.cfg (realByte 0x1FFFFF9 7) = false ∧
    ∀ j, j < 7 → presentAt start.cfg (realByte 0x1FFFFF9 j) = true := by decide

/-- What the second clause of AbsentMemoryIsAMachineCheck asks of the table, the slots cut at slot `n`. -/
theorem absentSlot_of_all {s : State} {vpn : VPN} (n : Nat)
    (h : (((pteSlots s.sdr1 vpn).all fun y => !pteV (s.mem.readDw y.1.toNat) ||
        vsidFits s.cfg (pteVsid (s.mem.readDw y.1.toNat))) &&
      ((pteSlots s.sdr1 vpn).take n).all fun y => ((List.range 8).all fun j => presentAt s.cfg (y.1.toNat + j)) &&
        !pteMatches (s.mem.readDw y.1.toNat) vpn y.2) = true) :
    (∀ y ∈ pteSlots s.sdr1 vpn, pteV (s.mem.readDw y.1.toNat) = true →
      vsidFits s.cfg (pteVsid (s.mem.readDw y.1.toNat)) = true) ∧
    ∀ y ∈ (pteSlots s.sdr1 vpn).take n, (∀ j, j < 8 → presentAt s.cfg (y.1.toNat + j) = true) ∧
      pteMatches (s.mem.readDw y.1.toNat) vpn y.2 = false := by
  rw [Bool.and_eq_true] at h
  refine ⟨fun y hy hv => ?_, fun y hy => ?_⟩
  · simpa [hv] using List.all_eq_true.1 h.1 y hy
  · have hy := List.all_eq_true.1 h.2 y hy
    rw [Bool.and_eq_true] at hy
    exact ⟨fun j hj => List.all_eq_true.1 hy.1 j (List.mem_range.2 hj), by simpa using hy.2⟩

/-- Vector T15's page, slot 0 no match, and slot 1 of the primary PTEG absent from the last byte of doubleword 0 on. -/
def absentDw0 : State := { mapped 0x400012 with cfg := { start.cfg with present := [⟨0, 0x102BA97⟩] } }

/-- T1, the match in slot 0 absent from doubleword 1 on. -/
def absentDw1 : State := { mapped 0 with cfg := { start.cfg with present := [⟨0, 0x102BA88⟩] } }

theorem witness_AbsentMemoryIsAMachineCheck_dw0 :
    let s := reg absentDw0 8 0xC000000000923ABC
    let v := pageOf e1 0xC000000000923ABC
    (s.Quiet ∧ s.cfg.tlbPresent = false ∧ s.Translating .load ∧ s.Translating .store ∧
      s.SegmentOf 0xC000000000923ABC e1 ∧ e1.l = false ∧ s.TableLegal ∧
      s.eaD 8 0 = 0xC000000000923ABC ∧ s.eaDs 8 0 = 0xC000000000923ABC) ∧
    pteSlots s.sdr1 v = (pteSlots s.sdr1 v).take 1 ++ (0x102BA90, false) :: (pteSlots s.sdr1 v).drop 2 ∧
    ((∀ y ∈ pteSlots s.sdr1 v, pteV (s.mem.readDw y.1.toNat) = true →
        vsidFits s.cfg (pteVsid (s.mem.readDw y.1.toNat)) = true) ∧
      ∀ y ∈ (pteSlots s.sdr1 v).take 1, (∀ j, j < 8 → presentAt s.cfg (y.1.toNat + j) = true) ∧
        pteMatches (s.mem.readDw y.1.toNat) v y.2 = false) ∧
    presentAt s.cfg (0x102BA90 + 7) = false ∧ ∀ j, j < 7 → presentAt s.cfg (0x102BA90 + j) = true :=
  ⟨by decide, by decide, absentSlot_of_all 1 (by decide), by decide, by decide⟩

/-- For a fetch. -/
theorem witness_AbsentMemoryIsAMachineCheck_dw1 :
    let s := { absentDw1 with msr := 0x8000000000000020 }
    let v := pageOf e1 0xC000000000123ABC
    (s.Quiet ∧ s.cfg.tlbPresent = false ∧ s.Translating .fetch ∧ s.SegmentOf 0xC000000000123ABC e1 ∧ e1.l = false ∧
      e1.n = false ∧ s.TableLegal) ∧
    pteSlots s.sdr1 v = (pteSlots s.sdr1 v).take 0 ++ (0x102BA80, false) :: (pteSlots s.sdr1 v).drop 1 ∧
    ((∀ y ∈ pteSlots s.sdr1 v, pteV (s.mem.readDw y.1.toNat) = true →
        vsidFits s.cfg (pteVsid (s.mem.readDw y.1.toNat)) = true) ∧
      ∀ y ∈ (pteSlots s.sdr1 v).take 0, (∀ j, j < 8 → presentAt s.cfg (y.1.toNat + j) = true) ∧
        pteMatches (s.mem.readDw y.1.toNat) v y.2 = false) ∧
    (∀ j, j < 8 → presentAt s.cfg (0x102BA80 + j) = true) ∧ pteMatches (s.mem.readDw 0x102BA80) v false = true ∧
    presentAt s.cfg (0x102BA88 + 0) = false :=
  ⟨by decide, by decide, absentSlot_of_all 0 (by decide), by decide, by decide, by decide⟩

/-- T14, its last item: the search's absent byte ends the run. -/
theorem test_T14_absent_slot :
    (faultOf (exec (.std 7 8 0) (reg absentDw0 8 0xC000000000923ABC))).map (·.1) = some 0x102BA97 ∧
    (faultOf (exec (.lbz 7 8 0) (reg absentDw1 8 0xC000000000123ABC))).map (·.1) = some 0x102BA88 := by decide

/-- T14: RPN = ABCDE, which is not present. Byte 0 of an access of either length is the first absent one. -/
theorem witness_MachineCheckComesAfterTheHistoryBits :
    let s := reg (mapped 0xABCDE012) 8 0xC000000000123ABC
    s.Mapped 0xC000000000123ABC .load e1 0x102BA80 ∧ s.Mapped 0xC000000000123ABC .store e1 0x102BA80 ∧
    s.eaD 8 0 = 0xC000000000123ABC ∧ s.eaDs 8 0 = 0xC000000000123ABC ∧ s.mem.wf = true ∧
    (0xC000000000123ABC : Word).toNat % 4096 + 8 ≤ 4096 ∧
    presentAt s.cfg (pagePa (s.pteAt 0x102BA80) 0xC000000000123ABC).toNat = false :=
  ⟨⟨by decide, by decide, by decide, by decide, by decide, slotsLegal_of_all (by decide), tableHolds_of_all (by decide),
    by decide⟩,
    ⟨by decide, by decide, by decide, by decide, by decide, slotsLegal_of_all (by decide), tableHolds_of_all (by decide),
    by decide⟩, by decide, by decide, by decide, by decide, by decide⟩

/-- The last byte of a present range is byte 6 of the access, so byte 7 is the first absent one. -/
theorem witness_MachineCheckComesAfterTheHistoryBits_last_byte :
    let s := reg (mapped 0x1FFF012) 8 0xC000000000123FF8
    let c := { s with cfg := { s.cfg with present := [⟨0, 0x1FFFFFF⟩] } }
    (∀ j, j < 7 → presentAt c.cfg ((pagePa (c.pteAt 0x102BA80) 0xC000000000123FF8).toNat + j) = true) ∧
    presentAt c.cfg ((pagePa (c.pteAt 0x102BA80) 0xC000000000123FF8).toNat + 7) = false ∧
    (faultOf (exec (.std 7 8 0) c)).map (fun r => (r.1, r.2.mem.readDw 0x102BA88)) = some (0x1FFFFFF, 0x1FFF192) := by
  decide

/-- A crossing access whose second page, RPN = ABCDE, is absent: its first byte is the first absent one (with
`witness_DoublewordAccessAcrossTwoPages` for the addresses). -/
def crossingAbsent : State := reg (mappedTwo 0xABCDE012) 8 0xC000000000123FFC

theorem witness_MachineCheckComesAfterTheHistoryBits_crossing :
    (crossingAbsent.Mapped 0xC000000000123FFC .load e1 0x102BA80 ∧
      crossingAbsent.Mapped 0xC000000000123FFC .store e1 0x102BA80) ∧
    (crossingAbsent.Mapped 0xC000000000124000 .load e1 0x102B900 ∧
      crossingAbsent.Mapped 0xC000000000124000 .store e1 0x102B900) ∧
    crossingAbsent.eaDs 8 0 = 0xC000000000123FFC ∧ crossingAbsent.mem.wf = true ∧
    firstAbsent crossingAbsent.cfg (bytesFrom (pagePa (crossingAbsent.pteAt 0x102BA80) 0xC000000000123FFC).toNat 4 ++
      bytesFrom (pagePa (crossingAbsent.pteAt 0x102B900) 0xC000000000124000).toNat 4) = some 0xABCDE000 :=
  ⟨⟨⟨by decide, by decide, by decide, by decide, by decide, slotsLegal_of_all (by decide),
      tableHolds_of_all (by decide), by decide⟩,
    ⟨by decide, by decide, by decide, by decide, by decide, slotsLegal_of_all (by decide),
      tableHolds_of_all (by decide), by decide⟩⟩,
    ⟨⟨by decide, by decide, by decide, by decide, by decide, slotsLegal_of_all (by decide),
      tableHolds_of_all (by decide), by decide⟩,
    ⟨by decide, by decide, by decide, by decide, by decide, slotsLegal_of_all (by decide),
      tableHolds_of_all (by decide), by decide⟩⟩, by decide, by decide, by decide⟩

end Sys2Proof.Tests
end

section
/-! SUPPORT. The invariant of the machine's states, `State.Inv`: what keeps pc a multiple of 4, one lemma per named
operation on the state, one per shape of outcome, one per instruction; and the statement that every step keeps it. -/

namespace Sys2Proof.Machine

/-! Multiples of 4 (R50) -/

/-- Two multiples of 4 have a sum modulo 2^64 that is one. -/
theorem aligned_add {a b : Word} (ha : a.toNat % 4 = 0) (hb : b.toNat % 4 = 0) : (a + b).toNat % 4 = 0 := by
  rw [BitVec.toNat_add]
  omega

/-- Clearing bits 62:63 gives a multiple of 4: the pc that `rfid` returns to (R184). -/
theorem aligned_clear_low (w : Word) : (w &&& ~~~(fieldMask 62 63)).toNat % 4 = 0 := by
  have hmask : (~~~(fieldMask 62 63)).toNat % 2 ^ 2 = 0 := by decide
  rw [BitVec.toNat_and]
  change _ % 2 ^ 2 = 0
  rw [Nat.and_mod_two_pow, hmask, Nat.and_zero]

theorem vectorOffset_aligned (e : Exc) : (vectorOffset e).toNat % 4 = 0 := by
  cases e <;> simp [vectorOffset]

/-- VECTOR_BASE is a multiple of 4096 (P11). -/
theorem Config.vectorBase_aligned {c : Config} (h : c.wf = true) : c.vectorBase.toNat % 4096 = 0 := by
  unfold Config.wf at h
  exact of_decide_eq_true (Bool.and_eq_true_iff.1 h).2

/-- The pc at exception entry (R225). -/
theorem vector_aligned {c : Config} (h : c.wf = true) (e : Exc) :
    (c.vectorBase.setWidth 64 + vectorOffset e).toNat % 4 = 0 := by
  have hb := Config.vectorBase_aligned h
  refine aligned_add ?_ (vectorOffset_aligned e)
  rw [BitVec.toNat_setWidth]
  omega

/-! The operations on the state -/

namespace State.Inv
variable {s t : State}

/-- What the translation unit and the TLB agent do. -/
theorem unitFrame (h : s.Inv) (f : s.UnitFrame t) : t.Inv where
  cfg := by rw [f.regs.cfg]; exact h.cfg
  memWf := f.memWf h.memWf
  memPresent := by rw [f.regs.cfg]; exact f.memPresent h.memPresent
  pcAligned := by rw [f.pc]; exact h.pcAligned
  slbNonempty := by rw [f.regs.slb]; exact h.slbNonempty
  noTlb := fun c => by
    rw [f.regs.cfg] at c
    exact f.noTlb c (h.noTlb c)
  pteWindowAligned := by rw [f.pteWindow]; exact h.pteWindowAligned
  slbWindowInRange := by rw [f.slbWindow, f.regs.slb]; exact h.slbWindowInRange

theorem tlbAgent (h : s.Inv) : s.tlbAgent.Inv := h.unitFrame s.tlbAgent_frame

theorem draw (h : s.Inv) (n : Nat) : State.Inv { s with draws := n } := h.unitFrame (.draw s n)

theorem setGpr (h : s.Inv) (r : Reg) (v : Word) : (s.setGpr r v).Inv := { h with }

theorem nextPc (h : s.Inv) : s.nextPc.Inv := { h with pcAligned := aligned_add h.pcAligned (by decide) }

theorem contextSync (h : s.Inv) : s.contextSync.Inv := { h with slbWindowInRange := by simp }

theorem setMsrRacing (h : s.Inv) (m : Word) : (s.setMsrRacing m).Inv := { h with }

theorem setSdr1Racing (h : s.Inv) (v : Word) : (s.setSdr1Racing v).Inv := { h with }

theorem setSlbRacing (h : s.Inv) {i : Nat} (hi : i < s.slb.length) (e : SlbEntry) : (s.setSlbRacing i e).Inv :=
  { h with
    slbNonempty := by simpa using h.slbNonempty
    slbWindowInRange := by simpa [hi] using h.slbWindowInRange }

theorem invalidateSlb (h : s.Inv) (p : Nat → SlbEntry → Bool) : (s.invalidateSlb p).Inv :=
  { h with
    slbNonempty := by simpa [State.invalidateSlb] using h.slbNonempty
    slbWindowInRange := by
      intro x hx
      simp only [State.invalidateSlb, List.length_mapIdx, List.mem_append, List.mem_filterMap] at hx ⊢
      rcases hx with ⟨⟨e, i⟩, he, hx⟩ | hx
      · have hi : i < s.slb.length := by simpa using (List.mem_zipIdx he).2.1
        split at hx
        · cases hx
          exact hi
        · cases hx
      · exact h.slbWindowInRange x hx }

/-- A store of the program to present bytes. -/
theorem storeBytes (h : s.Inv) {as : List Nat} (ha : ∀ a ∈ as, presentAt s.cfg a = true) (bs : List Byte) :
    (s.storeBytes as bs).Inv :=
  { h with
    memWf := s.mem.wf_writeAll _ h.memWf
    memPresent := by
      intro x hx
      rcases s.mem.mem_writeAll _ x hx with hx | ⟨⟨a, b⟩, hy, hxa⟩
      · exact h.memPresent x hx
      · rw [hxa]
        exact ha a (List.of_mem_zip hy).1
    pteWindowAligned := by
      rintro ⟨a, v⟩ hx
      obtain ⟨new, hw, hnew⟩ := (s.storeBytes_windows as bs).pteWindow
      rw [hw, List.mem_append] at hx
      rcases hx with hx | hx
      · obtain ⟨⟨b, -, rfl⟩, -⟩ := (hnew a v).1 hx
        exact Nat.mul_mod_left _ _
      · exact h.pteWindowAligned _ hx }

theorem takeException (h : s.Inv) (e : Exc) : (s.takeException e).Inv where
  cfg := by simpa using h.cfg
  memWf := by simpa using h.memWf
  memPresent := by simpa using h.memPresent
  pcAligned := vector_aligned h.cfg e
  slbNonempty := by simpa using h.slbNonempty
  noTlb := by simpa using h.noTlb
  pteWindowAligned := by simpa using h.pteWindowAligned
  slbWindowInRange := by simp

theorem returnFromException (h : s.Inv) : s.returnFromException.Inv :=
  { h.contextSync with pcAligned := aligned_clear_low s.srr0 }

theorem storageSync (h : s.Inv) (l : BitVec 2) : (s.storageSync l).Inv := by
  unfold State.storageSync
  split
  · exact { h with noTlb := fun c => ⟨(h.noTlb c).1, rfl⟩, pteWindowAligned := by simp }
  · split
    · exact { h with pteWindowAligned := by simp }
    · exact h

theorem tlbInvalidate (h : s.Inv) (b : Word) : (s.tlbInvalidate b).Inv := by
  unfold State.tlbInvalidate
  split
  · rename_i hp
    exact { h with noTlb := fun c => absurd (hp.symm.trans c) (by decide) }
  · exact h

/-- What `tlbia` does to the TLB (R166). -/
theorem clearTlb (h : s.Inv) : State.Inv { s with tlb := [], tlbWindow := [] } :=
  { h with noTlb := fun _ => ⟨rfl, rfl⟩ }

theorem writeSpr (h : s.Inv) {n : BitVec 10} {v : Word} (hw : s.writeSpr n v = some t) : t.Inv := by
  unfold State.writeSpr at hw
  split_ifs at hw <;> cases hw
  · exact h.setSdr1Racing v
  all_goals exact { h with }

end State.Inv

/-! Outcomes -/

/-- If the outcome is a next state, `P` holds of it. -/
def NextMeets (P : State → Prop) (o : Host.Outcome State Fault Refusal) : Prop := ∀ t, o = .next t → P t

@[simp] theorem nextMeets_next (P : State → Prop) (s : State) : NextMeets P (.next s) ↔ P s := by
  simp [NextMeets]

@[simp] theorem nextMeets_refused (P : State → Prop) (r : Refusal) : NextMeets P (.refused r) := nofun

theorem nextMeets_privileged {P : State → Prop} {s : State} {o : Host.Outcome State Fault Refusal}
    (he : P (s.takeException .programPrivileged)) (ho : NextMeets P o) : NextMeets P (privileged s o) := by
  intro t ht
  rcases (privileged_next s t o).1 ht with ⟨-, rfl⟩ | ⟨-, ht⟩
  · exact he
  · exact ho t ht

/-! The instructions -/

namespace State.Inv
variable {s : State}

/-- A privileged instruction keeps the invariant where its meaning in supervisor mode does. -/
theorem privileged (h : s.Inv) {o : Host.Outcome State Fault Refusal} (ho : NextMeets State.Inv o) :
    NextMeets State.Inv (privileged s o) :=
  nextMeets_privileged (h.takeException _) ho

/-- An instruction that completes with pc ← pc + 4 (R188). -/
theorem completes (h : s.Inv) : NextMeets State.Inv (.next s.nextPc) :=
  (nextMeets_next _ _).2 h.nextPc

theorem execSlbmte (h : s.Inv) (rs rb : Reg) : NextMeets State.Inv (execSlbmte rs rb s) := by
  refine h.privileged ?_
  dsimp only
  split
  · rename_i hi
    exact (h.setSlbRacing hi.1 _).completes
  · exact nextMeets_refused _ _

theorem execSlbmfev (h : s.Inv) (rt rb : Reg) : NextMeets State.Inv (execSlbmfev rt rb s) := by
  refine h.privileged ?_
  split
  · exact nextMeets_refused _ _
  · exact ((h.draw _).setGpr _ _).completes

theorem execSlbmfee (h : s.Inv) (rt rb : Reg) : NextMeets State.Inv (execSlbmfee rt rb s) := by
  refine h.privileged ?_
  split
  · exact nextMeets_refused _ _
  · exact ((h.draw _).setGpr _ _).completes

theorem execSlbie (h : s.Inv) (rb : Reg) : NextMeets State.Inv (execSlbie rb s) := by
  refine h.privileged ?_
  dsimp only
  split
  · exact (h.invalidateSlb _).completes
  · exact nextMeets_refused _ _

theorem execTlbie (h : s.Inv) (rb : Reg) (l : BitVec 1) : NextMeets State.Inv (execTlbie rb l s) := by
  refine h.privileged ?_
  split
  · exact nextMeets_refused _ _
  · exact (h.tlbInvalidate _).completes

theorem execTlbia (h : s.Inv) : NextMeets State.Inv (execTlbia s) := by
  unfold Machine.execTlbia
  split
  · refine h.privileged (completes ?_)
    split
    · exact h.clearTlb
    · exact h
  · exact nextMeets_refused _ _

theorem execMtspr (h : s.Inv) (spr : BitVec 10) (rs : Reg) : NextMeets State.Inv (execMtspr spr rs s) := by
  refine h.privileged ?_
  split
  · rename_i t ht
    exact (h.writeSpr ht).completes
  · exact nextMeets_refused _ _

theorem execMfspr (h : s.Inv) (rt : Reg) (spr : BitVec 10) : NextMeets State.Inv (execMfspr rt spr s) := by
  refine h.privileged ?_
  split
  · exact (h.setGpr _ _).completes
  · exact nextMeets_refused _ _

theorem execSync (h : s.Inv) (l : BitVec 2) : NextMeets State.Inv (execSync l s) := by
  unfold Machine.execSync
  split
  · exact nextMeets_refused _ _
  · exact (h.storageSync l).completes

theorem loadInto (h : s.Inv) (rt : Reg) (ea : Word) (n : Nat) : NextMeets State.Inv (loadInto rt ea n s) := by
  intro t ht
  rcases loadInto_next rt ea n s t ht with ⟨as, u, hu, -, rfl⟩ | ⟨e, u, hu, rfl⟩
  · exact ((h.unitFrame (translateAccess_ok _ _ _ _ _ _ hu)).setGpr _ _).nextPc
  · exact (h.unitFrame (translateAccess_fail _ _ _ _ _ _ hu)).takeException e

theorem storeFrom (h : s.Inv) (ea : Word) (bs : List Byte) : NextMeets State.Inv (storeFrom ea bs s) := by
  intro t ht
  rcases storeFrom_next ea bs s t ht with ⟨as, u, hu, ha, rfl⟩ | ⟨e, u, hu, rfl⟩
  · have hf := translateAccess_ok _ _ _ _ _ _ hu
    have hpresent : ∀ a ∈ as, presentAt u.tlbAgent.cfg a = true := by
      rw [State.tlbAgent_cfg, hf.regs.cfg]
      exact (firstAbsent_eq_none _ _).1 ha
    exact ((h.unitFrame hf).tlbAgent.storeBytes hpresent bs).nextPc
  · exact (h.unitFrame (translateAccess_fail _ _ _ _ _ _ hu)).takeException e

/-- Every instruction keeps the invariant. -/
theorem exec (h : s.Inv) (i : Instr) : NextMeets State.Inv (exec i s) := by
  cases i with
  | slbmte rs rb => exact h.execSlbmte rs rb
  | slbmfev rt rb => exact h.execSlbmfev rt rb
  | slbmfee rt rb => exact h.execSlbmfee rt rb
  | slbie rb => exact h.execSlbie rb
  | slbia => exact h.privileged (h.invalidateSlb _).completes
  | tlbie rb l => exact h.execTlbie rb l
  | tlbia => exact h.execTlbia
  | tlbsync => exact h.privileged h.completes
  | mtmsrd rs l => exact h.privileged (h.setMsrRacing _).completes
  | mfmsr rt => exact h.privileged (h.setGpr _ _).completes
  | mtspr spr rs => exact h.execMtspr spr rs
  | mfspr rt spr => exact h.execMfspr rt spr
  | rfid => exact h.privileged ((nextMeets_next _ _).2 h.returnFromException)
  | sync l => exact h.execSync l
  | isync => exact h.contextSync.completes
  | lbz rt ra d => exact h.loadInto rt _ 1
  | stb rs ra d => exact h.storeFrom _ _
  | ld rt ra ds => exact h.loadInto rt _ 8
  | std rs ra ds => exact h.storeFrom _ _

/-- Every step keeps the invariant: the TLB agent and the fetch stay in the translation unit's frame, and then an
exception is taken or an instruction runs. -/
theorem step (h : s.Inv) : NextMeets State.Inv (step s) := by
  intro t ht
  have hfetch := h.tlbAgent.unitFrame (memRead_frame s.tlbAgent s.tlbAgent.pc 4 .fetch)
  obtain ⟨-, ⟨e, u, hu, rfl⟩ | ⟨bs, u, i, rest, hu, -, hx⟩⟩ := step_next s t ht <;>
    rw [fetchBytes] at hu <;> rw [hu] at hfetch
  · exact hfetch.takeException e
  · exact hfetch.tlbAgent.exec i t hx

end State.Inv

/-- Settles O54: `State.Inv.step`, from one lemma per operation on the state and one per instruction. -/
theorem stepKeepsTheInvariant : Obligations.StepKeepsTheInvariant :=
  fun _ t h ht => h.step t ht

end Sys2Proof.Machine
end

section
/-! SUPPORT. What `step` answers for each outcome of its fetch (spec/10_state.md R50; spec/60_exceptions.md R216, R227),
the fetch in real addressing mode (spec/20_memory.md R63, R73), and the state after reset (R56, R250). -/

namespace Sys2Proof.Machine

/-! The step, by the outcome of its fetch -/

section
variable {s u : State}

theorem unsupportedMode_of_supported (h : s.Supported) : unsupportedMode s = none := by
  simp [unsupportedMode, h.1, h.2]

theorem step_of_fetch_fail {f : Failure} (h : s.Supported) (hf : fetchBytes s.tlbAgent = .fail f u) :
    step s = raise f u := by
  simp [step, unsupportedMode_of_supported h, hf]

theorem step_of_decode_ok {bs rest : List Byte} {i : Instr} (h : s.Supported) (hf : fetchBytes s.tlbAgent = .ok bs u)
    (hd : decode bs = .ok (i, rest)) : step s = exec i u.tlbAgent := by
  simp [step, unsupportedMode_of_supported h, hf, hd]

theorem step_of_decode_error {bs : List Byte} {e : DecodeError} (h : s.Supported)
    (hf : fetchBytes s.tlbAgent = .ok bs u) (hd : decode bs = .error e) : step s = .refused (.word e) := by
  simp [step, unsupportedMode_of_supported h, hf, hd]

/-- A mode the spec does not describe is refused before the fetch: SF = 0 is named first (D1, D18). -/
theorem step_of_unsupported (h : ¬ s.Supported) :
    step s = .refused .thirtyTwoBitMode ∨ step s = .refused .littleEndianMode := by
  cases hsf : msrSF s.msr with
  | false => exact .inl (by simp [step, unsupportedMode, hsf])
  | true =>
    have hle : msrLE s.msr = true := by simpa [hsf] using h
    exact .inr (by simp [step, unsupportedMode, hsf, hle])

end

/-- Settles O5: one lemma on `step` per outcome of the fetch. -/
theorem stepRunsTheDecodedInstruction : Obligations.StepRunsTheDecodedInstruction :=
  ⟨fun _ _ _ _ _ h hf hd => step_of_decode_ok h hf hd, fun _ _ _ _ h hf hd => step_of_decode_error h hf hd,
    fun _ _ _ h hf => step_of_fetch_fail h hf, fun _ _ _ h hf => step_of_fetch_fail h hf,
    fun _ _ _ h hf => step_of_fetch_fail h hf, fun _ h => step_of_unsupported h⟩

/-! Real addressing mode -/

/-- Within a page the bytes of an access are consecutive: the 62 low bits do not wrap there (R66, R73). -/
theorem bytesFrom_eq_realBytes (ea : Word) (n : Nat) (h : ea.toNat % 4096 + n ≤ 4096) :
    bytesFrom (ea.toNat % 2 ^ 62) n = (List.range n).map (realByte ea) := by
  refine List.map_congr_left fun k hk => ?_
  have hkn : k < n := List.mem_range.1 hk
  simp only [realByte]
  omega

/-- A real-mode access within a page reads no translation state and sets no history bits (R72, R77). -/
theorem translateAccess_of_real (s : State) (ea : Word) (n : Nat) (kind : AccessKind)
    (hoff : seenEnabled s s.draws kind = false) (hi : s.cfg.realModeHighBits = .ignore)
    (h : ea.toNat % 4096 + n ≤ 4096) :
    translateAccess s ea n kind = .ok ((List.range n).map (realByte ea)) { s with draws := s.draws + 2 } := by
  have hx : translate s s.draws ea kind = .ok ⟨BitVec.ofNat 62 (ea.toNat % 2 ^ 62), none⟩ := by
    simp [translate, hoff, realTranslate_of_ignore s.cfg ea hi]
  have hpa : (BitVec.ofNat 62 (ea.toNat % 2 ^ 62)).toNat = ea.toNat % 2 ^ 62 := by simp
  simp only [translateAccess, translate_draws, hx, firstPartLen_within ea n h, if_true, recordPart, hpa,
    bytesFrom_eq_realBytes ea n h]

/-- MemRead in real addressing mode within a page, its bytes present (R64, R73). -/
theorem memRead_of_real (s : State) (ea : Word) (n : Nat) (kind : AccessKind)
    (hoff : seenEnabled s s.draws kind = false) (hi : s.cfg.realModeHighBits = .ignore)
    (h : ea.toNat % 4096 + n ≤ 4096) (hp : s.RealBytesPresent ea n) :
    memRead s ea n kind =
      .ok ((List.range n).map fun k => s.mem.read (realByte ea k)) { s with draws := s.draws + 2 } := by
  have hpresent : firstAbsent s.cfg ((List.range n).map (realByte ea)) = none := by
    simpa [firstAbsent_eq_none] using hp
  simp [memRead, translateAccess_of_real s ea n kind hoff hi h, hpresent]

/-- The word that four bytes spell, as a number: the first byte is the most significant (R63, R141). -/
theorem wordOfBytes_eq_ofNat (b0 b1 b2 b3 : Byte) :
    wordOfBytes b0 b1 b2 b3 =
      BitVec.ofNat 32 (b0.toNat * 2 ^ 24 + b1.toNat * 2 ^ 16 + b2.toNat * 2 ^ 8 + b3.toNat) := by
  have h0 := b0.isLt
  have h1 := b1.isLt
  have h2 := b2.isLt
  have h3 := b3.isLt
  apply BitVec.eq_of_toNat_eq
  simp only [wordOfBytes, BitVec.toNat_append, BitVec.toNat_ofNat]
  rw [← Nat.shiftLeft_add_eq_or_of_lt h1, ← Nat.shiftLeft_add_eq_or_of_lt h2, ← Nat.shiftLeft_add_eq_or_of_lt h3]
  simp only [Nat.shiftLeft_eq]
  omega

/-- Settles O6: with IR = 0 the fetch reads the four bytes at the 62 low bits of pc, a multiple of 4, which lie in one
page; there is no TLB for the agent's turns to change. -/
theorem stepInRealModeRunsTheWordAtPc : Obligations.StepInRealModeRunsTheWordAtPc := by
  intro s i hmode hir hwin hign htlb hpc hpresent hword
  have hfetch := memRead_of_real s s.pc 4 .fetch (by simp [seenEnabled, seenBit, hir, hwin]) hign (by omega) hpresent
  rw [← wordOfBytes_eq_ofNat] at hword
  rw [← State.tlbAgent_of_absent { s with draws := s.draws + 2 } htlb]
  refine step_of_decode_ok (rest := []) hmode (by rw [s.tlbAgent_of_absent htlb]; exact hfetch) ?_
  simp [List.range, List.range.loop, decode, hword]

/-! Reset -/

/-- Settles O56: each clause is a fact about the one state `State.reset`. -/
theorem resetState : Obligations.ResetState := by
  have hinv : State.reset.Inv := by constructor <;> decide
  exact ⟨by decide, by decide, by decide, by decide, rfl, hinv, by decide, by decide⟩

end Sys2Proof.Machine
end

section
/-! SUPPORT. Where a PTEG lies (spec/20_memory.md R97, R98), and the translations that are refused by name
(spec/93_implementation_defined.md U1, U2, U5 to U8, U11). -/

namespace Sys2Proof.Machine

/-! The address of a PTEG -/

theorem sdr1Size_eq (x : Word) : sdr1Size x = x.toNat % 2 ^ 5 := by
  simp [sdr1Size, slice]

theorem sdr1Org_toNat (x : Word) : (sdr1Org x).toNat = x.toNat / 2 ^ 18 % 2 ^ 44 := by
  simp [sdr1Org, slice, Nat.shiftRight_eq_div_pow]

/-- The mask of R97 keeps the HTABSIZE low bits of what it is ANDed with. -/
theorem and_htabMask_toNat (v : BitVec 28) (size : Nat) (h : size ≤ 28) :
    (v &&& htabMask size).toNat = v.toNat % 2 ^ size := by
  have hle : 2 ^ size ≤ 2 ^ 28 := Nat.pow_le_pow_right (by decide) h
  rw [BitVec.toNat_and, htabMask, BitVec.toNat_ofNat, Nat.mod_eq_of_lt (by omega), Nat.and_two_pow_sub_one_eq_mod]

/-- The fields of a PTEG address in numbers (R97): of HTABORG the 16 high bits as they are, the 28 low ones ORed with
the hash bits that HTABSIZE selects. -/
theorem ptegAddr_toNat (x : Word) (hash : BitVec 39) (h : sdr1Size x ≤ 28) :
    (ptegAddr x hash).toNat =
      ((sdr1Org x).toNat / 2 ^ 28 * 2 ^ 28 +
        ((sdr1Org x).toNat % 2 ^ 28 ||| hash.toNat / 2 ^ 11 % 2 ^ sdr1Size x)) * 2 ^ 18 +
      hash.toNat % 2 ^ 11 * 2 ^ 7 := by
  have hhigh : (slice (sdr1Org x) 0 15).toNat = (sdr1Org x).toNat / 2 ^ 28 := by
    have := (sdr1Org x).isLt
    simp only [slice, BitVec.extractLsb'_toNat, Nat.shiftRight_eq_div_pow]
    omega
  have hsel : (slice hash 0 27).toNat = hash.toNat / 2 ^ 11 := by
    have := hash.isLt
    simp only [slice, BitVec.extractLsb'_toNat, Nat.shiftRight_eq_div_pow]
    omega
  have hmid : (slice (sdr1Org x) 16 43 ||| (slice hash 0 27 &&& htabMask (sdr1Size x))).toNat =
      (sdr1Org x).toNat % 2 ^ 28 ||| hash.toNat / 2 ^ 11 % 2 ^ sdr1Size x := by
    rw [BitVec.toNat_or, and_htabMask_toNat _ _ h, hsel]
    simp [slice]
  have hlow : (slice hash 28 38).toNat = hash.toNat % 2 ^ 11 := by simp [slice]
  rw [ptegAddr, BitVec.toNat_append, BitVec.toNat_append, BitVec.toNat_append,
    ← Nat.shiftLeft_add_eq_or_of_lt (BitVec.isLt _), ← Nat.shiftLeft_add_eq_or_of_lt (BitVec.isLt _),
    ← Nat.shiftLeft_add_eq_or_of_lt (BitVec.isLt _), hhigh, hmid, hlow,
    show (0 : BitVec 7).toNat = 0 from rfl]
  simp only [Nat.shiftLeft_eq]
  omega

/-- With the selected bits of HTABORG zero the OR is an addition (R98). -/
theorem ptegAddr_toNat_of_aligned (x : Word) (hash : BitVec 39) (h : sdr1Size x ≤ 28)
    (ha : (sdr1Org x).toNat % 2 ^ sdr1Size x = 0) :
    (ptegAddr x hash).toNat =
      ((sdr1Org x).toNat + hash.toNat / 2 ^ 11 % 2 ^ sdr1Size x) * 2 ^ 18 + hash.toNat % 2 ^ 11 * 2 ^ 7 := by
  have hdvd : 2 ^ sdr1Size x ∣ (sdr1Org x).toNat % 2 ^ 28 :=
    (Nat.dvd_mod_iff (Nat.pow_dvd_pow 2 h)).2 (Nat.dvd_of_mod_eq_zero ha)
  obtain ⟨q, hq⟩ := hdvd
  have hor : (sdr1Org x).toNat % 2 ^ 28 ||| hash.toNat / 2 ^ 11 % 2 ^ sdr1Size x =
      (sdr1Org x).toNat % 2 ^ 28 + hash.toNat / 2 ^ 11 % 2 ^ sdr1Size x := by
    rw [hq]
    exact (Nat.two_pow_add_eq_or_of_lt (Nat.mod_lt _ (by positivity)) q).symm
  rw [ptegAddr_toNat x hash h, hor]
  omega

/-- Settles O15: in an aligned table the PTEG is at the base plus a multiple of 128 below the table's size. -/
theorem ptegLiesInsideAnAlignedTable : Obligations.PtegLiesInsideAnAlignedTable := by
  intro x hash hsize halign
  rw [← sdr1Size_eq] at hsize halign ⊢
  have horg : (sdr1Org x).toNat % 2 ^ sdr1Size x = 0 := by
    rw [sdr1Org_toNat, Nat.mod_mod_of_dvd _ (Nat.pow_dvd_pow 2 (by omega)), halign]
  rw [ptegAddr_toNat_of_aligned x hash hsize horg, ← sdr1Org_toNat, pow_add]
  have hsel : hash.toNat / 2 ^ 11 % 2 ^ sdr1Size x < 2 ^ sdr1Size x := Nat.mod_lt _ (by positivity)
  omega

/-! Refused translations -/

theorem ptesAgree_eq_false {p q : Pte} :
    ptesAgree p q = false ↔ pteRpn p ≠ pteRpn q ∨ pteWimg p ≠ pteWimg q ∨ pteN p ≠ pteN q ∨ ptePp p ≠ ptePp q := by
  simp only [ptesAgree, Bool.and_eq_false_iff, beq_eq_false_iff_ne, or_assoc]

/-- PTEs that agree with one PTE agree with each other (R106). -/
theorem ptesAgree_of_common {r p q : Pte} (hp : ptesAgree r p = true) (hq : ptesAgree r q = true) :
    ptesAgree p q = true := by
  simp only [ptesAgree, Bool.and_eq_true, beq_iff_eq] at *
  obtain ⟨⟨⟨hrpn, hwimg⟩, hn⟩, hpp⟩ := hp
  rw [← hrpn, ← hwimg, ← hn, ← hpp]
  exact hq

theorem translate_of_multipleHits (s : State) (d : Nat) (ea : Word) (kind : AccessKind) (e f : SlbEntry)
    (es : List SlbEntry) (hq : s.ContextSynced) (h : s.Translating kind)
    (hs : s.slb.filter (slbHit ea) = e :: f :: es) : translate s d ea kind = .error (.refuse .slbMultipleHits) := by
  rw [translate_of_translating s d ea kind hq h, pageTranslate, segmentLookup, seenSlb_of_closed s d hq.2.1, hs]

theorem translate_of_wideSegment (s : State) (d : Nat) (ea : Word) (kind : AccessKind) (e : SlbEntry)
    (hq : s.ContextSynced) (h : s.Translating kind) (hs : s.slb.filter (slbHit ea) = [e])
    (hw : vsidFits s.cfg e.vsid = false) : translate s d ea kind = .error (.refuse .vsidTooWide) := by
  rw [translate_of_translating s d ea kind hq h, pageTranslate, segmentLookup, seenSlb_of_closed s d hq.2.1, hs]
  simp [hw]

theorem translate_of_largeSegment (s : State) (d : Nat) (ea : Word) (kind : AccessKind) (e : SlbEntry)
    (hq : s.ContextSynced) (h : s.Translating kind) (he : s.SegmentOf ea e) (hn : ¬ (kind = .fetch ∧ e.n = true))
    (hl : e.l = true) : translate s d ea kind = .error (.refuse .largePage) := by
  rw [translate_of_translating s d ea kind hq h, pageTranslate, segmentLookup_of_segment s d ea kind e hq he,
    if_neg hn, if_pos hl]

/-- Without a TLB, and with SDR1 as it is, a translation fails where every search of the page table under that SDR1
does, whatever doublewords the access sees. -/
theorem translate_of_sdr1_error (s : State) (d : Nat) (ea : Word) (kind : AccessKind) (e : SlbEntry) (f : Failure)
    (hq : s.ContextSynced) (h : s.Translating kind) (he : s.SegmentOf ea e) (hn : ¬ (kind = .fetch ∧ e.n = true))
    (hl : e.l = false) (ht : s.cfg.tlbPresent = false)
    (hf : ∀ rd, searchTable s.cfg s.sdr1 rd (pageOf e ea) = .error f) : translate s d ea kind = .error f := by
  rw [translate_of_segment s d ea kind e hq h he hn hl]
  simp [pageLookup, tlbLookup_of_absent s d _ ht, searchSeen, seenSdr1_of_closed s d hq.2.2, hf]

theorem searchTable_of_sdr1Reserved (c : Config) (x : Word) (rd : Nat → Word) (vpn : VPN)
    (h : sdr1ReservedZero x = false) : searchTable c x rd vpn = .error (.refuse .sdr1Reserved) := by
  simp [searchTable, h]

theorem searchTable_of_htabSize (c : Config) (x : Word) (rd : Nat → Word) (vpn : VPN)
    (hr : sdr1ReservedZero x = true) (h : htabLimit c < sdr1Size x) :
    searchTable c x rd vpn = .error (.refuse .htabSize) := by
  simp [searchTable, hr, h]

section
variable {s : State} {vpn : VPN} (ht : s.TableLegal) (hs : s.SlotsLegal vpn)
include ht hs

/-- A slot that matches and holds a PTE with reserved bits makes the search refuse (R102, U8). -/
theorem searchTable_of_pteReserved {x : PA × Bool} (hx : x ∈ pteSlots s.sdr1 vpn)
    (hm : pteMatches (s.pteAt x.1).dw0 vpn x.2 = true) (hr : pteReservedZero s.cfg (s.pteAt x.1) = false) :
    searchTable s.cfg s.sdr1 s.mem.readDw vpn = .error (.refuse .pteReserved) := by
  obtain ⟨y, -, -, hfirst⟩ := firstMatch_of_hit s.cfg s.mem.readDw vpn _ (fun z hz => (hs z hz).1) ⟨x, hx, hm⟩
  have hmem : s.pteAt x.1 ∈ allMatches s.cfg s.mem.readDw vpn (pteSlots s.sdr1 vpn) :=
    mem_allMatches_of_hit _ _ _ _ x hx (hs x hx).1 hm
  have hall : (allMatches s.cfg s.mem.readDw vpn (pteSlots s.sdr1 vpn)).all (pteReservedZero s.cfg) = false :=
    List.all_eq_false.2 ⟨_, hmem, by simp [hr]⟩
  rw [searchTable_of_legal s vpn ht hs, hfirst]
  simp [hall]

/-- Two matches that differ, the reserved bits of every match being zero, make the search refuse (R106, U2): they
cannot both agree with the first match. -/
theorem searchTable_of_multipleMatches
    (hr : ∀ x ∈ pteSlots s.sdr1 vpn, pteMatches (s.pteAt x.1).dw0 vpn x.2 = true →
      pteReservedZero s.cfg (s.pteAt x.1) = true)
    {x y : PA × Bool} (hx : x ∈ pteSlots s.sdr1 vpn) (hxm : pteMatches (s.pteAt x.1).dw0 vpn x.2 = true)
    (hy : y ∈ pteSlots s.sdr1 vpn) (hym : pteMatches (s.pteAt y.1).dw0 vpn y.2 = true)
    (hne : ptesAgree (s.pteAt x.1) (s.pteAt y.1) = false) :
    searchTable s.cfg s.sdr1 s.mem.readDw vpn = .error (.refuse .pteMultipleMatches) := by
  obtain ⟨z, -, -, hfirst⟩ := firstMatch_of_hit s.cfg s.mem.readDw vpn _ (fun z hz => (hs z hz).1) ⟨x, hx, hxm⟩
  have hreserved : (allMatches s.cfg s.mem.readDw vpn (pteSlots s.sdr1 vpn)).all (pteReservedZero s.cfg) = true := by
    refine List.all_eq_true.2 fun p hp => ?_
    obtain ⟨w, hw, hwm, rfl⟩ := mem_allMatches _ _ _ _ _ hp
    exact hr w hw hwm
  have hagree : (allMatches s.cfg s.mem.readDw vpn (pteSlots s.sdr1 vpn)).all (ptesAgree (s.pteAt z.1)) = false := by
    refine Bool.eq_false_iff.2 fun hall => Bool.false_ne_true (hne.symm.trans ?_)
    have hzx := List.all_eq_true.1 hall _ (mem_allMatches_of_hit _ _ _ _ x hx (hs x hx).1 hxm)
    have hzy := List.all_eq_true.1 hall _ (mem_allMatches_of_hit _ _ _ _ y hy (hs y hy).1 hym)
    exact ptesAgree_of_common hzx hzy
  rw [searchTable_of_legal s vpn ht hs, hfirst]
  simp only [hreserved, Bool.not_true, Bool.false_eq_true, if_false]
  exact if_pos (by simpa [State.pteAt] using hagree)

end

/-- With no TLB and no window, a match with L = 1 is refused (R124, U11). -/
theorem translate_of_largePte (s : State) (d : Nat) (ea : Word) (kind : AccessKind) (e : SlbEntry) (t : PA)
    (hq : s.Quiet) (h : s.Translating kind) (he : s.SegmentOf ea e) (hn : ¬ (kind = .fetch ∧ e.n = true))
    (hl : e.l = false) (htlb : s.cfg.tlbPresent = false) (ht : s.TableLegal) (hs : s.SlotsLegal (pageOf e ea))
    (hh : s.TableHolds (pageOf e ea) t) (hp : pteL (s.pteAt t) = true) :
    translate s d ea kind = .error (.refuse .largePage) := by
  rw [translate_of_segment s d ea kind e hq.1 h he hn hl, pageLookup_of_holds s d _ ea kind t hq htlb ht hs hh]
  simp [checkPage, hp]

/-- Settles O20: one lemma per refusal; those of the page table through `searchTable`. -/
theorem undefinedTranslationsAreRefused : Obligations.UndefinedTranslationsAreRefused := by
  intro s d ea kind hsync htr
  refine ⟨fun e f es hs => translate_of_multipleHits s d ea kind e f es hsync htr hs,
    fun e hs hw => translate_of_wideSegment s d ea kind e hsync htr hs (vsidFits_eq_false _ _ hw),
    fun e he hn => ⟨translate_of_largeSegment s d ea kind e hsync htr he hn, fun hl htlb => ⟨?_, ?_, ?_⟩⟩⟩
  · intro hr
    exact translate_of_sdr1_error s d ea kind e _ hsync htr he hn hl htlb
      fun rd => searchTable_of_sdr1Reserved _ _ rd _ hr
  · intro hr hsize
    have hlimit : htabLimit s.cfg < sdr1Size s.sdr1 := by
      rw [sdr1Size_eq, htabLimit]
      omega
    exact translate_of_sdr1_error s d ea kind e _ hsync htr he hn hl htlb
      fun rd => searchTable_of_htabSize _ _ rd _ hr hlimit
  · intro hquiet htable
    have hsearch (f : Failure) (hf : searchTable s.cfg s.sdr1 s.mem.readDw (pageOf e ea) = .error f) :
        translate s d ea kind = .error f :=
      translate_of_searchTable_error s d ea kind e f hquiet htr he hn hl htlb hf
    refine ⟨fun x hx hp hv hw => hsearch _ ?_, fun hslots => ⟨fun x hx hr => hsearch _ ?_, ?_, ?_⟩⟩
    · exact searchTable_of_wide s _ htable x hx hp hv (vsidFits_eq_false _ _ hw)
    · exact searchTable_of_pteReserved htable hslots hx.1 hx.2 hr
    · rintro hr x y ⟨hx, hxm⟩ ⟨hy, hym⟩ p q hne
      exact hsearch _ (searchTable_of_multipleMatches htable hslots (fun z hz hzm => hr z ⟨hz, hzm⟩) hx hxm hy hym
        (ptesAgree_eq_false.2 hne))
    · exact fun t => translate_of_largePte s d ea kind e t hquiet htr he hn hl htlb htable hslots

end Sys2Proof.Machine
end

section
/-! SUPPORT. What enters and what leaves the TLB: the reload agent and the fill after a search (spec/10_state.md R40,
R41; spec/20_memory.md R87), and `tlbie` (spec/40_slb_tlb_maintenance.md R165). -/

namespace Sys2Proof.Machine

/-! What enters the TLB -/

theorem reloadEntry_eq_some {s : State} {vpn : VPN} {e : TlbEntry} (h : reloadEntry s vpn = some e) :
    e.vpn = vpn ∧ searchTable s.cfg s.sdr1 s.mem.readDw vpn = .ok (some (e.pte, e.addr)) := by
  unfold reloadEntry at h
  split at h
  · rename_i p t hsearch
    cases h
    exact ⟨rfl, hsearch⟩
  · cases h
  · cases h

theorem mem_of_mem_keepEntries {drop : Nat → Bool} {es : List TlbEntry} {e : TlbEntry} (h : e ∈ keepEntries drop es) :
    e ∈ es := by
  obtain ⟨⟨e', i⟩, hmem, he⟩ := List.mem_filterMap.1 h
  dsimp only at he
  split at he
  · cases he
  · cases he
    exact List.fst_mem_of_mem_zipIdx hmem

/-- After the agent's turn an entry of the TLB was there, or is what the search finds for its page (R41). -/
theorem State.mem_tlbAgent_tlb {s : State} {e : TlbEntry} (h : e ∈ s.tlbAgent.tlb) :
    e ∈ s.tlb ∨ searchTable s.cfg s.sdr1 s.mem.readDw e.vpn = .ok (some (e.pte, e.addr)) := by
  unfold State.tlbAgent at h
  split at h
  · rcases List.mem_append.1 h with hnew | hkept
    · obtain ⟨vpn, -, he⟩ := List.mem_filterMap.1 hnew
      obtain ⟨rfl, hsearch⟩ := reloadEntry_eq_some he
      exact .inr hsearch
    · exact .inl (mem_of_mem_keepEntries hkept)
  · exact .inl h

/-- The agent's turn changes the TLB and the count of draws alone. -/
theorem State.tlbAgent_restored (s : State) : { s.tlbAgent with tlb := s.tlb, draws := s.draws } = s := by
  unfold State.tlbAgent
  split <;> rfl

/-- An access that has searched memory adds nothing to the TLB, or the PTE it found, where the search of memory as it is
finds that one (R87, R41 (a)). -/
theorem State.tlbAfter_of_search (s : State) (d : Nat) {x : Found} (store : Bool) (h : x.copy = none) :
    s.tlbAfter d x store = s ∨
      (s.cfg.tlbPresent = true ∧
        searchTable s.cfg (seenSdr1 s d) s.mem.readDw x.vpn = .ok (some (x.pte, x.addr)) ∧
        s.tlbAfter d x store = { s with tlb := ⟨x.vpn, x.pte, x.addr⟩ :: s.tlb }) := by
  simp only [State.tlbAfter, h]
  split
  · rename_i hfill
    simp only [Bool.and_eq_true, mayFill, decide_eq_true_eq] at hfill
    exact .inr ⟨hfill.1.1, hfill.1.2, rfl⟩
  · exact .inl rfl

/-- Settles O33: the agent adds only what `reloadEntry` gives, an access only what `mayFill` allows. -/
theorem reloadAgentCopiesTableEntries : Obligations.ReloadAgentCopiesTableEntries := by
  refine ⟨fun s => ⟨fun e => State.mem_tlbAgent_tlb, s.tlbAgent_restored, s.tlbAgent_of_absent⟩, ?_⟩
  intro s d x store hcopy
  rcases s.tlbAfter_of_search d store hcopy with hsame | ⟨hpresent, hsearch, hfill⟩
  · rw [hsame]
    exact ⟨fun e he => .inl he, rfl, fun _ => rfl⟩
  · rw [hfill]
    refine ⟨fun e he => ?_, rfl, fun habsent => absurd (hpresent.symm.trans habsent) (by decide)⟩
    rcases List.mem_cons.1 he with rfl | he
    · exact .inr ⟨rfl, hsearch⟩
    · exact .inl he

/-! What leaves the TLB -/

/-- A list is, but for the order, what `p` selects of it and what `p` leaves. -/
theorem filterMap_zipIdx_split_perm {α : Type} (p : Nat → α → Bool) (l : List α) (k : Nat) :
    (((l.zipIdx k).filterMap fun (x, i) => if p i x then some x else none) ++
      (l.zipIdx k).filterMap fun (x, i) => if p i x then none else some x).Perm l := by
  induction l generalizing k with
  | nil => exact .nil
  | cons x l ih =>
    cases hp : p k x with
    | true => simpa [List.zipIdx_cons, hp] using ih (k + 1)
    | false =>
      simp only [List.zipIdx_cons, List.filterMap_cons, hp, Bool.false_eq_true, if_false]
      exact List.perm_middle.trans ((ih (k + 1)).cons x)

/-- The entries `tlbie` removes join the window, and with those that remain they are the old TLB (R165, R262). -/
theorem State.tlbInvalidate_perm (s : State) (b : Word) :
    ∃ removed, (s.tlbInvalidate b).tlbWindow = removed ++ s.tlbWindow ∧
      (removed ++ (s.tlbInvalidate b).tlb).Perm s.tlb := by
  unfold State.tlbInvalidate
  split
  · exact ⟨_, rfl, filterMap_zipIdx_split_perm (tlbieRemoves s b) s.tlb 0⟩
  · exact ⟨[], rfl, .refl _⟩

/-- With a TLB no entry that `tlbie` must remove remains (R165). -/
theorem State.tlbieMust_of_mem_tlbInvalidate {s : State} {b : Word} {e : TlbEntry} (hp : s.cfg.tlbPresent = true)
    (h : e ∈ (s.tlbInvalidate b).tlb) : tlbieMust s.cfg b e = false := by
  simp only [State.tlbInvalidate, hp, if_true] at h
  obtain ⟨⟨e', i⟩, -, he⟩ := List.mem_filterMap.1 h
  dsimp only at he
  split at he
  · cases he
  · rename_i hkept
    cases he
    exact (Bool.or_eq_false_iff.1 (Bool.eq_false_iff.2 hkept)).1

/-- `tlbie` changes the TLB, its window, the count of draws and pc alone. -/
theorem State.tlbInvalidate_nextPc_restored (s : State) (b : Word) :
    { (s.tlbInvalidate b).nextPc with tlb := s.tlb, tlbWindow := s.tlbWindow, draws := s.draws, pc := s.pc } = s := by
  unfold State.tlbInvalidate
  split <;> rfl

/-- Without a TLB `tlbie` changes nothing (R40). -/
theorem State.tlbInvalidate_of_absent {s : State} (b : Word) (h : s.cfg.tlbPresent = false) :
    s.tlbInvalidate b = s := by
  simp [State.tlbInvalidate, h]

/-- The entries that `tlbie` must remove, in numbers (R165): VPN and operand agree in the 36 bits of the layout. -/
theorem tlbieMust_of_layoutR165 {c : Config} {b : Word} {e : TlbEntry} (hc : c.tlbieOperand = .layoutR165) :
    tlbieMust c b e = true ↔ e.vpn.toNat % 2 ^ 36 = b.toNat / 2 ^ 12 % 2 ^ 36 := by
  simp [tlbieMust, hc, vpnLow, tlbieVpnLow, slice, ← BitVec.toNat_inj, Nat.shiftRight_eq_div_pow]

/-- Settles O51: in supervisor mode `tlbie RB,0` is `tlbInvalidate` and pc + 4. -/
theorem tlbieRemovesThePage : Obligations.TlbieRemovesThePage := by
  intro s rb hsup b
  obtain ⟨removed, hwindow, hperm⟩ := s.tlbInvalidate_perm (s.readGpr rb)
  refine ⟨⟨(s.tlbInvalidate (s.readGpr rb)).nextPc, privileged_supervisor s _ hsup, by simp, ?_, ?_,
    ⟨removed, hwindow, hperm⟩, ?_, ?_⟩, privileged_supervisor s _ hsup⟩
  · exact fun e he => hperm.mem_iff.1 (List.mem_append_right removed he)
  · intro hp hlayout e he hpage
    have hmust := (tlbieMust_of_layoutR165 hlayout).2 hpage
    exact Bool.false_ne_true ((State.tlbieMust_of_mem_tlbInvalidate hp he).symm.trans hmust)
  · intro hp
    rw [State.tlbInvalidate_of_absent _ hp]
    rfl
  · exact s.tlbInvalidate_nextPc_restored (s.readGpr rb)

end Sys2Proof.Machine
end

section
/-! SUPPORT. Which instructions change the SLB, SDR1 and the MSR (spec/10_state.md R26, R27, R37; spec/30_encoding.md
R148): what every instruction but the six that name them keeps, and the statement for all of them. -/

namespace Sys2Proof.Machine

/-! The entry of an exception -/

/-- A bit that exception entry clears is 0 in the new MSR, but for SF and LE, which R221 sets afterwards. -/
theorem bit_entryMsr_of_cleared (m : Word) {i : Nat} (hc : bit entryClears i = true) (h0 : i ≠ 0) (h63 : i < 63) :
    bit (entryMsr m) i = false := by
  rw [entryMsr, bit_putBit _ _ _ _ (by decide), if_neg (by omega), bit_putBit _ _ _ _ (by decide), if_neg h0, bit_and,
    bit_not _ _ (by omega), hc, Bool.not_true, Bool.and_false]

/-- Exception entry clears IR, DR and PR (R221). -/
theorem entryMsr_realSupervisor (m : Word) :
    msrIR (entryMsr m) = false ∧ msrDR (entryMsr m) = false ∧ msrPR (entryMsr m) = false :=
  ⟨bit_entryMsr_of_cleared m (by decide) (by decide) (by decide),
    bit_entryMsr_of_cleared m (by decide) (by decide) (by decide),
    bit_entryMsr_of_cleared m (by decide) (by decide) (by decide)⟩

/-! What the instructions without a claim on system state keep -/

/-- The SLB, SDR1 and the parameters are kept, and the MSR is kept or is that of the entry of an exception raised at
`s` (R221, R223). -/
structure State.KeepsSystem (s t : State) : Prop where
  slb : t.slb = s.slb
  sdr1 : t.sdr1 = s.sdr1
  cfg : t.cfg = s.cfg
  msr : t.msr = s.msr ∨ (t.srr0 = s.pc ∧ msrIR t.msr = false ∧ msrDR t.msr = false ∧ msrPR t.msr = false)

namespace State.KeepsSystem
variable {s t u : State}

/-- An exception taken where the translation unit has got to. -/
theorem takeException (f : s.UnitFrame u) (e : Exc) : s.KeepsSystem (u.takeException e) where
  slb := by simpa using f.regs.slb
  sdr1 := by simpa using f.regs.sdr1
  cfg := by simpa using f.regs.cfg
  msr := .inr ⟨f.pc, entryMsr_realSupervisor u.msr⟩

/-- An outcome that keeps the four registers and ends with pc ← pc + 4 (R188). -/
theorem completes (hslb : t.slb = s.slb) (hsdr1 : t.sdr1 = s.sdr1) (hmsr : t.msr = s.msr) (hcfg : t.cfg = s.cfg) :
    NextMeets s.KeepsSystem (.next t.nextPc) :=
  (nextMeets_next _ _).2 ⟨hslb, hsdr1, hcfg, .inl hmsr⟩

theorem privileged {o : Host.Outcome State Fault Refusal} (h : NextMeets s.KeepsSystem o) :
    NextMeets s.KeepsSystem (privileged s o) :=
  nextMeets_privileged (takeException (.refl s) _) h

theorem execSlbmfev (s : State) (rt rb : Reg) : NextMeets s.KeepsSystem (execSlbmfev rt rb s) := by
  refine privileged ?_
  split
  · exact nextMeets_refused _ _
  · exact completes rfl rfl rfl rfl

theorem execSlbmfee (s : State) (rt rb : Reg) : NextMeets s.KeepsSystem (execSlbmfee rt rb s) := by
  refine privileged ?_
  split
  · exact nextMeets_refused _ _
  · exact completes rfl rfl rfl rfl

theorem execTlbie (s : State) (rb : Reg) (l : BitVec 1) : NextMeets s.KeepsSystem (execTlbie rb l s) := by
  refine privileged ?_
  split
  · exact nextMeets_refused _ _
  · exact completes (by simp) (by simp) (by simp) (by simp)

theorem execTlbia (s : State) : NextMeets s.KeepsSystem (execTlbia s) := by
  unfold Machine.execTlbia
  split
  · refine privileged ?_
    split <;> exact completes rfl rfl rfl rfl
  · exact nextMeets_refused _ _

theorem execMfspr (s : State) (rt : Reg) (spr : BitVec 10) : NextMeets s.KeepsSystem (execMfspr rt spr s) := by
  refine privileged ?_
  split
  · exact completes rfl rfl rfl rfl
  · exact nextMeets_refused _ _

theorem execSync (s : State) (l : BitVec 2) : NextMeets s.KeepsSystem (execSync l s) := by
  unfold Machine.execSync
  split
  · exact nextMeets_refused _ _
  · exact completes (by simp) (by simp) (by simp) (by simp)

theorem loadInto (s : State) (rt : Reg) (ea : Word) (n : Nat) : NextMeets s.KeepsSystem (loadInto rt ea n s) := by
  intro t ht
  rcases loadInto_next rt ea n s t ht with ⟨as, u, hu, -, rfl⟩ | ⟨e, u, hu, rfl⟩
  · obtain ⟨hregs, -⟩ := translateAccess_ok _ _ _ _ _ _ hu
    exact ⟨hregs.slb, hregs.sdr1, hregs.cfg, .inl hregs.msr⟩
  · exact takeException (translateAccess_fail _ _ _ _ _ _ hu) e

theorem storeFrom (s : State) (ea : Word) (bs : List Byte) : NextMeets s.KeepsSystem (storeFrom ea bs s) := by
  intro t ht
  rcases storeFrom_next ea bs s t ht with ⟨as, u, hu, -, rfl⟩ | ⟨e, u, hu, rfl⟩
  · obtain ⟨hregs, -⟩ := (translateAccess_ok _ _ _ _ _ _ hu).trans u.tlbAgent_frame
    exact ⟨hregs.slb, hregs.sdr1, hregs.cfg, .inl hregs.msr⟩
  · exact takeException (translateAccess_fail _ _ _ _ _ _ hu) e

/-- `mtspr` to another register than SDR1. -/
theorem writeSpr {n : BitVec 10} {v : Word} (hn : n ≠ 25) (h : s.writeSpr n v = some t) :
    NextMeets s.KeepsSystem (.next t.nextPc) := by
  rw [State.writeSpr, if_neg hn] at h
  split_ifs at h <;> cases h <;> exact completes rfl rfl rfl rfl

end State.KeepsSystem

/-! What each instruction may change -/

/-- What instruction `i` may change of the system state when it takes `s` to `t` (R26, R27, R37, R148). -/
structure SystemChange (i : Instr) (s t : State) : Prop where
  slb : t.slb ≠ s.slb → msrPR s.msr = false ∧ ((∃ rs rb, i = .slbmte rs rb) ∨ (∃ rb, i = .slbie rb) ∨ i = .slbia)
  sdr1 : t.sdr1 ≠ s.sdr1 → msrPR s.msr = false ∧ ∃ rs, i = .mtspr 25 rs
  msr : t.msr ≠ s.msr → (msrPR s.msr = false ∧ ((∃ rs l, i = .mtmsrd rs l) ∨ i = .rfid)) ∨
    (t.srr0 = s.pc ∧ msrIR t.msr = false ∧ msrDR t.msr = false ∧ msrPR t.msr = false)
  slbLength : t.slb.length = s.slb.length
  cfg : t.cfg = s.cfg

namespace SystemChange
variable {i : Instr} {s t : State}

theorem ofKept (h : s.KeepsSystem t) : SystemChange i s t where
  slb := fun hne => absurd h.slb hne
  sdr1 := fun hne => absurd h.sdr1 hne
  msr := fun hne => .inr (h.msr.resolve_left hne)
  slbLength := by rw [h.slb]
  cfg := h.cfg

/-- An instruction that makes no claim on the system state. -/
theorem kept {o : Host.Outcome State Fault Refusal} (h : NextMeets s.KeepsSystem o) : NextMeets (SystemChange i s) o :=
  fun t ht => ofKept (h t ht)

/-- A privileged instruction: in user mode the entry of an exception, in supervisor mode its own meaning. -/
theorem privileged {o : Host.Outcome State Fault Refusal}
    (h : msrPR s.msr = false → NextMeets (SystemChange i s) o) : NextMeets (SystemChange i s) (privileged s o) := by
  intro t ht
  rcases (privileged_next s t o).1 ht with ⟨-, rfl⟩ | ⟨hsup, ht⟩
  · exact ofKept (.takeException (.refl s) _)
  · exact h hsup t ht

/-- The SLB alone changes. -/
theorem ofSlb (hsup : msrPR s.msr = false) (hi : (∃ rs rb, i = .slbmte rs rb) ∨ (∃ rb, i = .slbie rb) ∨ i = .slbia)
    (hlen : t.slb.length = s.slb.length) (hsdr1 : t.sdr1 = s.sdr1) (hmsr : t.msr = s.msr) (hcfg : t.cfg = s.cfg) :
    NextMeets (SystemChange i s) (.next t) :=
  (nextMeets_next _ _).2
    ⟨fun _ => ⟨hsup, hi⟩, fun hne => absurd hsdr1 hne, fun hne => absurd hmsr hne, hlen, hcfg⟩

/-- The MSR alone changes. -/
theorem ofMsr (hsup : msrPR s.msr = false) (hi : (∃ rs l, i = .mtmsrd rs l) ∨ i = .rfid) (hslb : t.slb = s.slb)
    (hsdr1 : t.sdr1 = s.sdr1) (hcfg : t.cfg = s.cfg) : NextMeets (SystemChange i s) (.next t) :=
  (nextMeets_next _ _).2
    ⟨fun hne => absurd hslb hne, fun hne => absurd hsdr1 hne, fun _ => .inl ⟨hsup, hi⟩, by rw [hslb], hcfg⟩

theorem execSlbmte (s : State) (rs rb : Reg) : NextMeets (SystemChange (.slbmte rs rb) s) (execSlbmte rs rb s) := by
  refine privileged fun hsup => ?_
  dsimp only
  split
  · exact ofSlb hsup (.inl ⟨rs, rb, rfl⟩) (by simp) rfl rfl rfl
  · exact nextMeets_refused _ _

theorem execSlbie (s : State) (rb : Reg) : NextMeets (SystemChange (.slbie rb) s) (execSlbie rb s) := by
  refine privileged fun hsup => ?_
  dsimp only
  split
  · exact ofSlb hsup (.inr (.inl ⟨rb, rfl⟩)) List.length_mapIdx rfl rfl rfl
  · exact nextMeets_refused _ _

theorem execSlbia (s : State) : NextMeets (SystemChange .slbia s) (execSlbia s) :=
  privileged fun hsup => ofSlb hsup (.inr (.inr rfl)) List.length_mapIdx rfl rfl rfl

theorem execMtmsrd (s : State) (rs : Reg) (l : BitVec 1) :
    NextMeets (SystemChange (.mtmsrd rs l) s) (execMtmsrd rs l s) :=
  privileged fun hsup => ofMsr hsup (.inl ⟨rs, l, rfl⟩) rfl rfl rfl

theorem execRfid (s : State) : NextMeets (SystemChange .rfid s) (execRfid s) :=
  privileged fun hsup => ofMsr hsup (.inr rfl) rfl rfl rfl

/-- `mtspr` changes SDR1 alone where its number is 25, and no system state where it is another. -/
theorem execMtspr (s : State) (spr : BitVec 10) (rs : Reg) :
    NextMeets (SystemChange (.mtspr spr rs) s) (execMtspr spr rs s) := by
  refine privileged fun hsup => ?_
  split
  · rename_i t ht
    by_cases hspr : spr = 25
    · subst hspr
      cases ht
      exact (nextMeets_next _ _).2
        ⟨fun hne => absurd rfl hne, fun _ => ⟨hsup, rs, rfl⟩, fun hne => absurd rfl hne, rfl, rfl⟩
    · exact kept (.writeSpr hspr ht)
  · exact nextMeets_refused _ _

/-- Every instruction changes only the system state it may. -/
theorem exec (s : State) (i : Instr) : NextMeets (SystemChange i s) (exec i s) := by
  cases i with
  | slbmte rs rb => exact execSlbmte s rs rb
  | slbmfev rt rb => exact kept (.execSlbmfev s rt rb)
  | slbmfee rt rb => exact kept (.execSlbmfee s rt rb)
  | slbie rb => exact execSlbie s rb
  | slbia => exact execSlbia s
  | tlbie rb l => exact kept (.execTlbie s rb l)
  | tlbia => exact kept (.execTlbia s)
  | tlbsync => exact kept (.privileged (.completes rfl rfl rfl rfl))
  | mtmsrd rs l => exact execMtmsrd s rs l
  | mfmsr rt => exact kept (.privileged (.completes rfl rfl rfl rfl))
  | mtspr spr rs => exact execMtspr s spr rs
  | mfspr rt spr => exact kept (.execMfspr s rt spr)
  | rfid => exact execRfid s
  | sync l => exact kept (.execSync s l)
  | isync => exact kept (.completes rfl rfl rfl rfl)
  | lbz rt ra d => exact kept (.loadInto s rt _ 1)
  | stb rs ra d => exact kept (.storeFrom s _ _)
  | ld rt ra ds => exact kept (.loadInto s rt _ 8)
  | std rs ra ds => exact kept (.storeFrom s _ _)

end SystemChange

/-- Settles O58: `SystemChange.exec`, from one lemma per instruction that changes system state and one per instruction
that keeps it. -/
theorem onlyTheseInstructionsChangeSystemState : Obligations.OnlyTheseInstructionsChangeSystemState := by
  intro s t i ht
  obtain ⟨hslb, hsdr1, hmsr, hlen, hcfg⟩ := SystemChange.exec s i t ht
  exact ⟨hslb, hsdr1, hmsr, hlen, hcfg⟩

end Sys2Proof.Machine
end

section
/-! SUPPORT. The fields of addresses, the hashes of a page and the address of its PTEG in numbers and bit by bit
(spec/20_memory.md R82, R95 to R99, R109). -/

namespace Sys2Proof.Machine

/-! Fields in numbers -/

theorem eaPageIndex_toNat (ea : Word) : (eaPageIndex ea).toNat = ea.toNat / 2 ^ 12 % 2 ^ 16 := by
  simp [eaPageIndex, slice, Nat.shiftRight_eq_div_pow]

theorem eaOffset_toNat (ea : Word) : (eaOffset ea).toNat = ea.toNat % 2 ^ 12 := by
  simp [eaOffset, slice]

theorem pteRpn_toNat (p : Pte) : (pteRpn p).toNat = p.dw1.toNat / 2 ^ 12 % 2 ^ 50 := by
  simp [pteRpn, slice, Nat.shiftRight_eq_div_pow]

theorem vpnPageIndex_toNat (vpn : VPN) : (vpnPageIndex vpn).toNat = vpn.toNat % 2 ^ 16 := by
  simp [vpnPageIndex, slice]

/-- The number that two fields side by side spell. -/
theorem toNat_append_eq_add {v w : Nat} (x : BitVec v) (y : BitVec w) :
    (x ++ y).toNat = x.toNat * 2 ^ w + y.toNat := by
  rw [BitVec.toNat_append, ← Nat.shiftLeft_add_eq_or_of_lt y.isLt, Nat.shiftLeft_eq]

/-- Settles O12: each address is two fields side by side. -/
theorem virtualAndPhysicalAddressFields : Obligations.VirtualAndPhysicalAddressFields := by
  refine ⟨fun vsid ea => ?_, fun p ea => ?_⟩
  · rw [vpnOf, toNat_append_eq_add, eaPageIndex_toNat]
  · rw [pagePa, toNat_append_eq_add, pteRpn_toNat, eaOffset_toNat]

/-- Settles O13: the page index keeps its number when it is extended with zeros, and a complement is an exclusive or
with ones. -/
theorem hashesOfAPage : Obligations.HashesOfAPage := by
  intro vpn
  refine ⟨?_, ?_⟩
  · have hvsid : (slice vpn 13 51).toNat = vpn.toNat / 2 ^ 16 % 2 ^ 39 := by
      simp [slice, Nat.shiftRight_eq_div_pow]
    have hindex : ((0 : BitVec 23) ++ vpnPageIndex vpn).toNat = vpn.toNat % 2 ^ 16 := by
      rw [toNat_append_eq_add, vpnPageIndex_toNat, show (0 : BitVec 23).toNat = 0 from rfl, Nat.zero_mul, Nat.zero_add]
    rw [hash1, BitVec.toNat_xor, hvsid, hindex]
  · rw [hash2, ← BitVec.xor_allOnes, BitVec.toNat_xor, BitVec.toNat_allOnes]

/-- An OR with a number below 2^k changes the k low bits alone. -/
theorem or_of_lt_two_pow (a b k : Nat) (h : b < 2 ^ k) : a ||| b = a / 2 ^ k * 2 ^ k + (a % 2 ^ k ||| b) := by
  have hlow (c : Nat) (hc : c < 2 ^ k) : a / 2 ^ k * 2 ^ k + c = a / 2 ^ k * 2 ^ k ||| c := by
    rw [Nat.mul_comm, Nat.two_pow_add_eq_or_of_lt hc]
  rw [hlow _ (Nat.or_lt_two_pow (Nat.mod_lt _ (by positivity)) h), ← Nat.or_assoc,
    ← hlow _ (Nat.mod_lt _ (by positivity)), Nat.div_add_mod']

/-- Settles O14: the fields of `ptegAddr_toNat` lie side by side, and the hash bits that HTABSIZE selects are below
2^28. -/
theorem ptegAddressIsAnOr : Obligations.PtegAddressIsAnOr := by
  intro x hash hsize
  rw [← sdr1Size_eq] at hsize ⊢
  have hselected : hash.toNat / 2 ^ 11 % 2 ^ sdr1Size x < 2 ^ 28 :=
    (Nat.mod_le _ _).trans_lt (by have := hash.isLt; omega)
  have hlow : hash.toNat % 2 ^ 11 * 2 ^ 7 < 2 ^ 18 := by omega
  rw [ptegAddr_toNat x hash hsize, ← or_of_lt_two_pow _ _ 28 hselected, ← sdr1Org_toNat,
    Nat.mul_comm _ (2 ^ 18), Nat.two_pow_add_eq_or_of_lt hlow, Nat.mul_comm (2 ^ 18)]
  simp only [← Nat.shiftLeft_eq, Nat.shiftLeft_or_distrib]

/-! Why five bits of page index suffice (R99) -/

/-- Bits 7 to 17 of a PTEG address are the 11 low bits of the hash, whatever SDR1 holds. -/
theorem ptegAddr_getLsbD (x : Word) (hash : BitVec 39) (i : Nat) (h : i < 11) :
    (ptegAddr x hash).getLsbD (i + 7) = hash.getLsbD i := by
  rw [ptegAddr, BitVec.getLsbD_append, if_neg (by omega), BitVec.getLsbD_append, if_pos (by omega)]
  simp [slice, h]

/-- The 16 low bits of the primary hash. -/
theorem hash1_getLsbD (vpn : VPN) (i : Nat) (h : i < 16) :
    (hash1 vpn).getLsbD i = (vpn.getLsbD (16 + i) ^^ vpn.getLsbD i) := by
  rw [hash1, BitVec.getLsbD_xor, BitVec.getLsbD_append, if_pos h]
  simp [slice, vpnPageIndex, h, show i < 39 by omega]

theorem hash2_getLsbD (vpn : VPN) (i : Nat) (h : i < 16) :
    (hash2 vpn).getLsbD i = !(vpn.getLsbD (16 + i) ^^ vpn.getLsbD i) := by
  rw [hash2, BitVec.getLsbD_not, hash1_getLsbD vpn i h]
  simp [show i < 39 by omega]

theorem vpnVsid_getLsbD (vpn : VPN) (i : Nat) (h : i < 52) : (vpnVsid vpn).getLsbD i = vpn.getLsbD (16 + i) := by
  simp [vpnVsid, slice, h]

theorem vpnApi_getLsbD (vpn : VPN) (i : Nat) (h : i < 5) : (vpnApi vpn).getLsbD i = vpn.getLsbD (11 + i) := by
  simp [vpnApi, slice, h]

/-- Settles O16: the VSID gives bits 0 to 51 of the page, the API bits 52 to 56, and the PTEG address, through the hash
and the VSID, the other 11. -/
theorem ptegAndApiFixThePage : Obligations.PtegAndApiFixThePage := by
  intro x v w h hvsid hapi hpteg
  have hv (i : Nat) (hi : i < 52) : v.getLsbD (16 + i) = w.getLsbD (16 + i) := by
    rw [← vpnVsid_getLsbD v i hi, hvsid, vpnVsid_getLsbD w i hi]
  refine BitVec.eq_of_getLsbD_eq fun i hi => ?_
  by_cases hlow : i < 11
  · have hbit := congrArg (fun a => a.getLsbD (i + 7)) hpteg
    simp only [ptegAddr_getLsbD x _ i hlow] at hbit
    have hsame := hv i (by omega)
    cases h
    · simpa [hash1_getLsbD _ i (show i < 16 by omega), hsame] using hbit
    · simpa [hash2_getLsbD _ i (show i < 16 by omega), hsame] using hbit
  by_cases hmid : i < 16
  · have := congrArg (fun a => a.getLsbD (i - 11)) hapi
    simpa [vpnApi_getLsbD _ (i - 11) (by omega), show 11 + (i - 11) = i by omega] using this
  · simpa [show 16 + (i - 16) = i by omega] using hv (i - 16) (by omega)

/-! Protection -/

/-- Settles O18, row by row of the table of R112. -/
theorem protectionTable : Obligations.ProtectionTable :=
  ⟨fun _ => rfl, by decide, by decide, by decide, fun _ _ => rfl, fun _ => ⟨rfl, rfl⟩⟩

end Sys2Proof.Machine
end

section
/-! SUPPORT. Real addressing mode (spec/20_memory.md R66, R72 to R77): what `translate` answers, and the bytes of an
access at any alignment. -/

namespace Sys2Proof.Machine

/-! The address -/

theorem slice_high_eq_zero_iff (ea : Word) : slice ea 0 1 = 0 ↔ ea.toNat < 2 ^ 62 := by
  have h : (slice ea 0 1).toNat = ea.toNat / 2 ^ 62 := by
    have := ea.isLt
    simp only [slice, BitVec.extractLsb'_toNat, Nat.shiftRight_eq_div_pow]
    omega
  rw [← BitVec.toNat_inj, h, show (0 : BitVec (1 - 0 + 1)).toNat = 0 from rfl]
  omega

/-- The 62 low bits of an effective address, where bits 0:1 are ignored or zero (R73). -/
theorem realTranslate_of_low (c : Config) (ea : Word) (h : c.realModeHighBits = .ignore ∨ ea.toNat < 2 ^ 62) :
    realTranslate c ea = .ok (BitVec.ofNat 62 (ea.toNat % 2 ^ 62)) := by
  have hno : ¬ (c.realModeHighBits = .machineCheck ∧ slice ea 0 1 ≠ 0) := by
    rintro ⟨hmc, hhigh⟩
    rcases h with hi | hlow
    · simp [hi] at hmc
    · exact hhigh ((slice_high_eq_zero_iff ea).2 hlow)
  rw [realTranslate, if_neg hno]
  congr 1
  apply BitVec.eq_of_toNat_eq
  simp [slice]

/-- Bits 0:1 that are not zero are a machine check where the parameter says so (R73). -/
theorem realTranslate_of_high (c : Config) (ea : Word) (hc : c.realModeHighBits = .machineCheck)
    (h : 2 ^ 62 ≤ ea.toNat) : realTranslate c ea = .error (.machineCheck ea.toNat) := by
  rw [realTranslate, if_pos ⟨hc, fun hz => absurd ((slice_high_eq_zero_iff ea).1 hz) (by omega)⟩]

/-- With the governing bit 0 the translation is that of real addressing mode, a function of the parameters and the
effective address (R72, R73). -/
theorem translate_of_disabled (s : State) (d : Nat) (ea : Word) (kind : AccessKind)
    (h : seenEnabled s d kind = false) :
    translate s d ea kind = (realTranslate s.cfg ea).map fun pa => ⟨pa, none⟩ := by
  rw [translate, h, if_neg (by simp)]
  cases realTranslate s.cfg ea <;> rfl

/-- Settles O7: the two cases of `realTranslate`. -/
theorem realModeAddressIsTheLowBits : Obligations.RealModeAddressIsTheLowBits := by
  intro s d ea kind hoff
  rw [translate_of_disabled s d ea kind hoff]
  exact ⟨fun h => by rw [realTranslate_of_low s.cfg ea h]; rfl,
    fun hc h => by rw [realTranslate_of_high s.cfg ea hc h]; rfl⟩

/-- Settles O8: both translations are that of real addressing mode, under the same parameters. -/
theorem realModeReadsNoTranslationState : Obligations.RealModeReadsNoTranslationState := by
  intro s t ea kind hs ht hcfg hsoff htoff d
  have hoff (u : State) (hu : u.ContextSynced) (h : ¬ u.Translating kind) : seenEnabled u d kind = false :=
    Bool.eq_false_iff.2 (mt (seenEnabled_of_closed u d kind hu.1).1 h)
  rw [translate_of_disabled s d ea kind (hoff s hs hsoff), translate_of_disabled t d ea kind (hoff t ht htoff), hcfg]

/-! The second part of an access (R66) -/

/-- Clearing the 12 low bits of an address gives the beginning of its page. -/
theorem clear_offset (v : Word) : v &&& ~~~(fieldMask 52 63) = BitVec.ofNat 64 (v.toNat / 4096 * 4096) := by
  refine BitVec.eq_of_getLsbD_eq fun i hi => ?_
  have hmask : (fieldMask 52 63).getLsbD i = decide (i < 12) := by
    rw [fieldMask, BitVec.getLsbD_ofNat]
    simpa [hi] using Nat.testBit_two_pow_sub_one 12 i
  rw [BitVec.getLsbD_and, BitVec.getLsbD_not, hmask, BitVec.getLsbD_ofNat, show (4096 : Nat) = 2 ^ 12 from rfl,
    Nat.testBit_mul_two_pow, Nat.testBit_div_two_pow, BitVec.testBit_toNat]
  by_cases hlow : i < 12
  · simp [hlow, Nat.not_le.2 hlow]
  · simp [hlow, hi, Nat.not_lt.1 hlow]

/-- The second part of an access that crosses a boundary begins at the next page. -/
theorem secondPartEa_crossing (ea : Word) (n : Nat) (h : 4096 < ea.toNat % 4096 + n) (hn : n ≤ 4096) :
    secondPartEa ea n = BitVec.ofNat 64 (ea.toNat / 4096 * 4096 + 4096) := by
  apply BitVec.eq_of_toNat_eq
  rw [secondPartEa, clear_offset]
  simp only [BitVec.toNat_ofNat, BitVec.toNat_add]
  omega

/-! Whole accesses -/

/-- Both parts of a data access see the governing bit as it is. -/
theorem State.RealData.disabled {s : State} (h : s.RealData) (d : Nat) (kind : AccessKind) (hk : kind ≠ .fetch) :
    seenEnabled s d kind = false := by
  obtain ⟨hdr, hwin, -⟩ := h
  cases kind
  · exact absurd rfl hk
  · simp [seenEnabled, seenBit, hdr, hwin]
  · simp [seenEnabled, seenBit, hdr, hwin]

theorem State.RealData.translate_eq {s : State} (h : s.RealData) (d : Nat) (ea : Word) (kind : AccessKind)
    (hk : kind ≠ .fetch) : translate s d ea kind = .ok ⟨BitVec.ofNat 62 (ea.toNat % 2 ^ 62), none⟩ := by
  rw [translate_of_disabled s d ea kind (h.disabled d kind hk), realTranslate_of_ignore _ _ h.2.2]
  rfl

/-- The bytes of the two parts of a real-mode access are those of the access: neither part wraps (R66, R73). -/
theorem bytesFrom_append_eq_realBytes (ea : Word) (n : Nat) (h : 4096 < ea.toNat % 4096 + n) (hn : n ≤ 4096) :
    bytesFrom (ea.toNat % 2 ^ 62) (4096 - ea.toNat % 4096) ++
        bytesFrom ((secondPartEa ea n).toNat % 2 ^ 62) (n - (4096 - ea.toNat % 4096)) =
      (List.range n).map (realByte ea) := by
  have hfirst := bytesFrom_eq_realBytes ea (4096 - ea.toNat % 4096) (by omega)
  have hsecond : bytesFrom ((secondPartEa ea n).toNat % 2 ^ 62) (n - (4096 - ea.toNat % 4096)) =
      (List.range (n - (4096 - ea.toNat % 4096))).map fun k => realByte ea (4096 - ea.toNat % 4096 + k) := by
    refine List.map_congr_left fun k hk => ?_
    have hkn := List.mem_range.1 hk
    rw [secondPartEa_crossing ea n h hn, BitVec.toNat_ofNat]
    simp only [realByte]
    omega
  have hlen : n = 4096 - ea.toNat % 4096 + (n - (4096 - ea.toNat % 4096)) := by omega
  conv_rhs => rw [hlen, List.range_add, List.map_append, List.map_map]
  rw [hfirst, hsecond]
  rfl

/-- A real-mode data access at any alignment: the bytes of `realByte`, and the count of draws alone is changed. -/
theorem State.RealData.translateAccess_eq {s : State} (h : s.RealData) (ea : Word) (n : Nat) (kind : AccessKind)
    (hk : kind ≠ .fetch) (hn : n ≤ 4096) :
    translateAccess s ea n kind = .ok ((List.range n).map (realByte ea)) { s with draws := s.draws + 2 } := by
  by_cases hcross : ea.toNat % 4096 + n ≤ 4096
  · exact translateAccess_of_real s ea n kind (h.disabled _ kind hk) h.2.2 hcross
  · have hlen := firstPartLen_crossing ea n (by omega)
    have hne : 4096 - ea.toNat % 4096 ≠ n := by omega
    simp only [translateAccess, translate_draws, h.translate_eq _ _ kind hk, hlen, if_neg hne, recordPart]
    rw [← bytesFrom_append_eq_realBytes ea n (by omega) hn]
    simp

/-- The bytes of an access of up to 4096 bytes lie at distinct addresses. -/
theorem realBytes_nodup (ea : Word) (n : Nat) (hn : n ≤ 4096) : ((List.range n).map (realByte ea)).Nodup := by
  refine List.Nodup.map_on (fun i hi j hj h => ?_) List.nodup_range
  have hin := List.mem_range.1 hi
  have hjn := List.mem_range.1 hj
  simp only [realByte] at h
  omega

/-- Settles O11: the load reads the eight addresses that the store has just written, which are distinct. -/
theorem stdThenLdReturnsTheDoubleword : Obligations.StdThenLdReturnsTheDoubleword := by
  intro s t rs ra rt ra' ds ds' _ hreal hwf hpresent hea hstd
  have hnone : firstAbsent s.cfg ((List.range 8).map (realByte (s.eaDs ra ds))) = none := by
    simpa [firstAbsent_eq_none] using hpresent
  have hstore := storeFrom_of_ok (s.eaDs ra ds) (beBytes 8 (s.readGpr rs).toNat) s _ _
    (by rw [beBytes_length]; exact hreal.translateAccess_eq _ 8 .store (by decide) (by decide)) hnone
  obtain rfl : State.nextPc _ = t := Host.Outcome.next.inj (hstore.symm.trans hstd)
  set t := ({ s with draws := s.draws + 2 }.tlbAgent.storeBytes ((List.range 8).map (realByte (s.eaDs ra ds)))
    (beBytes 8 (s.readGpr rs).toNat)).nextPc with ht
  have hreal' : t.RealData := by simpa [ht, State.RealData] using hreal
  have hea' : t.eaDs ra' ds' = s.eaDs ra ds := by
    rw [← hea, State.eaDs, State.eaDs, State.base, State.base, State.readGpr_congr s t (by simp [ht])]
  refine ⟨_, loadInto_of_ok rt (t.eaDs ra' ds') 8 t _ _ (hreal'.translateAccess_eq _ 8 .load (by decide) (by decide))
    (by rw [hea']; simpa [ht] using hnone), ?_⟩
  have hread : ((List.range 8).map (realByte (s.eaDs ra ds))).map t.mem.read = beBytes 8 (s.readGpr rs).toNat := by
    simpa [ht] using s.mem.map_read_writeAll_zip _ _ hwf (realBytes_nodup _ 8 (by decide)) (by simp)
  rw [State.readGpr_nextPc, State.readGpr_setGpr_same, hea']
  change BitVec.ofNat 64 (beValue (((List.range 8).map (realByte (s.eaDs ra ds))).map t.mem.read)) = _
  rw [hread, beValue_beBytes]
  apply BitVec.eq_of_toNat_eq
  have := (s.readGpr rs).isLt
  rw [BitVec.toNat_ofNat]
  omega

end Sys2Proof.Machine
end

section
/-! SUPPORT. What page address translation answers (spec/20_memory.md R80 to R125): the page mapped, a segment miss, a
page fault, no-execute and protection; what an access sees inside a window (spec/70_reset_and_hazards.md R260 to R262). -/

namespace Sys2Proof.Machine

/-! What an access sees -/

/-- An entry of the SLB that an access sees is the present one or a recorded content of its index (R261). -/
theorem seenSlb_getElem? (s : State) (d i : Nat) (e : SlbEntry) (h : (seenSlb s d)[i]? = some e) :
    s.slb[i]? = some e ∨ (i, e) ∈ s.slbWindow := by
  rw [seenSlb, List.getElem?_mapIdx, Option.map_eq_some_iff] at h
  obtain ⟨cur, hcur, hseen⟩ := h
  rcases pickSeen_mem (Config.freeNat d (.slb i)) cur (recordedAt i s.slbWindow) with hp | hp
  · exact .inl (by rw [hcur, ← hseen, hp])
  · exact .inr (by rwa [mem_recordedAt, hseen] at hp)

/-- Settles O34: whatever is picked is the present value or a recorded one. -/
theorem accessesSeeOldOrNewValues : Obligations.AccessesSeeOldOrNewValues := by
  intro s d
  refine ⟨fun i e => seenSlb_getElem? s d i e, pickSeen_mem _ _ _, fun a => ?_, fun h => ?_⟩
  · rw [← mem_recordedAt]
    exact pickSeen_mem _ _ _
  · exact ⟨seenSlb_of_closed s d h.2.1, seenSdr1_of_closed s d h.2.2, seenPr_of_closed s d h.1,
      fun kind => seenEnabled_of_closed s d kind h.1⟩

/-! The TLB -/

/-- The one copy of a page, its reserved bits zero, is what step 2 finds (R86, R87). -/
theorem pageLookup_of_copy (s : State) (d : Nat) (vpn : VPN) (ea : Word) (kind : AccessKind) (c : TlbEntry)
    (h : s.cfg.tlbPresent = true) (hc : s.tlb.filter (fun e => e.vpn == vpn) = [c]) (hw : s.tlbWindow = [])
    (hr : pteReservedZero s.cfg c.pte = true) : pageLookup s d vpn ea kind = .ok ⟨vpn, c.pte, c.addr, some c⟩ := by
  simp [pageLookup, tlbLookup_of_copy s d vpn c h hc hw, hr]

/-- Settles O32: the lookup of the copy reads neither SDR1 nor memory. -/
theorem tlbCopyIsUsedBeforeThePageTable : Obligations.TlbCopyIsUsedBeforeThePageTable :=
  fun s d vpn ea kind c h hc hw hr sdr1 m =>
    pageLookup_of_copy { s with sdr1 := sdr1, mem := m } d vpn ea kind c h hc hw hr

/-! Steps 3 to 6 of R115 -/

theorem checkPage_of_permits (s : State) (e : SlbEntry) (p : Pte) (ea : Word) (kind : AccessKind)
    (h : s.Permits e p kind) : checkPage s.cfg e (msrPR s.msr) p ea kind = .ok () := by
  obtain ⟨-, hl, hx, ha⟩ := h
  have hno : ¬ (kind = .fetch ∧ (pteG p || (s.cfg.pteNImplemented && pteN p)) = true) := by
    rintro ⟨hk, hgn⟩
    obtain ⟨-, hg, hn⟩ := hx hk
    simp_all
  rw [checkPage, if_neg (by simp [hl]), if_neg hno, if_neg (by simp [ha])]

/-- A guarded or no-execute page stops a fetch (R113, R118). -/
theorem checkPage_of_noExecute (c : Config) (e : SlbEntry) (user : Bool) (p : Pte) (ea : Word) (hl : pteL p = false)
    (h : pteG p = true ∨ (c.pteNImplemented = true ∧ pteN p = true)) :
    checkPage c e user p ea .fetch = .error (.exc (.instructionStorage .noExecute)) := by
  rw [checkPage, if_neg (by simp [hl]), if_pos ⟨rfl, by simpa using h⟩]

/-- An access that nothing stops before the (Key, PP) table, and that the table denies (R112). -/
theorem checkPage_of_denied (c : Config) (e : SlbEntry) (user : Bool) (p : Pte) (ea : Word) (kind : AccessKind)
    (hl : pteL p = false) (hx : kind = .fetch → pteG p = false ∧ pteN p = false)
    (ha : accessAllowed (protectionKey e user) (ptePp p) kind = false) :
    checkPage c e user p ea kind = .error (.exc (protectionFault kind ea)) := by
  have hno : ¬ (kind = .fetch ∧ (pteG p || (c.pteNImplemented && pteN p)) = true) := by
    rintro ⟨hk, hgn⟩
    obtain ⟨hg, hn⟩ := hx hk
    simp [hg, hn] at hgn
  rw [checkPage, if_neg (by simp [hl]), if_neg hno, if_pos (by simp [ha])]

/-! The whole translation -/

/-- With one segment and one matching PTE, no TLB and no window, the translation is the check of that PTE. -/
theorem translate_of_holds {s : State} (d : Nat) {ea : Word} {kind : AccessKind} {e : SlbEntry} {t : PA}
    (hq : s.Quiet) (htlb : s.cfg.tlbPresent = false) (h : s.Translating kind) (he : s.SegmentOf ea e)
    (hn : ¬ (kind = .fetch ∧ e.n = true)) (hl : e.l = false) (ht : s.TableLegal) (hs : s.SlotsLegal (pageOf e ea))
    (hh : s.TableHolds (pageOf e ea) t) :
    translate s d ea kind = (checkPage s.cfg e (msrPR s.msr) (s.pteAt t) ea kind).map
      fun _ => ⟨pagePa (s.pteAt t) ea, some ⟨pageOf e ea, s.pteAt t, t, none⟩⟩ := by
  rw [translate_of_segment s d ea kind e hq.1 h he hn hl, pageLookup_of_holds s d _ ea kind t hq htlb ht hs hh]
  cases hc : checkPage s.cfg e (msrPR s.msr) (s.pteAt t) ea kind <;> simp only [hc] <;> rfl

theorem State.Permits.not_noExecute {s : State} {e : SlbEntry} {p : Pte} {kind : AccessKind} (h : s.Permits e p kind) :
    ¬ (kind = .fetch ∧ e.n = true) := fun ⟨hk, hn⟩ => by simp [(h.2.2.1 hk).1] at hn

theorem State.Mapped.translate_eq {s : State} {ea : Word} {kind : AccessKind} {e : SlbEntry} {t : PA}
    (h : s.Mapped ea kind e t) (d : Nat) : translate s d ea kind =
      .ok ⟨pagePa (s.pteAt t) ea, some ⟨pageOf e ea, s.pteAt t, t, none⟩⟩ := by
  rw [translate_of_holds d h.quiet h.noTlb h.translating h.segment h.permits.not_noExecute h.permits.1 h.table h.slots
    h.holds, checkPage_of_permits s e _ ea kind h.permits]
  rfl

/-- Settles O17. -/
theorem mappedAddressTranslates : Obligations.MappedAddressTranslates := fun _ _ _ _ _ h d => h.translate_eq d

/-- With no valid entry that has the ESID of the address the translation is a segment miss (R83). -/
theorem translate_of_segmentMiss (s : State) (d : Nat) (ea : Word) (kind : AccessKind) (hq : s.ContextSynced)
    (h : s.Translating kind) (hmiss : ∀ e ∈ s.slb, ¬ (e.v = true ∧ e.esid.toNat = ea.toNat / 2 ^ 28)) :
    translate s d ea kind = .error (.exc (segmentMiss kind ea)) := by
  have hnil : s.slb.filter (slbHit ea) = [] :=
    List.filter_eq_nil_iff.2 fun e he => mt (slbHit_iff ea e).1 (hmiss e he)
  rw [translate_of_translating s d ea kind hq h, pageTranslate, segmentLookup, seenSlb_of_closed s d hq.2.1, hnil]

/-- A no-execute segment stops a fetch before the page table is looked at (R113, R115). -/
theorem translate_fetch_of_noExecuteSegment (s : State) (d : Nat) (ea : Word) (e : SlbEntry) (hq : s.ContextSynced)
    (h : s.Translating .fetch) (he : s.SegmentOf ea e) (hn : e.n = true) :
    translate s d ea .fetch = .error (.exc (.instructionStorage .noExecute)) := by
  rw [translate_of_translating s d ea .fetch hq h, pageTranslate, segmentLookup_of_segment s d ea .fetch e hq he,
    if_pos ⟨rfl, hn⟩]

/-- Settles O21: the segment's check comes first, that of the PTE after the search. -/
theorem noExecuteStopsTheFetch : Obligations.NoExecuteStopsTheFetch := by
  intro s d ea e hir he
  refine ⟨fun hq hn => translate_fetch_of_noExecuteSegment s d ea e hq hir he hn,
    fun t hq htlb hl ht hs hh hpl hgn => ?_⟩
  by_cases hn : e.n = true
  · exact translate_fetch_of_noExecuteSegment s d ea e hq.1 hir he hn
  · rw [translate_of_holds (kind := .fetch) d hq htlb hir he (by simp [hn]) hl ht hs hh,
      checkPage_of_noExecute s.cfg e _ _ ea hpl hgn]
    rfl

/-- Settles O22: the search finds nothing, so step 2 is the page fault. -/
theorem pageFaultWhenNoSlotMatches : Obligations.PageFaultWhenNoSlotMatches := by
  intro s d ea kind e hq htlb h he hl hn ht hs hnone
  rw [translate_of_segment s d ea kind e hq.1 h he (by rintro ⟨hk, hn'⟩; simp [hn hk] at hn') hl,
    pageLookup_of_none s d _ ea kind hq htlb ht hs hnone]
  cases kind <;> rfl

theorem translate_of_denied {s : State} (d : Nat) {ea : Word} {kind : AccessKind} {e : SlbEntry} {t : PA}
    (hq : s.Quiet) (htlb : s.cfg.tlbPresent = false) (h : s.Translating kind) (he : s.SegmentOf ea e)
    (hl : e.l = false) (ht : s.TableLegal) (hs : s.SlotsLegal (pageOf e ea)) (hh : s.TableHolds (pageOf e ea) t)
    (hpl : pteL (s.pteAt t) = false)
    (hx : kind = .fetch → e.n = false ∧ pteG (s.pteAt t) = false ∧ pteN (s.pteAt t) = false)
    (ha : accessAllowed (protectionKey e (msrPR s.msr)) (ptePp (s.pteAt t)) kind = false) :
    translate s d ea kind = .error (.exc (protectionFault kind ea)) := by
  rw [translate_of_holds d hq htlb h he (fun ⟨hk, hn⟩ => by simp [(hx hk).1] at hn) hl ht hs hh,
    checkPage_of_denied s.cfg e _ _ ea kind hpl (fun hk => (hx hk).2) ha]
  rfl

/-- Settles O23: the key of R111 is `protectionKey`. -/
theorem deniedAccessRaisesProtection : Obligations.DeniedAccessRaisesProtection := by
  intro s d ea kind e t hq htlb h he hl ht hs hh hpl hx ha
  rw [translate_of_denied d hq htlb h he hl ht hs hh hpl hx ha]
  cases kind <;> rfl

end Sys2Proof.Machine
end

section
/-! SUPPORT. Data accesses that fail (spec/20_memory.md R64, R66, R83, R105, R112; spec/60_exceptions.md R216): the four
data-access instructions as loads and stores, and what each answers where its translation or its memory fails. -/

namespace Sys2Proof.Machine

/-! The four data-access instructions -/

/-- `o` is the outcome of a load or a store of `n` bytes at `ea`. -/
inductive DataAccess (s : State) (ea : Word) : (n : Nat) → AccessKind → Host.Outcome State Fault Refusal → Prop
  | load (rt : Reg) (n : Nat) : DataAccess s ea n .load (loadInto rt ea n s)
  | store (bs : List Byte) : DataAccess s ea bs.length .store (storeFrom ea bs s)

namespace DataAccess

theorem lbz (s : State) (rt ra : Reg) (d : BitVec 16) : DataAccess s (s.eaD ra d) 1 .load (exec (.lbz rt ra d) s) :=
  .load rt 1

theorem ld (s : State) (rt ra : Reg) (ds : BitVec 14) : DataAccess s (s.eaDs ra ds) 8 .load (exec (.ld rt ra ds) s) :=
  .load rt 8

theorem stb (s : State) (rs ra : Reg) (d : BitVec 16) : DataAccess s (s.eaD ra d) 1 .store (exec (.stb rs ra d) s) :=
  .store (beBytes 1 (s.readGpr rs).toNat)

theorem std (s : State) (rs ra : Reg) (ds : BitVec 14) :
    DataAccess s (s.eaDs ra ds) 8 .store (exec (.std rs ra ds) s) :=
  .store (beBytes 8 (s.readGpr rs).toNat)

variable {s u : State} {ea : Word} {n : Nat} {kind : AccessKind} {o : Host.Outcome State Fault Refusal}

theorem kind_ne_fetch (h : DataAccess s ea n kind o) : kind ≠ .fetch := by
  cases h <;> simp

/-- Whatever stops steps 1 to 7 of R115 is the outcome. -/
theorem of_fail (h : DataAccess s ea n kind o) {f : Failure} (hf : translateAccess s ea n kind = .fail f u) :
    o = raise f u := by
  cases h <;> simp [loadInto, storeFrom, memRead, memWrite, hf]

/-- A first part that does not translate stops the access before anything is changed. -/
theorem of_translate_error (h : DataAccess s ea n kind o) {f : Failure}
    (hf : translate s s.draws ea kind = .error f) : o = raise f { s with draws := s.draws + 2 } :=
  h.of_fail (by simp only [translateAccess, translate_draws, hf])

/-- Its exception is taken with nothing else changed but the count of draws. -/
theorem of_translate_exc (h : DataAccess s ea n kind o) {e : Exc} (he : translate s s.draws ea kind = .error (.exc e)) :
    o = .next ({ s with draws := s.draws + 2 }.takeException e) := h.of_translate_error he

/-- An absent byte, after the translation, ends the run (R64, R216). -/
theorem of_absent (h : DataAccess s ea n kind o) {as : List Nat} {a : Nat}
    (hok : translateAccess s ea n kind = .ok as u) (ha : firstAbsent s.cfg as = some a) :
    o = .fault (.machineCheck a u) := by
  cases h with
  | load rt n => exact loadInto_of_absent rt ea n s u as a hok ha
  | store bs => exact storeFrom_of_absent ea bs s u as a hok ha

end DataAccess

/-! Exceptions of the first part -/

/-- Settles O19: a data segment exception of the first part changes the registers of exception entry alone. -/
theorem segmentMissTakesTheSegmentException : Obligations.SegmentMissTakesTheSegmentException := by
  intro s hq
  refine ⟨fun ea kind d h hmiss => ?_, fun i r ra ea hi hdr hmiss => ?_⟩
  · rw [translate_of_segmentMiss s d ea kind hq h hmiss]
    cases kind <;> rfl
  · have hacc : ∃ n kind, s.Translating kind ∧ DataAccess s ea n kind (exec i s) := by
      rcases hi with ⟨x, rfl | rfl, rfl⟩ | ⟨x, rfl | rfl, rfl⟩
      · exact ⟨_, .load, hdr, .lbz s r ra x⟩
      · exact ⟨_, .store, hdr, .stb s r ra x⟩
      · exact ⟨_, .load, hdr, .ld s r ra x⟩
      · exact ⟨_, .store, hdr, .std s r ra x⟩
    obtain ⟨n, kind, htr, hacc⟩ := hacc
    have hmiss' : segmentMiss kind ea = .dataSegment ea := by
      cases kind with
      | fetch => exact absurd rfl hacc.kind_ne_fetch
      | load => rfl
      | store => rfl
    have herror := translate_of_segmentMiss s s.draws ea kind hq htr hmiss
    rw [hmiss'] at herror
    exact ⟨_, hacc.of_translate_exc herror, rfl, rfl, rfl, by simp, by simp⟩

/-- Settles O24: a data storage exception of the first part changes the registers of exception entry alone. -/
theorem deniedStoreChangesNoMemory : Obligations.DeniedStoreChangesNoMemory := by
  intro s i rs ra ea e t hi hq htlb hdr he hl ht hs hh hpl ha
  have hacc : ∃ n, DataAccess s ea n .store (exec i s) := by
    rcases hi with ⟨x, rfl, rfl⟩ | ⟨x, rfl, rfl⟩
    · exact ⟨_, .stb s rs ra x⟩
    · exact ⟨_, .std s rs ra x⟩
  obtain ⟨n, hacc⟩ := hacc
  have hdenied := translate_of_denied (kind := .store) s.draws hq htlb hdr he hl ht hs hh hpl (by simp) ha
  exact ⟨_, hacc.of_translate_exc hdenied, rfl, rfl, rfl, rfl, by simp, by simp⟩

/-! Exceptions of the second part -/

/-- A second part that does not translate: the first part's R bit may have been set (R66, U17). -/
theorem translateAccess_of_second_error (s : State) (ea : Word) (n : Nat) (kind : AccessKind) (x : Xlat) (f : Failure)
    (hlen : firstPartLen ea n ≠ n) (hx : translate s s.draws ea kind = .ok x)
    (hf : translate s (s.draws + 1) (secondPartEa ea n) kind = .error f) :
    translateAccess s ea n kind = .fail f (maybeReferenced { s with draws := s.draws + 2 } s.draws x) := by
  simp only [translateAccess, translate_draws, hx, if_neg hlen, hf]

/-- Settles O30: the first part's exception leaves memory as it is; at the second part's exception only the R bit of the
first part may have been set. -/
theorem crossingStoreFailsWithoutAByteWritten : Obligations.CrossingStoreFailsWithoutAByteWritten := by
  intro s rs ra ds ea hcross
  have hacc := DataAccess.std s rs ra ds
  refine ⟨fun e he => ⟨_, hacc.of_translate_exc he, rfl, rfl, by simp, by simp⟩, fun x e hx he => ?_⟩
  rw [← secondPartEa_crossing ea 8 hcross (by decide)] at he
  have hlen : firstPartLen ea 8 ≠ 8 := by
    rw [firstPartLen_crossing ea 8 hcross]
    omega
  have hframe := maybeReferenced_frame { s with draws := s.draws + 2 } s.draws x
  refine ⟨_, hacc.of_fail (translateAccess_of_second_error s ea 8 .store x _ hlen hx he), ?_, ?_, ?_, fun a ha => ?_⟩
  · rw [State.takeException_pc, hframe.regs.cfg]
  · rw [State.takeException_srr0, hframe.pc]
  · rw [State.takeException_gpr, hframe.regs.gpr]
  · rw [State.takeException_mem]
    exact maybeReferenced_read_of_ne _ _ x a ha

/-! Absent memory -/

/-- The first absent byte of an access, by its number. -/
theorem firstAbsent_map_range (c : Config) (byte : Nat → Nat) (n k : Nat) (hk : k < n)
    (h : presentAt c (byte k) = false) (hj : ∀ j, j < k → presentAt c (byte j) = true) :
    firstAbsent c ((List.range n).map byte) = some (byte k) := by
  rw [firstAbsent, List.find?_map, Option.map_eq_some_iff]
  refine ⟨k, ?_, rfl⟩
  rw [List.find?_range_eq_some]
  simpa [h, hk] using hj

/-- A real-mode access whose byte `k` is the first that is not present ends the run there (R64, R73). -/
theorem DataAccess.of_real_absent {s : State} {ea : Word} {n : Nat} {kind : AccessKind}
    {o : Host.Outcome State Fault Refusal} (h : DataAccess s ea n kind o) (hreal : s.RealData) (hn : n ≤ 4096)
    (k : Nat) (hk : k < n) (habsent : presentAt s.cfg (realByte ea k) = false)
    (hj : ∀ j, j < k → presentAt s.cfg (realByte ea j) = true) :
    o = .fault (.machineCheck (realByte ea k) { s with draws := s.draws + 2 }) :=
  h.of_absent (hreal.translateAccess_eq ea n kind h.kind_ne_fetch hn) (firstAbsent_map_range _ _ n k hk habsent hj)

/-- A search that comes to an absent doubleword, no slot being refused for a wide VSID, is a machine check at its first
absent byte (R105). -/
theorem searchTable_of_absent (s : State) (vpn : VPN) (before after : List (PA × Bool)) (x : PA × Bool) (b k : Nat)
    (ht : s.TableLegal) (hslots : pteSlots s.sdr1 vpn = before ++ x :: after)
    (hfits : ∀ y ∈ pteSlots s.sdr1 vpn, pteV (s.mem.readDw y.1.toNat) = true →
      vsidFits s.cfg (pteVsid (s.mem.readDw y.1.toNat)) = true)
    (hb : ∀ y ∈ before, (∀ j, j < 8 → presentAt s.cfg (y.1.toNat + j) = true) ∧
      pteMatches (s.mem.readDw y.1.toNat) vpn y.2 = false)
    (hx : b = x.1.toNat ∨ (b = x.1.toNat + 8 ∧ (∀ j, j < 8 → presentAt s.cfg (x.1.toNat + j) = true) ∧
      pteMatches (s.mem.readDw x.1.toNat) vpn x.2 = true))
    (hk : k < 8) (h : presentAt s.cfg (b + k) = false) (hj : ∀ j, j < k → presentAt s.cfg (b + j) = true) :
    searchTable s.cfg s.sdr1 s.mem.readDw vpn = .error (.machineCheck (b + k)) := by
  unfold searchTable
  rw [ht.1, if_neg (Nat.not_lt.2 ht.2), slotTooWide_of_fits _ _ _ hfits, hslots,
    firstMatch_of_absent s.cfg s.mem.readDw vpn before after x b k hb hx hk h hj]
  rfl

/-- Settles O59: in real addressing mode the first absent byte, in page address translation the first the search comes
to. -/
theorem absentMemoryIsAMachineCheck : Obligations.AbsentMemoryIsAMachineCheck := by
  refine ⟨fun s r ra k hreal => ⟨?_, ?_⟩, ?_⟩
  · intro d ea habsent i hi
    have hacc : ∃ kind, DataAccess s ea 1 kind (exec i s) := by
      rcases hi with rfl | rfl
      · exact ⟨_, .lbz s r ra d⟩
      · exact ⟨_, .stb s r ra d⟩
    obtain ⟨kind, hacc⟩ := hacc
    exact hacc.of_real_absent hreal (by decide) 0 (by decide) habsent (by simp)
  · intro ds ea hk habsent hj i hi
    have hacc : ∃ kind, DataAccess s ea 8 kind (exec i s) := by
      rcases hi with rfl | rfl
      · exact ⟨_, .ld s r ra ds⟩
      · exact ⟨_, .std s r ra ds⟩
    obtain ⟨kind, hacc⟩ := hacc
    exact hacc.of_real_absent hreal (by decide) k hk habsent hj
  · intro s ea kind e before after x b k vpn hq htlb h he hl hn ht hslots hfits hb hx hk habsent hj
    have htr (d : Nat) : translate s d ea kind = .error (.machineCheck (b + k)) :=
      translate_of_searchTable_error s d ea kind e _ hq h he (fun ⟨hf, hn'⟩ => by simp [hn hf] at hn') hl htlb
        (searchTable_of_absent s vpn before after x b k ht hslots hfits hb hx hk habsent hj)
    refine ⟨htr, fun i r ra hi => ?_⟩
    have hacc : ∃ n, DataAccess s ea n kind (exec i s) := by
      rcases hi with ⟨rfl, ⟨o, rfl, rfl⟩ | ⟨o, rfl, rfl⟩⟩ | ⟨rfl, ⟨o, rfl, rfl⟩ | ⟨o, rfl, rfl⟩⟩
      · exact ⟨_, .lbz s r ra o⟩
      · exact ⟨_, .ld s r ra o⟩
      · exact ⟨_, .stb s r ra o⟩
      · exact ⟨_, .std s r ra o⟩
    obtain ⟨n, hacc⟩ := hacc
    exact hacc.of_translate_error (htr s.draws)

end Sys2Proof.Machine
end

section
/-! SUPPORT. Accesses to mapped pages (spec/20_memory.md R66, R109, R115, R119 to R123; spec/42_storage_access.md R200 to
R204): the referenced and changed bits, within a page and across two, and what the four data-access instructions then
answer. -/

namespace Sys2Proof.Machine

/-! The bits that step 7 sets -/

/-- The bits of the byte at `a` that an access through the PTE at `t` sets: R, and C for a store (R101,
R120 to R122). -/
def historyByte (t : PA) (store : Bool) (a : Nat) : Byte :=
  if a = t.toNat + 14 then 0x01 else if a = t.toNat + 15 ∧ store = true then 0x80 else 0

theorem or_historyByte (t : PA) (store : Bool) (a : Nat) (b : Byte) :
    b ||| historyByte t store a =
      if a = t.toNat + 14 then b ||| 0x01 else if a = t.toNat + 15 ∧ store = true then b ||| 0x80 else b := by
  unfold historyByte
  split_ifs
  · rfl
  · rfl
  · exact BitVec.or_zero

/-- A PTEG, and each slot in it, begins at a multiple of 16 (R97, R105). -/
theorem pteSlots_aligned {x : Word} {vpn : VPN} {y : PA × Bool} (h : y ∈ pteSlots x vpn) : y.1.toNat % 16 = 0 := by
  have hpteg (hash : BitVec 39) : (ptegAddr x hash).toNat % 128 = 0 := by
    rw [ptegAddr, toNat_append_eq_add, show (0 : BitVec 7).toNat = 0 from rfl]
    omega
  have hslot (hash : BitVec 39) (i : Nat) : (ptegAddr x hash + BitVec.ofNat 62 (16 * i)).toNat % 16 = 0 := by
    have := hpteg hash
    rw [BitVec.toNat_add, BitVec.toNat_ofNat]
    omega
  rcases List.mem_append.1 h with h | h
  · obtain ⟨i, -, rfl⟩ := List.mem_map.1 h
    exact hslot _ i
  · obtain ⟨i, -, rfl⟩ := List.mem_map.1 h
    exact hslot _ i

/-- Setting bits on either of two grounds, or on both, is setting them once. -/
theorem or_if_or_if (p q : Prop) [Decidable p] [Decidable q] (b m : Byte) :
    (if q then (if p then b ||| m else b) ||| m else if p then b ||| m else b) = if p ∨ q then b ||| m else b := by
  by_cases hp : p <;> by_cases hq : q <;> simp [hp, hq, BitVec.or_assoc]

/-- The bits of two PTEs: aligned as they are, the R byte of one is not the C byte of the other. -/
theorem or_historyByte_or (t t' : PA) (store : Bool) (a : Nat) (b : Byte) (ht : t.toNat % 16 = 0)
    (ht' : t'.toNat % 16 = 0) : b ||| historyByte t store a ||| historyByte t' store a =
      if a = t.toNat + 14 ∨ a = t'.toNat + 14 then b ||| 0x01
      else if (a = t.toNat + 15 ∨ a = t'.toNat + 15) ∧ store = true then b ||| 0x80 else b := by
  rw [or_historyByte t, or_historyByte t']
  by_cases hc : a = t.toNat + 15 ∨ a = t'.toNat + 15
  · have hr : a ≠ t.toNat + 14 := by omega
    have hr' : a ≠ t'.toNat + 14 := by omega
    simp only [hr, hr', or_self, if_false, or_and_right]
    exact or_if_or_if _ _ b _
  · obtain ⟨hc, hc'⟩ := not_or.1 hc
    simp only [hc, hc', or_self, false_and, if_false]
    exact or_if_or_if _ _ b _

/-- Step 7 with the PTE that memory held in `s`, in a later state `u` in which no bit has been cleared: R and C are then
set, whatever they were (R120 to R122). -/
theorem recordFound_historyByte (s u : State) (d : Nat) (vpn : VPN) (t : PA) (store : Bool) (hwf : u.mem.wf = true)
    (hp : ∀ k, k < 16 → presentAt u.cfg (t.toNat + k) = true)
    (hkeep : ∀ a, ∃ b, u.mem.read a = s.mem.read a ||| b) :
    ∃ v, recordFound u d ⟨vpn, s.pteAt t, t, none⟩ store = .ok () v ∧ u.UnitFrame v ∧ v.tlbWindow = u.tlbWindow ∧
      ∀ a, v.mem.read a = u.mem.read a ||| historyByte t store a := by
  obtain ⟨v, hok, hread⟩ := recordFound_read u d ⟨vpn, s.pteAt t, t, none⟩ store hwf (hp 14 (by decide))
    (hp 15 (by decide))
  have hframe := recordFound_frame u d ⟨vpn, s.pteAt t, t, none⟩ store
  have hwin := recordFound_tlbWindow_of_search u d ⟨vpn, s.pteAt t, t, none⟩ store rfl
  rw [hok] at hframe hwin
  have hr (h : pteR (s.pteAt t) = true) : u.mem.read (t.toNat + 14) ||| 0x01 = u.mem.read (t.toNat + 14) := by
    obtain ⟨b, hb⟩ := hkeep (t.toNat + 14)
    exact byte_or_01 _ (by rw [hb, BitVec.getLsbD_or, ← pteR_pteAt, h, Bool.true_or])
  have hc (h : pteC (s.pteAt t) = true) : u.mem.read (t.toNat + 15) ||| 0x80 = u.mem.read (t.toNat + 15) := by
    obtain ⟨b, hb⟩ := hkeep (t.toNat + 15)
    exact byte_or_80 _ (by rw [hb, BitVec.getLsbD_or, ← pteC_pteAt, h, Bool.true_or])
  refine ⟨v, hok, hframe, hwin, fun a => ?_⟩
  rw [hread, or_historyByte]
  by_cases h14 : a = t.toNat + 14
  · subst h14
    cases h : pteR (s.pteAt t) with
    | false => simp
    | true => simpa using (hr h).symm
  by_cases h15 : a = t.toNat + 15
  · subst h15
    cases h : pteC (s.pteAt t) with
    | false => simp
    | true => simpa using fun _ => (hc h).symm
  · simp [h14, h15]

/-! Steps 1 to 7 of R115 -/

theorem translateAccess_within {s u : State} {ea : Word} {n : Nat} {kind : AccessKind} {x : Xlat}
    (hn : ea.toNat % 4096 + n ≤ 4096) (hx : translate s s.draws ea kind = .ok x)
    (hu : recordPart { s with draws := s.draws + 2 } s.draws x (kind == .store) = .ok () u) :
    translateAccess s ea n kind = .ok (bytesFrom x.pa.toNat n) u := by
  simp only [translateAccess, translate_draws, hx, firstPartLen_within ea n hn, if_true, hu]

theorem translateAccess_crossing {s u v : State} {ea : Word} {n : Nat} {kind : AccessKind} {x y : Xlat}
    (hn : 4096 < ea.toNat % 4096 + n) (hlen : n ≤ 4096) (hx : translate s s.draws ea kind = .ok x)
    (hy : translate s (s.draws + 1) (BitVec.ofNat 64 (ea.toNat / 4096 * 4096 + 4096)) kind = .ok y)
    (hu : recordPart { s with draws := s.draws + 2 } s.draws x (kind == .store) = .ok () u)
    (hv : recordPart u (s.draws + 1) y (kind == .store) = .ok () v) :
    translateAccess s ea n kind = .ok (bytesFrom x.pa.toNat (4096 - ea.toNat % 4096) ++
      bytesFrom y.pa.toNat (n - (4096 - ea.toNat % 4096))) v := by
  have hne : 4096 - ea.toNat % 4096 ≠ n := by omega
  simp only [translateAccess, translate_draws, hx, firstPartLen_crossing ea n hn, if_neg hne,
    secondPartEa_crossing ea n hn hlen, hy, hu, hv]

namespace State.Mapped
variable {s : State} {ea ea' : Word} {kind : AccessKind} {e e' : SlbEntry} {t t' : PA}

theorem slot (h : s.Mapped ea kind e t) : ∃ x ∈ pteSlots s.sdr1 (pageOf e ea), x.1 = t := by
  obtain ⟨x, hx, ht, -⟩ := h.holds.1
  exact ⟨x, hx, ht⟩

theorem pte_present (h : s.Mapped ea kind e t) : ∀ k, k < 16 → presentAt s.cfg (t.toNat + k) = true := by
  obtain ⟨x, hx, rfl⟩ := h.slot
  exact (h.slots x hx).1

theorem pte_aligned (h : s.Mapped ea kind e t) : t.toNat % 16 = 0 := by
  obtain ⟨x, hx, rfl⟩ := h.slot
  exact pteSlots_aligned hx

/-- An access within a mapped page: the page's bytes, and R and C set (R109, R120, R121). -/
theorem translateAccess_within (h : s.Mapped ea kind e t) (hwf : s.mem.wf = true) {n : Nat}
    (hn : ea.toNat % 4096 + n ≤ 4096) :
    ∃ u, translateAccess s ea n kind = .ok (bytesFrom (pagePa (s.pteAt t) ea).toNat n) u ∧
      u.tlbWindow = s.tlbWindow ∧ ∀ a, u.mem.read a = s.mem.read a ||| historyByte t (kind == .store) a := by
  obtain ⟨u, hu, -, hwin, hread⟩ := recordFound_historyByte s { s with draws := s.draws + 2 } s.draws (pageOf e ea) t
    (kind == .store) hwf h.pte_present fun _ => ⟨0, BitVec.or_zero.symm⟩
  exact ⟨u, Machine.translateAccess_within hn (h.translate_eq s.draws) hu, hwin, hread⟩

/-- An access across two mapped pages: the bytes of both, and R and C of both PTEs set (R66). -/
theorem translateAccess_crossing (h : s.Mapped ea kind e t) (h' : s.Mapped ea' kind e' t') (hwf : s.mem.wf = true)
    {n : Nat} (hn : 4096 < ea.toNat % 4096 + n) (hlen : n ≤ 4096)
    (hea : ea' = BitVec.ofNat 64 (ea.toNat / 4096 * 4096 + 4096)) :
    ∃ v, translateAccess s ea n kind = .ok (bytesFrom (pagePa (s.pteAt t) ea).toNat (4096 - ea.toNat % 4096) ++
        bytesFrom (pagePa (s.pteAt t') ea').toNat (n - (4096 - ea.toNat % 4096))) v ∧
      v.tlbWindow = s.tlbWindow ∧ ∀ a, v.mem.read a =
        s.mem.read a ||| historyByte t (kind == .store) a ||| historyByte t' (kind == .store) a := by
  subst hea
  obtain ⟨u, hu, hframe, hwin, hread⟩ := recordFound_historyByte s { s with draws := s.draws + 2 } s.draws
    (pageOf e ea) t (kind == .store) hwf h.pte_present fun _ => ⟨0, BitVec.or_zero.symm⟩
  obtain ⟨v, hv, -, hwin', hread'⟩ := recordFound_historyByte s u (s.draws + 1) (pageOf e' _) t' (kind == .store)
    (hframe.memWf hwf) (by rw [hframe.regs.cfg]; exact h'.pte_present) fun a => ⟨_, hread a⟩
  exact ⟨v, Machine.translateAccess_crossing hn hlen (h.translate_eq s.draws) (h'.translate_eq (s.draws + 1)) hu hv,
    hwin'.trans hwin, fun a => by rw [hread', hread]⟩

end State.Mapped

/-! Through a TLB copy -/

/-- The bits of doubleword 1 that an access sets (R101, R120, R121). -/
theorem bit_historyBits (store : Bool) (i : Nat) :
    bit (historyBits store) i = (decide (i = 55) || decide (i = 56 ∧ store = true)) := by
  rw [historyBits, bit_or, bit_bitMask 55 i (by decide)]
  cases store with
  | false => simp [bit]
  | true => simp [bit_bitMask 56 i (by decide)]

theorem translate_of_copy (s : State) (d : Nat) (ea : Word) (kind : AccessKind) (e : SlbEntry) (c : TlbEntry)
    (hq : s.ContextSynced) (htlb : s.cfg.tlbPresent = true) (h : s.Translating kind) (he : s.SegmentOf ea e)
    (hpermits : s.Permits e c.pte kind) (hc : s.tlb.filter (fun x => x.vpn == pageOf e ea) = [c])
    (hw : s.tlbWindow = []) (hr : pteReservedZero s.cfg c.pte = true) :
    translate s d ea kind = .ok ⟨pagePa c.pte ea, some ⟨pageOf e ea, c.pte, c.addr, some c⟩⟩ := by
  rw [translate_of_segment s d ea kind e hq h he hpermits.not_noExecute hpermits.1,
    pageLookup_of_copy s d _ ea kind c htlb hc hw hr]
  simp only [checkPage_of_permits s e c.pte ea kind hpermits]

/-- Settles O25: without a TLB by `translateAccess_within`, with one by what step 7 does through the copy. -/
theorem referencedAndChangedBits : Obligations.ReferencedAndChangedBits := by
  refine ⟨fun s ea n kind e t h hwf _ hn => ?_, ?_⟩
  · obtain ⟨u, hu, -, hread⟩ := h.translateAccess_within hwf hn
    refine ⟨u, hu, fun a => ?_⟩
    rw [hread, or_historyByte]
    simp
  · intro s ea n kind e c hq htlb h he hpermits hc hw hr hwf _ hn h14 h15
    have hx := translate_of_copy s s.draws ea kind e c hq htlb h he hpermits hc hw hr
    obtain ⟨u, hu, hread⟩ := recordFound_read { s with draws := s.draws + 2 } s.draws
      ⟨pageOf e ea, c.pte, c.addr, some c⟩ (kind == .store) hwf h14 h15
    have htlb' := (recordFound_tlb { s with draws := s.draws + 2 } s.draws ⟨pageOf e ea, c.pte, c.addr, some c⟩
      (kind == .store)).1
    rw [hu] at htlb'
    refine ⟨u, { c with pte := { c.pte with dw1 := c.pte.dw1 ||| historyBits (kind == .store) } },
      translateAccess_within hn hx hu, fun a => ?_, htlb', rfl, rfl, rfl, fun i _ => ?_⟩
    · rw [hread]
      simp
    · simp [bit_historyBits, Bool.or_assoc]

/-! Loads and stores that complete -/

section
variable {s u : State} {ea : Word} {as : List Nat}

/-- A load that completes changes the target, pc, and what its translation has changed. -/
theorem loadInto_completes (rt : Reg) (n : Nat) (hok : translateAccess s ea n .load = .ok as u)
    (hwin : u.tlbWindow = s.tlbWindow) (hp : firstAbsent s.cfg as = none) :
    loadInto rt ea n s = .next (u.nextPc.setGpr rt (BitVec.ofNat 64 (beValue (as.map u.nextPc.mem.read)))) ∧
      u.nextPc.pc = s.pc + 4 ∧ s.SameRegisters u.nextPc ∧ s.SameWindows u.nextPc := by
  have hf := translateAccess_ok s u ea n .load as hok
  exact ⟨loadInto_of_ok rt ea n s u as hok hp, congrArg (· + 4) hf.pc, { hf.regs with },
    ⟨hf.msrWindow, hf.slbWindow, hf.sdr1Window, hf.pteWindow, hwin⟩⟩

/-- With no TLB a store that completes leaves the registers as they were, writes its bytes and no other over what its
translation has changed, and opens the window of R127 and R262 alone. -/
theorem storeFrom_completes (bs : List Byte) (hok : translateAccess s ea bs.length .store = .ok as u)
    (htlb : s.cfg.tlbPresent = false) (hwin : u.tlbWindow = s.tlbWindow) (hwf : s.mem.wf = true)
    (hp : firstAbsent s.cfg as = none) (hlen : as.length = bs.length) :
    ∃ v, storeFrom ea bs s = .next v ∧ v.pc = s.pc + 4 ∧ s.SameRegisters v ∧
      (as.Nodup → as.map v.mem.read = bs) ∧ (∀ a, a ∉ as → v.mem.read a = u.mem.read a) ∧
      s.StoreWindows v as u.mem := by
  have hf := translateAccess_ok s u ea bs.length .store as hok
  have hstore := storeFrom_of_ok ea bs s u as hok hp
  rw [u.tlbAgent_of_absent (by rw [hf.regs.cfg]; exact htlb)] at hstore
  obtain ⟨new, hnew, hmem⟩ := (u.storeBytes_windows as bs).pteWindow
  refine ⟨_, hstore, congrArg (· + 4) hf.pc, { hf.regs with },
    fun hd => u.mem.map_read_writeAll_zip as bs (hf.memWf hwf) hd hlen,
    fun a ha => u.mem.read_writeAll_of_not_mem _ a ?_, ⟨⟨new, by rw [State.nextPc_pteWindow, hnew, hf.pteWindow], hmem⟩,
      hf.msrWindow, hf.slbWindow, hf.sdr1Window, hwin⟩⟩
  rintro ⟨x, y⟩ hx rfl
  exact ha (List.of_mem_zip hx).1

end

@[simp] theorem bytesFrom_length (a n : Nat) : (bytesFrom a n).length = n := by simp [bytesFrom]

theorem mem_bytesFrom (a n x : Nat) : x ∈ bytesFrom a n ↔ ∃ k, k < n ∧ a + k = x := by simp [bytesFrom]

theorem bytesFrom_nodup (a n : Nat) : (bytesFrom a n).Nodup :=
  List.nodup_range.map fun _ _ h => Nat.add_left_cancel h

/-- The bytes that a range of addresses holds after a store of a number, each by its weight (R64). -/
theorem read_of_map_bytesFrom (m : Memory) (a n v k : Nat) (h : (bytesFrom a n).map m.read = beBytes n v) (hk : k < n) :
    m.read (a + k) = BitVec.ofNat 8 (v / 256 ^ (n - 1 - k)) := by
  have hget := congrArg (·[k]?) h
  simpa [bytesFrom, beBytes, hk, Nat.shiftRight_eq_div_pow, Nat.pow_mul] using hget

namespace State.Mapped
variable {s : State} {ea ea' : Word} {kind : AccessKind} {e e' : SlbEntry} {t t' : PA} {n : Nat}
  {o : Host.Outcome State Fault Refusal}

/-- A load within a mapped and present page. -/
theorem loadInto_within (h : s.Mapped ea .load e t) (hwf : s.mem.wf = true) (hn : ea.toNat % 4096 + n ≤ 4096)
    (hp : ∀ k, k < n → presentAt s.cfg ((pagePa (s.pteAt t) ea).toNat + k) = true) (rt : Reg) :
    ∃ u, loadInto rt ea n s = .next (u.setGpr rt
        (BitVec.ofNat 64 (beValue ((bytesFrom (pagePa (s.pteAt t) ea).toNat n).map u.mem.read)))) ∧
      u.pc = s.pc + 4 ∧ s.SameRegisters u ∧ s.SameWindows u ∧
      ∀ a, u.mem.read a = if a = t.toNat + 14 then s.mem.read a ||| 0x01 else s.mem.read a := by
  obtain ⟨u, hu, hwin, hread⟩ := h.translateAccess_within hwf hn
  obtain ⟨hnext, hpc, hregs, hwins⟩ := loadInto_completes rt n hu hwin (firstAbsent_bytesFrom _ _ n hp)
  refine ⟨u.nextPc, hnext, hpc, hregs, hwins, fun a => ?_⟩
  rw [State.nextPc_mem, hread, or_historyByte]
  simp

/-- A store of the `n` bytes of a number within a mapped and present page; `m` is memory before they are written. -/
theorem storeFrom_within (h : s.Mapped ea .store e t) (hwf : s.mem.wf = true) (hn : ea.toNat % 4096 + n ≤ 4096)
    (hp : ∀ k, k < n → presentAt s.cfg ((pagePa (s.pteAt t) ea).toNat + k) = true) (v : Nat) :
    ∃ u m, storeFrom ea (beBytes n v) s = .next u ∧ u.pc = s.pc + 4 ∧ s.SameRegisters u ∧
      (∀ a, m.read a = if a = t.toNat + 14 then s.mem.read a ||| 0x01
        else if a = t.toNat + 15 then s.mem.read a ||| 0x80 else s.mem.read a) ∧
      (∀ k, k < n → u.mem.read ((pagePa (s.pteAt t) ea).toNat + k) = BitVec.ofNat 8 (v / 256 ^ (n - 1 - k))) ∧
      (∀ a, (∀ k, k < n → a ≠ (pagePa (s.pteAt t) ea).toNat + k) → u.mem.read a = m.read a) ∧
      s.StoreWindows u (bytesFrom (pagePa (s.pteAt t) ea).toNat n) m := by
  obtain ⟨u, hu, hwin, hread⟩ := h.translateAccess_within hwf hn
  obtain ⟨w, hnext, hpc, hregs, hbytes, hrest, hwins⟩ := storeFrom_completes (beBytes n v)
    (by rw [beBytes_length]; exact hu) h.noTlb hwin hwf (firstAbsent_bytesFrom _ _ n hp) (by simp)
  refine ⟨w, u.mem, hnext, hpc, hregs, fun a => ?_,
    fun k hk => read_of_map_bytesFrom w.mem _ n v k (hbytes (bytesFrom_nodup _ n)) hk, fun a ha => hrest a ?_, hwins⟩
  · rw [hread, or_historyByte]
    simp
  · rw [mem_bytesFrom]
    rintro ⟨k, hk, rfl⟩
    exact ha k hk rfl

/-- An access within a mapped page whose byte `k` is the first that is not present (R123, R216). -/
theorem machineCheck_within (h : s.Mapped ea kind e t) (hacc : DataAccess s ea n kind o) (hwf : s.mem.wf = true)
    (hn : ea.toNat % 4096 + n ≤ 4096) {k : Nat} (hk : k < n)
    (habsent : presentAt s.cfg ((pagePa (s.pteAt t) ea).toNat + k) = false)
    (hj : ∀ j, j < k → presentAt s.cfg ((pagePa (s.pteAt t) ea).toNat + j) = true) :
    ∃ u, o = .fault (.machineCheck ((pagePa (s.pteAt t) ea).toNat + k) u) ∧
      ∀ a, u.mem.read a = s.mem.read a ||| historyByte t (kind == .store) a := by
  obtain ⟨u, hu, -, hread⟩ := h.translateAccess_within hwf hn
  exact ⟨u, hacc.of_absent hu (firstAbsent_bytesFrom_absent s.cfg _ n k hk habsent hj), hread⟩

/-- An access across two mapped pages whose first absent byte is at `a` (R66, R123, R216). -/
theorem machineCheck_crossing (h : s.Mapped ea kind e t) (h' : s.Mapped ea' kind e' t')
    (hacc : DataAccess s ea n kind o) (hwf : s.mem.wf = true) (hn : 4096 < ea.toNat % 4096 + n) (hlen : n ≤ 4096)
    (hea : ea' = BitVec.ofNat 64 (ea.toNat / 4096 * 4096 + 4096)) {a : Nat}
    (habsent : firstAbsent s.cfg (bytesFrom (pagePa (s.pteAt t) ea).toNat (4096 - ea.toNat % 4096) ++
      bytesFrom (pagePa (s.pteAt t') ea').toNat (n - (4096 - ea.toNat % 4096))) = some a) :
    ∃ u, o = .fault (.machineCheck a u) ∧ ∀ q, q = t ∨ q = t' →
      u.mem.read (q.toNat + 14) = s.mem.read (q.toNat + 14) ||| 0x01 ∧
      (kind = .store → u.mem.read (q.toNat + 15) = s.mem.read (q.toNat + 15) ||| 0x80) := by
  obtain ⟨u, hu, -, hread⟩ := h.translateAccess_crossing h' hwf hn hlen hea
  have ht := h.pte_aligned
  have ht' := h'.pte_aligned
  refine ⟨u, hacc.of_absent hu habsent, fun q hq => ⟨?_, fun hk => ?_⟩⟩
  · rw [hread, or_historyByte_or _ _ _ _ _ ht ht', if_pos (by rcases hq with rfl | rfl <;> simp)]
  · rw [hread, or_historyByte_or _ _ _ _ _ ht ht', if_neg (by rcases hq with rfl | rfl <;> omega),
      if_pos ⟨by rcases hq with rfl | rfl <;> simp, by simp [hk]⟩]

end State.Mapped

/-- Settles O26: both loads are `loadInto_within`. -/
theorem loadsFromAMappedPage : Obligations.LoadsFromAMappedPage := by
  intro s rt ra e t _ hwf
  refine ⟨?_, ?_⟩
  · intro x ea pa h hp
    obtain ⟨u, hnext, hrest⟩ := h.loadInto_within (n := 1) hwf (by omega) (by simpa using hp) rt
    exact ⟨u, hnext.trans (by simp [bytesFrom, beValue, pa]), hrest⟩
  · intro x ea pa h hn hp
    obtain ⟨u, hnext, hrest⟩ := h.loadInto_within hwf hn hp rt
    exact ⟨u, hnext.trans (by simp [bytesFrom, Function.comp_def, pa]), hrest⟩

/-- Settles O27: both stores are `storeFrom_within`. -/
theorem storesToAMappedPage : Obligations.StoresToAMappedPage := by
  intro s rs ra e t _ hwf
  refine ⟨?_, ?_⟩
  · intro x ea pa h hp
    obtain ⟨u, m, hnext, hpc, hregs, hm, hbyte, hrest, hwins⟩ :=
      h.storeFrom_within (n := 1) hwf (by omega) (by simpa using hp) (s.readGpr rs).toNat
    exact ⟨u, m, hnext, hpc, hregs, hm, by simpa using hbyte 0 (by decide), fun a ha => hrest a (by simpa using ha),
      hwins⟩
  · intro x ea pa h hn hp
    exact h.storeFrom_within hwf hn hp (s.readGpr rs).toNat

/-- Settles O28: both accesses complete, and the bits of the two PTEs do not meet. -/
theorem doublewordAccessAcrossTwoPages : Obligations.DoublewordAccessAcrossTwoPages := by
  intro s r ra x e e' t t' ea n ea' as _ hwf hn hp
  have hnone : firstAbsent s.cfg as = none := (firstAbsent_eq_none _ _).2 hp
  have hcross : 4096 < ea.toNat % 4096 + 8 := by omega
  have hea : ea' = BitVec.ofNat 64 (ea.toNat / 4096 * 4096 + 4096) := congrArg (BitVec.ofNat 64) (by omega)
  refine ⟨fun h h' => ?_, fun h h' => ?_⟩
  · obtain ⟨u, hu, hwin, hread⟩ := h.translateAccess_crossing h' hwf hcross (by decide) hea
    obtain ⟨hnext, hpc, hregs, hwins⟩ := loadInto_completes r 8 hu hwin hnone
    refine ⟨u.nextPc, hnext, hpc, hregs, hwins, fun a => ?_⟩
    rw [State.nextPc_mem, hread, or_historyByte_or _ _ _ _ _ h.pte_aligned h'.pte_aligned]
    simp
  · obtain ⟨u, hu, hwin, hread⟩ := h.translateAccess_crossing h' hwf hcross (by decide) hea
    obtain ⟨v, hnext, hpc, hregs, hbytes, hrest, hwins⟩ := storeFrom_completes (beBytes 8 (s.readGpr r).toNat)
      (by rw [beBytes_length]; exact hu) h.noTlb hwin hwf hnone (by simp [as]; omega)
    refine ⟨v, u.mem, hnext, hpc, hregs, fun a => ?_, hbytes, hrest, hwins⟩
    rw [hread, or_historyByte_or _ _ _ _ _ h.pte_aligned h'.pte_aligned]
    simp

/-- Settles O60: the bits are set before the bytes are looked at. -/
theorem machineCheckComesAfterTheHistoryBits : Obligations.MachineCheckComesAfterTheHistoryBits := by
  refine ⟨?_, ?_⟩
  · intro s r ra ea n k e t pa hwf hn hk habsent hj
    refine ⟨fun i hi h => ?_, fun i hi h => ?_⟩
    · have hacc : DataAccess s ea n .load (exec i s) := by
        rcases hi with ⟨x, rfl, rfl, rfl⟩ | ⟨x, rfl, rfl, rfl⟩
        · exact .lbz s r ra x
        · exact .ld s r ra x
      obtain ⟨u, hu, hread⟩ := h.machineCheck_within hacc hwf hn hk habsent hj
      exact ⟨u, hu, by simp [hread, historyByte]⟩
    · have hacc : DataAccess s ea n .store (exec i s) := by
        rcases hi with ⟨x, rfl, rfl, rfl⟩ | ⟨x, rfl, rfl, rfl⟩
        · exact .stb s r ra x
        · exact .std s r ra x
      obtain ⟨u, hu, hread⟩ := h.machineCheck_within hacc hwf hn hk habsent hj
      exact ⟨u, hu, by simp [hread, historyByte], by simp [hread, historyByte]⟩
  · intro s r ra x e e' t t' a ea n ea' as hwf hn habsent
    have hcross : 4096 < ea.toNat % 4096 + 8 := by omega
    have hea : ea' = BitVec.ofNat 64 (ea.toNat / 4096 * 4096 + 4096) := congrArg (BitVec.ofNat 64) (by omega)
    refine ⟨fun h h' => ?_, fun h h' => ?_⟩
    · obtain ⟨u, hu, hread⟩ := h.machineCheck_crossing h' (.ld s r ra x) hwf hcross (by decide) hea habsent
      exact ⟨u, hu, fun q hq => (hread q hq).1⟩
    · obtain ⟨u, hu, hread⟩ := h.machineCheck_crossing h' (.std s r ra x) hwf hcross (by decide) hea habsent
      exact ⟨u, hu, fun q hq => ⟨(hread q hq).1, (hread q hq).2 rfl⟩⟩

end Sys2Proof.Machine
end

section
/-! SUPPORT. The frame of the four data-access instructions (spec/42_storage_access.md R200 to R204; spec/20_memory.md
R66, R122), in every mode, window and translation. -/

namespace Sys2Proof.Machine

/-- Where steps 1 to 7 of R115 answer, and where they fail, they change no byte but those of R and C (R122). -/
theorem translateAccess_ok_read {s u : State} {ea : Word} {n : Nat} {kind : AccessKind} {as : List Nat}
    (h : translateAccess s ea n kind = .ok as u) (a : Nat) (ha : a ∉ s.historyBytes ea n kind) :
    u.mem.read a = s.mem.read a := by
  simpa [h] using translateAccess_read s ea n kind a ha

theorem translateAccess_fail_read {s u : State} {ea : Word} {n : Nat} {kind : AccessKind} {f : Failure}
    (h : translateAccess s ea n kind = .fail f u) (a : Nat) (ha : a ∉ s.historyBytes ea n kind) :
    u.mem.read a = s.mem.read a := by
  simpa [h] using translateAccess_read s ea n kind a ha

/-- The registers after an exception that the translation unit's work ends in (R211, R220). -/
theorem takeException_of_unitFrame {s u : State} (h : s.UnitFrame u) (e : Exc) :
    (u.takeException e).slb = s.slb ∧ (u.takeException e).sdr1 = s.sdr1 ∧ (u.takeException e).cfg = s.cfg ∧
      (u.takeException e).gpr = s.gpr ∧ (u.takeException e).srr0 = s.pc ∧
      (u.takeException e).pc = s.cfg.vectorBase.setWidth 64 + vectorOffset e := by
  simp [h.regs.slb, h.regs.sdr1, h.regs.cfg, h.regs.gpr, h.pc]

/-- Settles O31: a load or a store gives a next state in two ways, each with the frame of the translation unit. -/
theorem dataAccessFrame : Obligations.DataAccessFrame := by
  refine fun s t r ra => ⟨fun i ea n hi ht => ?_, fun i ea n hi ht => ?_⟩
  · have hload : loadInto r ea n s = .next t := by
      rcases hi with ⟨d, rfl, rfl, rfl⟩ | ⟨d, rfl, rfl, rfl⟩ <;> exact ht
    rcases loadInto_next r ea n s t hload with ⟨as, u, hok, -, rfl⟩ | ⟨e, u, hfail, rfl⟩
    · have hf := translateAccess_ok s u ea n .load as hok
      refine ⟨hf.regs.slb, hf.regs.sdr1, hf.regs.cfg, fun q hq => ?_,
        .inl ⟨congrArg (· + 4) hf.pc, hf.regs.msr, hf.regs.srr0, hf.regs.srr1, hf.regs.dar, hf.regs.dsisr⟩,
        fun a ha => (translateAccess_ok_read hok a ha :)⟩
      rw [State.readGpr_nextPc, State.readGpr_setGpr_of_ne _ _ _ _ hq, State.readGpr_congr s u hf.regs.gpr]
    · obtain ⟨hslb, hsdr1, hcfg, hgpr, hsrr0, hpc⟩ :=
        takeException_of_unitFrame (translateAccess_fail s u ea n .load _ hfail) e
      refine ⟨hslb, hsdr1, hcfg, fun q _ => State.readGpr_congr _ _ hgpr q, .inr ⟨hgpr, hsrr0, e, hpc⟩, fun a ha => ?_⟩
      rw [State.takeException_mem]
      exact translateAccess_fail_read hfail a ha
  · have hstore : ∃ bs : List Byte, bs.length = n ∧ storeFrom ea bs s = .next t := by
      rcases hi with ⟨d, rfl, rfl, rfl⟩ | ⟨d, rfl, rfl, rfl⟩
      · exact ⟨_, beBytes_length 1 _, ht⟩
      · exact ⟨_, beBytes_length 8 _, ht⟩
    obtain ⟨bs, rfl, hstore⟩ := hstore
    rcases storeFrom_next ea bs s t hstore with ⟨as, u, hok, -, rfl⟩ | ⟨e, u, hfail, rfl⟩
    · have hf := (translateAccess_ok s u ea bs.length .store as hok).trans u.tlbAgent_frame
      refine ⟨hf.regs.slb, hf.regs.sdr1, hf.regs.cfg, hf.regs.gpr,
        .inl ⟨congrArg (· + 4) hf.pc, hf.regs.msr, hf.regs.srr0, hf.regs.srr1, hf.regs.dar, hf.regs.dsisr⟩,
        fun a ha hbytes => ?_⟩
      have has : s.bytesOf ea bs.length .store = as := by simp [State.bytesOf, hok]
      rw [State.nextPc_mem, State.storeBytes_mem, State.tlbAgent_mem, Memory.read_writeAll_of_not_mem]
      · exact translateAccess_ok_read hok a ha
      · rintro ⟨x, y⟩ hx rfl
        exact hbytes (has ▸ (List.of_mem_zip hx).1)
    · obtain ⟨hslb, hsdr1, hcfg, hgpr, hsrr0, hpc⟩ :=
        takeException_of_unitFrame (translateAccess_fail s u ea bs.length .store _ hfail) e
      refine ⟨hslb, hsdr1, hcfg, hgpr, .inr ⟨hsrr0, e, hpc⟩, fun a ha _ => ?_⟩
      rw [State.takeException_mem]
      exact translateAccess_fail_read hfail a ha

end Sys2Proof.Machine
end

section
/-! SUPPORT. Why an access that has translated translates again alike (spec/20_memory.md R68): R and C, which it has set,
are read by no step of the search and of the checks (R103 to R118). -/

namespace Sys2Proof.Machine

/-! PTEs that differ in R and C alone -/

/-- `q` is `p` but for R and C, bits 55 and 56 of doubleword 1 (R101). -/
structure Pte.SameButHistory (p q : Pte) : Prop where
  dw0 : q.dw0 = p.dw0
  dw1 : ∀ i, i < 64 → i ≠ 55 → i ≠ 56 → bit q.dw1 i = bit p.dw1 i

/-- A field is given by its bits. -/
theorem slice_congr {v w : Word} {a b : Nat} (hab : a ≤ b) (hb : b < 64)
    (h : ∀ i, a ≤ i → i ≤ b → bit v i = bit w i) : slice v a b = slice w a b := by
  refine BitVec.eq_of_getLsbD_eq fun j hj => ?_
  have hbit := h (b - j) (by omega) (by omega)
  rw [bit_eq_getLsbD, bit_eq_getLsbD, show 64 - 1 - (b - j) = 64 - 1 - b + j by omega] at hbit
  simpa [slice, hj, show b - j < 64 by omega] using hbit

namespace Pte.SameButHistory
variable {p q p' q' : Pte}

/-- A field that holds neither R nor C. -/
theorem field (h : p.SameButHistory q) (a b : Nat) (hab : a ≤ b) (hb : b < 64) (hrc : b < 55 ∨ 56 < a) :
    slice q.dw1 a b = slice p.dw1 a b :=
  slice_congr hab hb fun i hai hib => h.dw1 i (by omega) (by omega) (by omega)

theorem rpn (h : p.SameButHistory q) : pteRpn q = pteRpn p := h.field 2 51 (by decide) (by decide) (by decide)
theorem wimg (h : p.SameButHistory q) : pteWimg q = pteWimg p := h.field 57 60 (by decide) (by decide) (by decide)
theorem pp (h : p.SameButHistory q) : ptePp q = ptePp p := h.field 62 63 (by decide) (by decide) (by decide)
theorem g (h : p.SameButHistory q) : pteG q = pteG p := h.dw1 60 (by decide) (by decide) (by decide)
theorem n (h : p.SameButHistory q) : pteN q = pteN p := h.dw1 61 (by decide) (by decide) (by decide)
theorem l (h : p.SameButHistory q) : pteL q = pteL p := by rw [pteL, pteL, h.dw0]

theorem reservedZero (h : p.SameButHistory q) (c : Config) : pteReservedZero c q = pteReservedZero c p := by
  rw [pteReservedZero, pteReservedZero, h.n, h.field 0 1 (by decide) (by decide) (by decide),
    h.field 52 54 (by decide) (by decide) (by decide)]

theorem agree (h : p.SameButHistory q) (h' : p'.SameButHistory q') : ptesAgree q q' = ptesAgree p p' := by
  rw [ptesAgree, ptesAgree, h.rpn, h.wimg, h.n, h.pp, h'.rpn, h'.wimg, h'.n, h'.pp]

theorem check (h : p.SameButHistory q) (c : Config) (e : SlbEntry) (user : Bool) (ea : Word) (kind : AccessKind) :
    checkPage c e user q ea kind = checkPage c e user p ea kind := by
  rw [checkPage, checkPage, h.l, h.g, h.n, h.pp]

theorem pa (h : p.SameButHistory q) (ea : Word) : pagePa q ea = pagePa p ea := by rw [pagePa, pagePa, h.rpn]

end Pte.SameButHistory

/-! The search of the page table -/

/-- Which doublewords can be read is not a matter of what they hold (R64, R105). -/
theorem readTableDw_reader (c : Config) (rd rd' : Nat → Word) (a : Nat) :
    readTableDw c rd' a = (readTableDw c rd a).map fun _ => rd' a := by
  unfold readTableDw
  cases firstAbsent c (bytesFrom a 8) <;> rfl

theorem present_of_readTableDw {c : Config} {rd : Nat → Word} {a : Nat} {w : Word} (h : readTableDw c rd a = .ok w) :
    ∀ k, k < 8 → presentAt c (a + k) = true := by
  unfold readTableDw at h
  split at h
  · cases h
  · rename_i hnone
    exact fun k hk => (firstAbsent_eq_none c _).1 hnone _ ((mem_bytesFrom a 8 _).2 ⟨k, hk, rfl⟩)

/-- What the first match is: a slot whose two doublewords are present, and what they hold (R104, R105). -/
theorem firstMatch_eq_some {c : Config} {rd : Nat → Word} {vpn : VPN} {l : List (PA × Bool)} {p : Pte} {t : PA}
    (h : firstMatch c rd vpn l = .ok (some (p, t))) :
    (∃ x ∈ l, x.1 = t) ∧ (∀ k, k < 16 → presentAt c (t.toNat + k) = true) ∧
      p = ⟨rd t.toNat, rd (t.toNat + 8)⟩ := by
  induction l with
  | nil => cases h
  | cons x l ih =>
    obtain ⟨q, b⟩ := x
    rw [firstMatch] at h
    split at h
    · cases h
    rename_i dw0 h0
    split at h
    · split at h
      · cases h
      rename_i dw1 h1
      cases h
      refine ⟨⟨_, List.mem_cons_self, rfl⟩, fun k hk => ?_, ?_⟩
      · by_cases hlow : k < 8
        · exact present_of_readTableDw h0 k hlow
        · simpa [Nat.add_assoc, show 8 + (k - 8) = k by omega] using present_of_readTableDw h1 (k - 8) (by omega)
      · rw [readTableDw_ok _ _ _ _ h0, readTableDw_ok _ _ _ _ h1]
    · obtain ⟨⟨y, hy, hyt⟩, hrest⟩ := ih h
      exact ⟨⟨y, List.mem_cons_of_mem _ hy, hyt⟩, hrest⟩

/-- A search that finds a PTE has passed every check (R102, R104, R106). -/
theorem searchTable_eq_some (c : Config) (sdr1 : Word) (rd : Nat → Word) (vpn : VPN) (p : Pte) (t : PA) :
    searchTable c sdr1 rd vpn = .ok (some (p, t)) ↔
      sdr1ReservedZero sdr1 = true ∧ ¬ htabLimit c < sdr1Size sdr1 ∧
      (pteSlots sdr1 vpn).any (slotTooWide c rd) = false ∧
      firstMatch c rd vpn (pteSlots sdr1 vpn) = .ok (some (p, t)) ∧
      (∀ q ∈ allMatches c rd vpn (pteSlots sdr1 vpn), pteReservedZero c q = true) ∧
      (∀ q ∈ allMatches c rd vpn (pteSlots sdr1 vpn), ptesAgree p q = true) := by
  rw [← List.all_eq_true, ← List.all_eq_true]
  constructor
  · intro h
    unfold searchTable at h
    split_ifs at h with hr hs hw
    split at h
    · cases h
    · cases h
    rename_i p' t' hm
    dsimp only at h
    split_ifs at h with ha hb
    cases h
    exact ⟨by simpa using hr, hs, by simpa using hw, hm, by simpa using ha, by simpa using hb⟩
  · rintro ⟨hr, hs, hw, hm, ha, hb⟩
    simp [searchTable, hr, hs, hw, hm, ha, hb]

section
variable {c : Config} {rd rd' : Nat → Word} {vpn : VPN} {l : List (PA × Bool)}
  (hsame : ∀ x ∈ l, Pte.SameButHistory ⟨rd x.1.toNat, rd (x.1.toNat + 8)⟩ ⟨rd' x.1.toNat, rd' (x.1.toNat + 8)⟩)
include hsame

/-- Doubleword 0 alone decides which slot is the first match. -/
theorem firstMatch_sameButHistory {p : Pte} {t : PA} (h : firstMatch c rd vpn l = .ok (some (p, t))) :
    firstMatch c rd' vpn l = .ok (some (⟨rd' t.toNat, rd' (t.toNat + 8)⟩, t)) := by
  induction l with
  | nil => cases h
  | cons x l ih =>
    obtain ⟨q, b⟩ := x
    have hdw0 : rd' q.toNat = rd q.toNat := (hsame (q, b) List.mem_cons_self).dw0
    have hrest := ih fun y hy => hsame y (List.mem_cons_of_mem _ hy)
    rw [firstMatch] at h ⊢
    rw [readTableDw_reader c rd rd' q.toNat, readTableDw_reader c rd rd' (q.toNat + 8)]
    cases h0 : readTableDw c rd q.toNat with
    | error a => simp [h0] at h
    | ok dw0 =>
      simp only [h0, Except.map, hdw0, ← readTableDw_ok _ _ _ _ h0] at h ⊢
      split at h
      · rename_i hm
        rw [if_pos hm]
        cases h1 : readTableDw c rd (q.toNat + 8) with
        | error a => simp [h1] at h
        | ok dw1 =>
          simp only [h1, Except.ok.injEq, Option.some.injEq, Prod.mk.injEq] at h ⊢
          obtain ⟨-, rfl⟩ := h
          exact ⟨by rw [readTableDw_ok _ _ _ _ h0, ← hdw0], rfl⟩
      · rename_i hm
        rw [if_neg hm]
        exact hrest h

/-- Each match is one of the matches before, but for R and C. -/
theorem allMatches_sameButHistory {q : Pte} (h : q ∈ allMatches c rd' vpn l) :
    ∃ p ∈ allMatches c rd vpn l, p.SameButHistory q := by
  obtain ⟨x, hx, hq⟩ := List.mem_filterMap.1 h
  have hs := hsame x hx
  have hdw0 : rd' x.1.toNat = rd x.1.toNat := hs.dw0
  dsimp only at hq
  rw [readTableDw_reader c rd rd' x.1.toNat, readTableDw_reader c rd rd' (x.1.toNat + 8)] at hq
  cases h0 : readTableDw c rd x.1.toNat with
  | error a => simp [h0, Except.map] at hq
  | ok dw0 =>
    cases h1 : readTableDw c rd (x.1.toNat + 8) with
    | error a => simp [h0, h1, Except.map] at hq
    | ok dw1 =>
      simp only [h0, h1, Except.map] at hq
      split at hq
      · rename_i hm
        cases hq
        refine ⟨_, List.mem_filterMap.2 ⟨x, hx, ?_⟩, hs⟩
        rw [hdw0] at hm
        simp only [h0, h1, readTableDw_ok _ _ _ _ h0, readTableDw_ok _ _ _ _ h1, hm, if_true]
      · cases hq

/-- The check of R85 reads doubleword 0 alone. -/
theorem slotTooWide_sameButHistory : l.any (slotTooWide c rd') = l.any (slotTooWide c rd) := by
  rw [Bool.eq_iff_iff, List.any_eq_true, List.any_eq_true]
  refine exists_congr fun x => and_congr_right fun hx => ?_
  have hdw0 : rd' x.1.toNat = rd x.1.toNat := (hsame x hx).dw0
  rw [slotTooWide, slotTooWide, readTableDw_reader c rd rd']
  cases h0 : readTableDw c rd x.1.toNat with
  | error a => rfl
  | ok dw0 => simp only [Except.map, hdw0, readTableDw_ok _ _ _ _ h0]

end

/-- A search that finds a PTE finds the PTE there again when some R and C have changed. -/
theorem searchTable_sameButHistory {c : Config} {sdr1 : Word} {rd rd' : Nat → Word} {vpn : VPN} {p : Pte} {t : PA}
    (hsame : ∀ x ∈ pteSlots sdr1 vpn,
      Pte.SameButHistory ⟨rd x.1.toNat, rd (x.1.toNat + 8)⟩ ⟨rd' x.1.toNat, rd' (x.1.toNat + 8)⟩)
    (h : searchTable c sdr1 rd vpn = .ok (some (p, t))) :
    searchTable c sdr1 rd' vpn = .ok (some (⟨rd' t.toNat, rd' (t.toNat + 8)⟩, t)) := by
  obtain ⟨hr, hs, hw, hm, ha, hb⟩ := (searchTable_eq_some c sdr1 rd vpn p t).1 h
  obtain ⟨⟨x, hx, rfl⟩, -, rfl⟩ := firstMatch_eq_some hm
  refine (searchTable_eq_some _ _ _ _ _ _).2 ⟨hr, hs, (slotTooWide_sameButHistory hsame).trans hw,
    firstMatch_sameButHistory hsame hm, fun q hq => ?_, fun q hq => ?_⟩
  · obtain ⟨q0, hq0, hq0s⟩ := allMatches_sameButHistory hsame hq
    rw [hq0s.reservedZero, ha q0 hq0]
  · obtain ⟨q0, hq0, hq0s⟩ := allMatches_sameButHistory hsame hq
    rw [(hsame x hx).agree hq0s, hb q0 hq0]

/-! Memory after step 7 -/

/-- A bit of a doubleword in memory is a bit of one byte (R62). -/
theorem bit_readDw (m : Memory) (a i : Nat) (hi : i < 64) :
    bit (m.readDw a) i = (m.read (a + i / 8)).getLsbD (7 - i % 8) := by
  rw [bit_eq_getLsbD, ← m.readDw_getLsbD a (i / 8) (7 - i % 8) (by omega) (by omega),
    show 64 - 1 - i = 8 * (7 - i / 8) + (7 - i % 8) by omega]
  simp [hi]

/-- Of the bits of two aligned doublewords at `y`, an access through the PTE at `t` sets none but bits 55 and 56 of the
second (R101, R122). -/
theorem historyByte_getLsbD {y t : PA} (store : Bool) (hy : y.toNat % 16 = 0) (ht : t.toNat % 16 = 0) (k j : Nat)
    (hk : k < 16) (hr : ¬ (k = 14 ∧ j = 0)) (hc : ¬ (k = 15 ∧ j = 7)) :
    (historyByte t store (y.toNat + k)).getLsbD j = false := by
  have hpow (i : Nat) (h : j ≠ i) : (BitVec.twoPow 8 i).getLsbD j = false := by
    simp [BitVec.getLsbD_twoPow, h.symm]
  unfold historyByte
  split_ifs with hbyte hbyte'
  · exact hpow 0 fun hj => hr ⟨by omega, hj⟩
  · obtain ⟨hbyte', -⟩ := hbyte'
    exact hpow 7 fun hj => hc ⟨by omega, hj⟩
  · exact BitVec.getLsbD_zero

/-- Every PTE is then what it was but for R and C. -/
theorem pteAt_sameButHistory {s u : State} {t y : PA} {store : Bool} (hy : y.toNat % 16 = 0) (ht : t.toNat % 16 = 0)
    (hread : ∀ a, u.mem.read a = s.mem.read a ||| historyByte t store a) :
    (s.pteAt y).SameButHistory (u.pteAt y) := by
  refine ⟨eq_of_bit_eq _ _ fun i hi => ?_, fun i hi hr hc => ?_⟩
  · simp only [State.pteAt]
    rw [bit_readDw _ _ i hi, bit_readDw _ _ i hi, hread, BitVec.getLsbD_or,
      historyByte_getLsbD store hy ht (i / 8) (7 - i % 8) (by omega) (by omega) (by omega), Bool.or_false]
  · simp only [State.pteAt]
    rw [bit_readDw _ _ i hi, bit_readDw _ _ i hi, hread, BitVec.getLsbD_or, Nat.add_assoc,
      historyByte_getLsbD store hy ht (8 + i / 8) (7 - i % 8) (by omega) (by omega) (by omega), Bool.or_false]

/-! Translating again -/

/-- A translation with no TLB and no window has gone through one segment and the PTE that the search finds (R115). -/
theorem pageTranslate_of_quiet {s : State} {d : Nat} {ea : Word} {kind : AccessKind} {x : Xlat} (hq : s.Quiet)
    (htlb : s.cfg.tlbPresent = false) (h : pageTranslate s d ea kind = .ok x) :
    ∃ e p t, segmentLookup s d ea kind = .ok e ∧
      searchTable s.cfg s.sdr1 s.mem.readDw (pageOf e ea) = .ok (some (p, t)) ∧
      checkPage s.cfg e (msrPR s.msr) p ea kind = .ok () ∧ x = ⟨pagePa p ea, some ⟨pageOf e ea, p, t, none⟩⟩ := by
  unfold pageTranslate at h
  split at h
  · cases h
  rename_i e he
  split at h
  · cases h
  rename_i f hf
  split at h
  · cases h
  rename_i hc
  cases h
  rw [pageLookup, tlbLookup_of_absent s d _ htlb, searchSeen_of_quiet s d _ hq] at hf
  dsimp only at hf
  split at hf
  · cases hf
  · cases hf
  rename_i p t hsearch
  cases hf
  exact ⟨e, p, t, he, hsearch, by rw [← seenPr_of_closed s d hq.1.1]; exact hc, rfl⟩

theorem pageTranslate_of_search {s : State} {d : Nat} {ea : Word} {kind : AccessKind} {e : SlbEntry} {p : Pte} {t : PA}
    (hq : s.Quiet) (htlb : s.cfg.tlbPresent = false) (he : segmentLookup s d ea kind = .ok e)
    (hsearch : searchTable s.cfg s.sdr1 s.mem.readDw (pageOf e ea) = .ok (some (p, t)))
    (hc : checkPage s.cfg e (msrPR s.msr) p ea kind = .ok ()) :
    pageTranslate s d ea kind = .ok ⟨pagePa p ea, some ⟨pageOf e ea, p, t, none⟩⟩ := by
  have hlookup : pageLookup s d (pageOf e ea) ea kind = .ok ⟨pageOf e ea, p, t, none⟩ := by
    simp [pageLookup, tlbLookup_of_absent s d _ htlb, searchSeen_of_quiet s d _ hq, hsearch]
  rw [← seenPr_of_closed s d hq.1.1] at hc
  simp only [pageTranslate, he, show vpnOf e.vsid ea = pageOf e ea from rfl, hlookup, hc]

/-- Step 7 has nothing to do where the PTE used has its bits set and there is no TLB (R120 to R122). -/
theorem recordFound_of_set (s : State) (d : Nat) (vpn : VPN) (p : Pte) (t : PA) (store : Bool)
    (htlb : s.cfg.tlbPresent = false) (hr : pteR p = true) (hc : store = true → pteC p = true) :
    recordFound s d ⟨vpn, p, t, none⟩ store = .ok () s := by
  cases store <;> simp_all [recordFound, State.tlbAfter]

theorem segmentLookup_of_same_slb {s u : State} (d d' : Nat) (ea : Word) (kind : AccessKind) (hs : s.slbWindow = [])
    (hu : u.slbWindow = []) (hslb : u.slb = s.slb) (hcfg : u.cfg = s.cfg) :
    segmentLookup u d' ea kind = segmentLookup s d ea kind := by
  rw [segmentLookup, segmentLookup, seenSlb_of_closed u d' hu, seenSlb_of_closed s d hs, hslb, hcfg]

/-- What an access within a page that has translated has done. -/
theorem translateAccess_within_eq_ok {s u : State} {ea : Word} {n : Nat} {kind : AccessKind} {as : List Nat}
    (hn : ea.toNat % 4096 + n ≤ 4096) (h : translateAccess s ea n kind = .ok as u) :
    ∃ x, translate s s.draws ea kind = .ok x ∧
      recordPart { s with draws := s.draws + 2 } s.draws x (kind == .store) = .ok () u ∧
      as = bytesFrom x.pa.toNat n := by
  simp only [translateAccess, translate_draws, firstPartLen_within ea n hn, if_true] at h
  split at h
  · cases h
  rename_i x hx
  split at h
  · cases h
  rename_i hu
  cases h
  exact ⟨x, hx, hu, rfl⟩

section
variable {s u : State} {ea : Word} {n : Nat} {kind : AccessKind} {as : List Nat} (hq : s.Quiet)
  (hn : ea.toNat % 4096 + n ≤ 4096) (hok : translateAccess s ea n kind = .ok as u)
include hq hn hok

/-- In real addressing mode the first access has set nothing (R77). -/
theorem translateAccess_again_of_real (h : ¬ s.Translating kind) :
    translateAccess u ea n kind = .ok as { u with draws := u.draws + 2 } := by
  have hoff (d : Nat) : seenEnabled s d kind = false :=
    Bool.eq_false_iff.2 (mt (seenEnabled_of_closed s d kind hq.1.1).1 h)
  obtain ⟨x, hx, hu, rfl⟩ := translateAccess_within_eq_ok hn hok
  have hx' : translate s (s.draws + 2) ea kind = .ok x := by
    rw [← hx, translate_of_disabled s _ ea kind (hoff _), translate_of_disabled s _ ea kind (hoff _)]
  have hnone : x.found = none := by
    rw [translate_of_disabled s _ ea kind (hoff _)] at hx
    cases hr : realTranslate s.cfg ea with
    | error f => rw [hr] at hx; cases hx
    | ok pa => rw [hr] at hx; cases hx; rfl
  have hrecord (v : State) (d : Nat) : recordPart v d x (kind == .store) = .ok () v := by
    simp only [recordPart, hnone]
  cases (hrecord _ _).symm.trans hu
  exact translateAccess_within hn hx' (hrecord _ _)

/-- In page address translation the second search finds the PTE of the first, but for R and C, and these are set. -/
theorem translateAccess_again_of_page (htlb : s.cfg.tlbPresent = false) (hwf : s.mem.wf = true)
    (h : s.Translating kind) : translateAccess u ea n kind = .ok as { u with draws := u.draws + 2 } := by
  obtain ⟨x, hx, hu, rfl⟩ := translateAccess_within_eq_ok hn hok
  rw [translate_of_translating s _ ea kind hq.1 h] at hx
  obtain ⟨e, p, t, he, hsearch, hcheck, rfl⟩ := pageTranslate_of_quiet hq htlb hx
  obtain ⟨-, -, -, hmatch, -⟩ := (searchTable_eq_some _ _ _ _ _ _).1 hsearch
  obtain ⟨⟨y, hy, rfl⟩, hpresent, rfl⟩ := firstMatch_eq_some hmatch
  have hslot := pteSlots_aligned hy
  obtain ⟨v, hv, hf, hwin, hread⟩ := recordFound_historyByte s { s with draws := s.draws + 2 } s.draws (pageOf e ea)
    y.1 (kind == .store) hwf hpresent fun _ => ⟨0, BitVec.or_zero.symm⟩
  cases hv.symm.trans hu
  have hsame (z : PA × Bool) (hz : z ∈ pteSlots s.sdr1 (pageOf e ea)) : (s.pteAt z.1).SameButHistory (u.pteAt z.1) :=
    pteAt_sameButHistory (pteSlots_aligned hz) hslot hread
  have hq' : u.Quiet := by
    obtain ⟨⟨hmsr, hslb, hsdr1⟩, hpte, htlbw⟩ := hq
    exact ⟨⟨hf.msrWindow.trans hmsr, hf.slbWindow.trans hslb, hf.sdr1Window.trans hsdr1⟩, hf.pteWindow.trans hpte,
      hwin.trans htlbw⟩
  have htlb' : u.cfg.tlbPresent = false := by rw [hf.regs.cfg]; exact htlb
  have h' : u.Translating kind := by
    unfold State.Translating
    rw [hf.regs.msr]
    exact h
  have he' : segmentLookup u u.draws ea kind = .ok e := by
    rw [segmentLookup_of_same_slb s.draws u.draws ea kind hq.1.2.1 hq'.1.2.1 hf.regs.slb hf.regs.cfg, he]
  have hsearch' : searchTable u.cfg u.sdr1 u.mem.readDw (pageOf e ea) = .ok (some (u.pteAt y.1, y.1)) := by
    rw [hf.regs.cfg, hf.regs.sdr1]
    exact searchTable_sameButHistory hsame hsearch
  have hcheck' : checkPage u.cfg e (msrPR u.msr) (u.pteAt y.1) ea kind = .ok () := by
    rw [hf.regs.cfg, hf.regs.msr, (hsame y hy).check]
    exact hcheck
  have hx' := pageTranslate_of_search hq' htlb' he' hsearch' hcheck'
  rw [← translate_of_translating u _ ea kind hq'.1 h'] at hx'
  have hr : pteR (u.pteAt y.1) = true := by
    rw [pteR_pteAt, hread, BitVec.getLsbD_or]
    simp [historyByte]
  have hc (hstore : (kind == .store) = true) : pteC (u.pteAt y.1) = true := by
    rw [pteC_pteAt, hread, BitVec.getLsbD_or]
    simp [historyByte, hstore]
  have hagain := translateAccess_within hn hx'
    (recordFound_of_set { u with draws := u.draws + 2 } u.draws _ _ _ (kind == .store) htlb' hr hc)
  rw [(hsame y hy).pa] at hagain
  exact hagain

end

/-- Settles O29: in either addressing mode. -/
theorem translatingTwiceChangesNothingMore : Obligations.TranslatingTwiceChangesNothingMore := by
  intro s u ea n kind as hq htlb hwf _ hn hok
  by_cases h : s.Translating kind
  · exact translateAccess_again_of_page hq hn hok htlb hwf h
  · exact translateAccess_again_of_real hq hn hok h

end Sys2Proof.Machine
end

section
/-! SUPPORT. The decoder and the encoder (spec/30_encoding.md R142 to R151): a word in a form is its fields side by side,
so that the word of an instruction has its operands as fields; the rows of R149. -/

namespace Sys2Proof
open Machine (toNat_append_eq_add)

/-! Fields in numbers -/

/-- A field in numbers (R8). -/
theorem slice_toNat {w : Nat} (v : BitVec w) (a b : Nat) :
    (slice v a b).toNat = v.toNat / 2 ^ (w - 1 - b) % 2 ^ (b - a + 1) := by
  rw [slice, BitVec.extractLsb'_toNat, Nat.shiftRight_eq_div_pow]

/-- Exchanging the halves of the SPR number twice gives the number back (R143, R147). -/
theorem swapped_eq_iff (spr : BitVec 10) (x y : BitVec 5) :
    (x = slice spr 5 9 ∧ y = slice spr 0 4) ↔ (y ++ x : BitVec 10) = spr := by
  have hx := x.isLt
  have hy := y.isLt
  have hspr := spr.isLt
  simp only [← BitVec.toNat_inj, toNat_append_eq_add, slice_toNat]
  omega

/-! The forms of R142 to R146: a word is of a form just when its fields are -/

section
variable (w : Word32)

/-- X form (R142). -/
theorem encodeX_eq_iff (f6 f11 f16 : BitVec 5) (xo : BitVec 10) :
    encodeX f6 f11 f16 xo = w ↔ slice w 0 5 = 31 ∧ slice w 6 10 = f6 ∧ slice w 11 15 = f11 ∧ slice w 16 20 = f16 ∧
      slice w 21 30 = xo ∧ slice w 31 31 = 0 := by
  have h6 := f6.isLt
  have h11 := f11.isLt
  have h16 := f16.isLt
  have hxo := xo.isLt
  have hw := w.isLt
  simp only [encodeX, ← BitVec.toNat_inj, toNat_append_eq_add, slice_toNat, BitVec.ofNat_eq_ofNat, BitVec.toNat_ofNat]
  omega

/-- XFX form (R143). -/
theorem encodeXfx_eq_iff (rt : Reg) (spr xo : BitVec 10) :
    encodeXfx rt spr xo = w ↔ slice w 0 5 = 31 ∧ slice w 6 10 = rt ∧ slice w 16 20 ++ slice w 11 15 = spr ∧
      slice w 21 30 = xo ∧ slice w 31 31 = 0 := by
  rw [encodeXfx, encodeX_eq_iff, ← swapped_eq_iff, and_assoc]

/-- XL form (R144). -/
theorem encodeXl_eq_iff (xo : BitVec 10) :
    encodeXl xo = w ↔ slice w 0 5 = 19 ∧ slice w 6 20 = 0 ∧ slice w 21 30 = xo ∧ slice w 31 31 = 0 := by
  have hxo := xo.isLt
  have hw := w.isLt
  simp only [encodeXl, ← BitVec.toNat_inj, toNat_append_eq_add, slice_toNat, BitVec.ofNat_eq_ofNat, BitVec.toNat_ofNat]
  omega

/-- D form (R145). -/
theorem encodeD_eq_iff (opcd : BitVec 6) (rt ra : Reg) (d : BitVec 16) :
    encodeD opcd rt ra d = w ↔ slice w 0 5 = opcd ∧ slice w 6 10 = rt ∧ slice w 11 15 = ra ∧ slice w 16 31 = d := by
  have hopcd := opcd.isLt
  have hrt := rt.isLt
  have hra := ra.isLt
  have hd := d.isLt
  have hw := w.isLt
  simp only [encodeD, ← BitVec.toNat_inj, toNat_append_eq_add, slice_toNat]
  omega

/-- DS form (R146). -/
theorem encodeDs_eq_iff (opcd : BitVec 6) (rt ra : Reg) (ds : BitVec 14) :
    encodeDs opcd rt ra ds = w ↔ slice w 0 5 = opcd ∧ slice w 6 10 = rt ∧ slice w 11 15 = ra ∧ slice w 16 29 = ds ∧
      slice w 30 31 = 0 := by
  have hopcd := opcd.isLt
  have hrt := rt.isLt
  have hra := ra.isLt
  have hds := ds.isLt
  have hw := w.isLt
  simp only [encodeDs, ← BitVec.toNat_inj, toNat_append_eq_add, slice_toNat, BitVec.ofNat_eq_ofNat, BitVec.toNat_ofNat]
  omega

end

/-! The L fields stand below reserved bits (R147, R150) -/

theorem lField_tlbie (w : Word32) (l : BitVec 1) :
    slice w 6 10 = 0#4 ++ l ↔ slice w 6 9 = 0 ∧ slice w 10 10 = l := by
  simp only [← BitVec.toNat_inj, toNat_append_eq_add, slice_toNat, BitVec.ofNat_eq_ofNat, BitVec.toNat_ofNat]
  omega

theorem lField_mtmsrd (w : Word32) (l : BitVec 1) :
    slice w 11 15 = 0#4 ++ l ↔ slice w 11 14 = 0 ∧ slice w 15 15 = l := by
  simp only [← BitVec.toNat_inj, toNat_append_eq_add, slice_toNat, BitVec.ofNat_eq_ofNat, BitVec.toNat_ofNat]
  omega

theorem lField_sync (w : Word32) (l : BitVec 2) :
    slice w 6 10 = 0#3 ++ l ↔ slice w 6 8 = 0 ∧ slice w 9 10 = l := by
  simp only [← BitVec.toNat_inj, toNat_append_eq_add, slice_toNat, BitVec.ofNat_eq_ofNat, BitVec.toNat_ofNat]
  omega

/-! Decoding inverts encoding, and encoding decoding -/

theorem ifReservedZero_eq_ok (zero : Bool) (i j : Instr) :
    ifReservedZero zero i = .ok j ↔ zero = true ∧ i = j := by
  cases zero <;> simp [ifReservedZero]

/-- Form by form (R142 to R146): the fields of the word of an instruction are its operands. -/
theorem decodeFields_encode (i : Instr) : decodeFields (encode i) = .ok i := by
  generalize hw : encode i = w
  cases i with
  | slbmte _ _ | slbmfev _ _ | slbmfee _ _ | slbie _ | slbia | tlbia | tlbsync | mfmsr _ =>
    have hform := (encodeX_eq_iff w _ _ _ _).1 hw
    simp [decodeFields, decode31, ifReservedZero, fieldOpcd, fieldXo, fieldRt, fieldRb, hform]
  | tlbie _ l | mtmsrd _ l | sync l =>
    have hform := (encodeX_eq_iff w _ _ _ _).1 hw
    simp only [BitVec.ofNat_eq_ofNat, lField_tlbie, lField_mtmsrd, lField_sync] at hform
    simp [decodeFields, decode31, ifReservedZero, fieldOpcd, fieldXo, fieldRt, fieldRb, hform]
  | mtspr _ _ | mfspr _ _ =>
    have hform := (encodeXfx_eq_iff w _ _ _).1 hw
    simp [decodeFields, decode31, ifReservedZero, fieldOpcd, fieldXo, fieldRt, fieldSpr, hform]
  | rfid | isync =>
    have hform := (encodeXl_eq_iff w _).1 hw
    simp [decodeFields, decode19, ifReservedZero, fieldOpcd, fieldXo, hform]
  | lbz _ _ _ | stb _ _ _ =>
    have hform := (encodeD_eq_iff w _ _ _ _).1 hw
    simp [decodeFields, fieldOpcd, fieldRt, fieldRa, fieldD, hform]
  | ld _ _ _ | std _ _ _ =>
    have hform := (encodeDs_eq_iff w _ _ _ _).1 hw
    simp [decodeFields, fieldOpcd, fieldXoDs, fieldRt, fieldRa, fieldDs, hform]

/-- Row by row: what `decode31` checks and what it takes as operands are all the fields of the form. -/
theorem encode_of_decode31 {w : Word32} {i : Instr} (ho : slice w 0 5 = 31) (h : decode31 w = .ok i) :
    encode i = w := by
  unfold decode31 at h
  split at h
  case h_14 => cases h
  all_goals
    rename_i hxo
    obtain ⟨-, hxo⟩ := BitVec.toNat_eq_nat.1 hxo
    simp only [ifReservedZero_eq_ok, Bool.and_eq_true, beq_iff_eq] at h
    obtain ⟨hzero, rfl⟩ := h
    rw [fieldXo] at hxo
    simp [encode, encodeX_eq_iff, encodeXfx_eq_iff, lField_tlbie, lField_mtmsrd, lField_sync, fieldRt, fieldRb,
      fieldSpr, ho, hxo, hzero]

theorem encode_of_decode19 {w : Word32} {i : Instr} (ho : slice w 0 5 = 19) (h : decode19 w = .ok i) :
    encode i = w := by
  unfold decode19 at h
  split at h
  case h_3 => cases h
  all_goals
    rename_i hxo
    obtain ⟨-, hxo⟩ := BitVec.toNat_eq_nat.1 hxo
    simp only [ifReservedZero_eq_ok, Bool.and_eq_true, beq_iff_eq] at h
    obtain ⟨⟨hz, h31⟩, rfl⟩ := h
    exact (encodeXl_eq_iff w _).2 ⟨ho, hz, hxo, h31⟩

theorem encode_of_decodeFields {w : Word32} {i : Instr} (h : decodeFields w = .ok i) : encode i = w := by
  unfold decodeFields at h
  split at h <;> rename_i ho
  case h_7 => cases h
  all_goals obtain ⟨-, ho⟩ := BitVec.toNat_eq_nat.1 ho
  case h_1 => exact encode_of_decode31 ho h
  case h_2 => exact encode_of_decode19 ho h
  case h_3 | h_4 =>
    cases h
    exact (encodeD_eq_iff w _ _ _ _).2 ⟨ho, rfl, rfl, rfl⟩
  case h_5 | h_6 =>
    split at h
    · rename_i hxo
      cases h
      exact (encodeDs_eq_iff w _ _ _ _).2 ⟨ho, rfl, rfl, rfl, hxo⟩
    · cases h

theorem decodeWord_encode (i : Instr) :
    decodeWord (encode i) = if i.wf = true then .ok i else .error (illFormed i) := by
  rw [decodeWord, decodeFields_encode]

/-- `decodeWord` gives the well-formed instructions and their words, and no others (R149 to R151). -/
theorem decodeWord_eq_ok_iff (w : Word32) (i : Instr) : decodeWord w = .ok i ↔ i.wf = true ∧ encode i = w := by
  refine ⟨fun h => ?_, ?_⟩
  · unfold decodeWord at h
    split at h
    · cases h
    rename_i j hj
    split at h
    · rename_i hwf
      cases h
      exact ⟨hwf, encode_of_decodeFields hj⟩
    · cases h
  · rintro ⟨hwf, rfl⟩
    rw [decodeWord_encode, if_pos hwf]

/-- Settles O1: `decodeWord_eq_ok_iff`, from the words of the forms to their fields. -/
theorem decodeInvertsEncode : Obligations.DecodeInvertsEncode :=
  fun i hwf => (decodeWord_eq_ok_iff (encode i) i).2 ⟨hwf, rfl⟩

/-- Settles O2: `decodeWord_eq_ok_iff`, from the fields the decoder has read to the word. -/
theorem encodeInvertsDecode : Obligations.EncodeInvertsDecode :=
  fun w i => (decodeWord_eq_ok_iff w i).1

/-- Settles O4: each word is decoded by evaluation. -/
theorem wordsOfTheSpecDecode : Obligations.WordsOfTheSpecDecode := by
  unfold Obligations.WordsOfTheSpecDecode
  decide

/-! The rows of R149 -/

/-- A field of opcode or reserved bits alone has the row's value in a word that matches the row (R149). -/
theorem slice_of_match {w : Word32} {row : OpcodeRow} (h : w &&& row.mask = row.pattern) (a b : Nat)
    (hm : slice row.mask a b = BitVec.allOnes _) : slice w a b = slice row.pattern a b := by
  simp only [slice] at hm ⊢
  rw [← h, BitVec.extractLsb'_and, hm, BitVec.and_allOnes]

/-- A word that matches a row is the word of one of the row's instructions: the other fields are its operands. -/
theorem exists_encode_of_match {w : Word32} {row : OpcodeRow} (hrow : row ∈ opcodeTable)
    (h : w &&& row.mask = row.pattern) : ∃ i, encode i = w ∧ i.mnemonic = row.mnemonic := by
  have f (a b : Nat) (hm : slice row.mask a b = BitVec.allOnes _ := by decide) := slice_of_match h a b hm
  simp only [opcodeTable, List.mem_cons, List.not_mem_nil, or_false] at hrow
  rcases hrow with rfl | rfl | rfl | rfl | rfl | rfl | rfl | rfl | rfl | rfl | rfl | rfl | rfl | rfl | rfl | rfl | rfl |
    rfl | rfl
  · exact ⟨.slbmte (fieldRt w) (fieldRb w),
      (encodeX_eq_iff w _ _ _ _).2 ⟨f 0 5, rfl, f 11 15, rfl, f 21 30, f 31 31⟩, rfl⟩
  · exact ⟨.slbmfev (fieldRt w) (fieldRb w),
      (encodeX_eq_iff w _ _ _ _).2 ⟨f 0 5, rfl, f 11 15, rfl, f 21 30, f 31 31⟩, rfl⟩
  · exact ⟨.slbmfee (fieldRt w) (fieldRb w),
      (encodeX_eq_iff w _ _ _ _).2 ⟨f 0 5, rfl, f 11 15, rfl, f 21 30, f 31 31⟩, rfl⟩
  · exact ⟨.slbie (fieldRb w), (encodeX_eq_iff w _ _ _ _).2 ⟨f 0 5, f 6 10, f 11 15, rfl, f 21 30, f 31 31⟩, rfl⟩
  · exact ⟨.slbia, (encodeX_eq_iff w _ _ _ _).2 ⟨f 0 5, f 6 10, f 11 15, f 16 20, f 21 30, f 31 31⟩, rfl⟩
  · exact ⟨.tlbie (fieldRb w) (slice w 10 10),
      (encodeX_eq_iff w _ _ _ _).2 ⟨f 0 5, (lField_tlbie w _).2 ⟨f 6 9, rfl⟩, f 11 15, rfl, f 21 30, f 31 31⟩, rfl⟩
  · exact ⟨.tlbia, (encodeX_eq_iff w _ _ _ _).2 ⟨f 0 5, f 6 10, f 11 15, f 16 20, f 21 30, f 31 31⟩, rfl⟩
  · exact ⟨.tlbsync, (encodeX_eq_iff w _ _ _ _).2 ⟨f 0 5, f 6 10, f 11 15, f 16 20, f 21 30, f 31 31⟩, rfl⟩
  · exact ⟨.mtmsrd (fieldRt w) (slice w 15 15),
      (encodeX_eq_iff w _ _ _ _).2 ⟨f 0 5, rfl, (lField_mtmsrd w _).2 ⟨f 11 14, rfl⟩, f 16 20, f 21 30, f 31 31⟩, rfl⟩
  · exact ⟨.mfmsr (fieldRt w), (encodeX_eq_iff w _ _ _ _).2 ⟨f 0 5, rfl, f 11 15, f 16 20, f 21 30, f 31 31⟩, rfl⟩
  · exact ⟨.mtspr (fieldSpr w) (fieldRt w), (encodeXfx_eq_iff w _ _ _).2 ⟨f 0 5, rfl, rfl, f 21 30, f 31 31⟩, rfl⟩
  · exact ⟨.mfspr (fieldRt w) (fieldSpr w), (encodeXfx_eq_iff w _ _ _).2 ⟨f 0 5, rfl, rfl, f 21 30, f 31 31⟩, rfl⟩
  · exact ⟨.rfid, (encodeXl_eq_iff w _).2 ⟨f 0 5, f 6 20, f 21 30, f 31 31⟩, rfl⟩
  · exact ⟨.sync (slice w 9 10),
      (encodeX_eq_iff w _ _ _ _).2 ⟨f 0 5, (lField_sync w _).2 ⟨f 6 8, rfl⟩, f 11 15, f 16 20, f 21 30, f 31 31⟩, rfl⟩
  · exact ⟨.isync, (encodeXl_eq_iff w _).2 ⟨f 0 5, f 6 20, f 21 30, f 31 31⟩, rfl⟩
  · exact ⟨.lbz (fieldRt w) (fieldRa w) (fieldD w), (encodeD_eq_iff w _ _ _ _).2 ⟨f 0 5, rfl, rfl, rfl⟩, rfl⟩
  · exact ⟨.stb (fieldRt w) (fieldRa w) (fieldD w), (encodeD_eq_iff w _ _ _ _).2 ⟨f 0 5, rfl, rfl, rfl⟩, rfl⟩
  · exact ⟨.ld (fieldRt w) (fieldRa w) (fieldDs w),
      (encodeDs_eq_iff w _ _ _ _).2 ⟨f 0 5, rfl, rfl, rfl, f 30 31⟩, rfl⟩
  · exact ⟨.std (fieldRt w) (fieldRa w) (fieldDs w),
      (encodeDs_eq_iff w _ _ _ _).2 ⟨f 0 5, rfl, rfl, rfl, f 30 31⟩, rfl⟩

/-- The SPR number in numbers: the swapped halves of bits 11:20 (R143, R147). -/
theorem fieldSpr_eq_ofNat (w : Word32) :
    fieldSpr w = BitVec.ofNat 10 (w.toNat / 2 ^ 11 % 32 * 32 + w.toNat / 2 ^ 16 % 32) := by
  have h16 : (slice w 16 20).toNat = w.toNat / 2 ^ 11 % 32 := slice_toNat w 16 20
  have h11 : (slice w 11 15).toNat = w.toNat / 2 ^ 16 % 32 := slice_toNat w 11 15
  rw [← h16, ← h11, ← BitVec.toNat_inj, fieldSpr, toNat_append_eq_add, BitVec.toNat_ofNat]
  omega

/-- Settles O3: the word is that of an instruction `i` of the row, which is rejected just where it is not well-formed. -/
theorem tableWordDecodesToItsRow : Obligations.TableWordDecodesToItsRow := by
  intro w row hrow h
  obtain ⟨i, hw, hi⟩ := exists_encode_of_match hrow h
  have hdecode : decodeWord w = if i.wf = true then .ok i else .error (illFormed i) := hw ▸ decodeWord_encode i
  rw [← fieldSpr_eq_ofNat, ← hi, hdecode]
  cases i with
  | mtspr spr _ | mfspr _ spr =>
    obtain ⟨-, -, hspr, -⟩ := (encodeXfx_eq_iff w _ spr _).1 hw
    rw [fieldSpr, hspr]
    by_cases hn : spr ∈ sprNumbers <;> simp [Instr.mnemonic, Instr.wf, illFormed, hn]
  | sync l =>
    obtain ⟨-, h6, -⟩ := (encodeX_eq_iff w _ _ _ _).1 hw
    obtain ⟨-, rfl⟩ := (lField_sync w l).1 h6
    have hl : slice w 9 10 = 3#2 ↔ w.toNat / 2 ^ 21 % 4 = 3 := by
      rw [← BitVec.toNat_inj, slice_toNat]
      rfl
    simp only [← hl]
    by_cases h3 : slice w 9 10 = 3#2 <;> simp [Instr.mnemonic, Instr.wf, illFormed, h3]
  | _ => simp [Instr.mnemonic, Instr.wf]

end Sys2Proof
end

section
/-! SUPPORT. Real-mode loads and stores (spec/42_storage_access.md R200 to R204; spec/20_memory.md R64 to R66, R73): the
effective address in numbers, and what the four data-access instructions answer at any alignment. -/

namespace Sys2Proof.Machine

/-! The effective address (R147, R200) -/

theorem State.eaD_eq (s : State) (ra : Reg) (d : BitVec 16) :
    s.eaD ra d = (if ra = 0 then 0 else s.readGpr ra) + BitVec.ofInt 64 d.toInt := rfl

theorem State.eaDs_eq (s : State) (ra : Reg) (ds : BitVec 14) :
    s.eaDs ra ds = (if ra = 0 then 0 else s.readGpr ra) + BitVec.ofInt 64 (4 * ds.toInt) := by
  rw [State.eaDs, BitVec.signExtend, show (0 : BitVec 2) = 0#2 from rfl, BitVec.toInt_append_zero]
  rfl

/-! Whole accesses -/

/-- A number of big-endian bytes is the sum of its bytes, each by its weight (R62, R64). -/
theorem beValue_map_range (n : Nat) (f : Nat → Byte) :
    beValue ((List.range n).map f) = ((List.range n).map fun k => (f k).toNat * 256 ^ (n - 1 - k)).sum := by
  induction n generalizing f with
  | zero => rfl
  | succ n ih =>
    have hhead := beValue_append [f 0] ((List.range n).map (f ∘ Nat.succ))
    rw [List.length_map, List.length_range, ih, List.singleton_append] at hhead
    rw [List.range_succ_eq_map, List.map_cons, List.map_map, hhead, List.map_cons, List.map_map, List.sum_cons]
    congr 1
    · simp [beValue]
    · exact congrArg List.sum (List.map_congr_left fun k _ => by simp [Nat.sub_sub, Nat.add_comm])

theorem firstAbsent_realBytes {s : State} {ea : Word} {n : Nat} (h : s.RealBytesPresent ea n) :
    firstAbsent s.cfg ((List.range n).map (realByte ea)) = none := by
  simpa [firstAbsent_eq_none] using h

namespace State.RealData
variable {s : State}

/-- A load at any alignment. -/
theorem loadInto_eq (h : s.RealData) {ea : Word} {n : Nat} (hn : n ≤ 4096) (hp : s.RealBytesPresent ea n) (rt : Reg) :
    loadInto rt ea n s = .next ({ s with draws := s.draws + 2, pc := s.pc + 4 }.setGpr rt
      (BitVec.ofNat 64 (beValue ((List.range n).map fun k => s.mem.read (realByte ea k))))) := by
  rw [loadInto_of_ok rt ea n s _ _ (h.translateAccess_eq ea n .load (by decide) hn) (firstAbsent_realBytes hp),
    List.map_map]
  rfl

/-- A store of a number's bytes at any alignment. -/
theorem storeFrom_completes (h : s.RealData) (hwf : s.mem.wf = true) {ea : Word} {n : Nat} (hn : n ≤ 4096)
    (hp : s.RealBytesPresent ea n) (v : Nat) :
    ∃ t, storeFrom ea (beBytes n v) s = .next t ∧ t.pc = s.pc + 4 ∧ s.SameRegisters t ∧
      s.StoreWindows t ((List.range n).map (realByte ea)) s.mem ∧
      (∀ k, k < n → t.mem.read (realByte ea k) = BitVec.ofNat 8 (v / 256 ^ (n - 1 - k))) ∧
      ∀ a, (∀ k, k < n → a ≠ realByte ea k) → t.mem.read a = s.mem.read a := by
  have hok := h.translateAccess_eq ea n .store (by decide) hn
  have hf := (translateAccess_ok _ _ _ _ _ _ hok).trans (State.tlbAgent_frame _)
  refine ⟨_, storeFrom_of_ok ea (beBytes n v) s _ _ (by rw [beBytes_length]; exact hok) (firstAbsent_realBytes hp),
    congrArg (· + 4) hf.pc, { hf.regs with }, ?_, fun k hk => ?_, fun a ha => ?_⟩
  · obtain ⟨new, hnew, hmem⟩ := (State.storeBytes_windows { s with draws := s.draws + 2 }.tlbAgent
      ((List.range n).map (realByte ea)) (beBytes n v)).pteWindow
    exact ⟨⟨new, by rw [State.nextPc_pteWindow, hnew, hf.pteWindow], by simpa using hmem⟩, hf.msrWindow, hf.slbWindow,
      hf.sdr1Window, State.tlbAgent_tlbWindow _⟩
  · have hget := congrArg (·[k]?) (s.mem.map_read_writeAll_zip ((List.range n).map (realByte ea)) (beBytes n v) hwf
      (realBytes_nodup ea n hn) (by simp))
    simpa [beBytes, hk, Nat.shiftRight_eq_div_pow, Nat.pow_mul] using hget
  · rw [State.nextPc_mem, State.storeBytes_mem, State.tlbAgent_mem, Memory.read_writeAll_of_not_mem]
    rintro ⟨x, y⟩ hx rfl
    obtain ⟨k, hk, hkx⟩ := List.mem_map.1 (List.of_mem_zip hx).1
    exact ha k (List.mem_range.1 hk) hkx.symm

end State.RealData

/-- Settles O9: both loads are `State.RealData.loadInto_eq`. -/
theorem loadsInRealMode : Obligations.LoadsInRealMode := by
  intro s rt ra _ hreal
  refine ⟨?_, ?_⟩
  · intro d ea hp
    exact (hreal.loadInto_eq (by decide) hp rt).trans (by simp [List.range, List.range.loop, beValue])
  · intro ds ea hp
    have hload := hreal.loadInto_eq (by decide) hp rt
    rw [beValue_map_range] at hload
    rw [← hload]
    exact congrArg (loadInto rt · 8 s) (s.eaDs_eq ra ds)

/-- Settles O10: both stores are `State.RealData.storeFrom_completes`. -/
theorem storesInRealMode : Obligations.StoresInRealMode := by
  intro s rs ra _ hreal hwf
  refine ⟨?_, ?_⟩
  · intro d ea hp
    obtain ⟨t, ht, hpc, hregs, hwin, hread, hother⟩ :=
      hreal.storeFrom_completes hwf (by decide) hp (s.readGpr rs).toNat
    exact ⟨t, ht, hpc, hregs, hwin, by simpa using hread 0 (by decide), fun a ha => hother a (by simpa using ha)⟩
  · intro ds ea hp
    obtain ⟨t, ht, hrest⟩ := hreal.storeFrom_completes hwf (by decide) hp (s.readGpr rs).toNat
    exact ⟨t, (congrArg (storeFrom · _ s) (s.eaDs_eq ra ds)).trans ht, hrest⟩

end Sys2Proof.Machine
end

section
/-! SUPPORT. What user mode can do (spec/30_encoding.md R148; spec/60_exceptions.md R217, R221 to R225): a privileged
instruction traps, the others change no system register, and a step is contained; `tlbia` and `tlbsync` in supervisor
mode (spec/40_slb_tlb_maintenance.md R166, R167). -/

namespace Sys2Proof.Machine

/-! Privileged instructions -/

theorem exec_tlbia_absent {s : State} (h : s.cfg.tlbiaImplemented = false) : exec .tlbia s = .refused .tlbiaAbsent :=
  if_neg (by simp [h])

theorem exec_tlbia_implemented {s : State} (h : s.cfg.tlbiaImplemented = true) :
    exec .tlbia s =
      privileged s (.next (if s.cfg.tlbPresent then { s with tlb := [], tlbWindow := [] } else s).nextPc) :=
  if_pos h

/-- In user mode a privileged instruction traps (R148), but for a `tlbia` that the implementation lacks (R152). -/
theorem exec_privileged_user {s : State} {i : Instr} (hi : i.privileged = true) (h : msrPR s.msr = true)
    (htlbia : i = .tlbia → s.cfg.tlbiaImplemented = true) : exec i s = .next (s.takeException .programPrivileged) := by
  cases i with
  | tlbia =>
    rw [exec_tlbia_implemented (htlbia rfl)]
    exact privileged_user s _ h
  | sync _ | isync | lbz _ _ _ | stb _ _ _ | ld _ _ _ | std _ _ _ => cases hi
  | _ => exact privileged_user s _ h

/-- Settles O38: `exec_privileged_user`. -/
theorem privilegedInstructionTrapsInUserMode : Obligations.PrivilegedInstructionTrapsInUserMode :=
  fun _ _ hi h htlbia => exec_privileged_user hi h htlbia

/-- Settles O52: the privilege check passes in supervisor mode. -/
theorem tlbiaEmptiesTheTlbAndTlbsyncChangesOnlyPc : Obligations.TlbiaEmptiesTheTlbAndTlbsyncChangesOnlyPc := by
  refine fun s => ⟨fun h himpl => ?_, exec_tlbia_absent, fun h => privileged_supervisor s _ h⟩
  rw [exec_tlbia_implemented himpl, privileged_supervisor s _ h]
  split <;> rfl

/-! Containment -/

/-- The registers of an exception taken in user mode at the pc of `s` (R221 to R225). -/
structure State.EntryFromUser (s t : State) : Prop where
  real : msrIR t.msr = false ∧ msrDR t.msr = false ∧ msrPR t.msr = false
  srr0 : t.srr0 = s.pc
  srr1User : msrPR t.srr1 = true
  gpr : t.gpr = s.gpr
  pc : ∃ e, t.pc = s.cfg.vectorBase.setWidth 64 + vectorOffset e

/-- What a step from user mode can do to the registers of the system (R148, R221 to R225). -/
structure State.Contained (s t : State) : Prop where
  sdr1 : t.sdr1 = s.sdr1
  slb : t.slb = s.slb
  cfg : t.cfg = s.cfg
  registers : (t.msr = s.msr ∧ t.srr0 = s.srr0 ∧ t.srr1 = s.srr1 ∧ t.dar = s.dar ∧ t.dsisr = s.dsisr) ∨
    s.EntryFromUser t

/-- SRR1 keeps PR, which is no status bit (R224). -/
theorem msrPR_entrySrr1 (m status : Word) : msrPR (entrySrr1 m status) = msrPR m := by
  rw [msrPR, entrySrr1, bit_copyBits, if_neg (by decide), msrPR]

namespace State.Contained
variable {s t u : State}

/-- An exception taken where the translation unit has got to. -/
theorem takeException (h : msrPR s.msr = true) (f : s.UnitFrame u) (e : Exc) : s.Contained (u.takeException e) := by
  obtain ⟨hslb, hsdr1, hcfg, hgpr, hsrr0, hpc⟩ := takeException_of_unitFrame f e
  refine ⟨hsdr1, hslb, hcfg, .inr ⟨entryMsr_realSupervisor u.msr, hsrr0, ?_, hgpr, e, hpc⟩⟩
  rw [State.takeException_srr1, msrPR_entrySrr1, f.regs.msr, h]

/-- What a step does after its fetch it does from the state before: the fetch changes no register. -/
theorem of_unitFrame (f : s.UnitFrame u) (h : u.Contained t) : s.Contained t := by
  obtain ⟨hsdr1, hslb, hcfg, hregs⟩ := h
  refine ⟨hsdr1.trans f.regs.sdr1, hslb.trans f.regs.slb, hcfg.trans f.regs.cfg, hregs.imp ?_ ?_⟩
  · rintro ⟨hmsr, hsrr0, hsrr1, hdar, hdsisr⟩
    exact ⟨hmsr.trans f.regs.msr, hsrr0.trans f.regs.srr0, hsrr1.trans f.regs.srr1, hdar.trans f.regs.dar,
      hdsisr.trans f.regs.dsisr⟩
  · rintro ⟨hreal, hsrr0, hsrr1, hgpr, e, hpc⟩
    exact ⟨hreal, hsrr0.trans f.pc, hsrr1, hgpr.trans f.regs.gpr, e, by rw [hpc, f.regs.cfg]⟩

/-- An instruction of user mode that completes: it may have changed general registers, pc, memory, the TLB and windows. -/
theorem completes (hsdr1 : t.sdr1 = s.sdr1) (hslb : t.slb = s.slb) (hcfg : t.cfg = s.cfg) (hmsr : t.msr = s.msr)
    (hsrr0 : t.srr0 = s.srr0) (hsrr1 : t.srr1 = s.srr1) (hdar : t.dar = s.dar) (hdsisr : t.dsisr = s.dsisr) :
    s.Contained t :=
  ⟨hsdr1, hslb, hcfg, .inl ⟨hmsr, hsrr0, hsrr1, hdar, hdsisr⟩⟩

theorem loadInto (h : msrPR s.msr = true) (rt : Reg) (ea : Word) (n : Nat) :
    NextMeets s.Contained (loadInto rt ea n s) := by
  intro t ht
  rcases loadInto_next rt ea n s t ht with ⟨as, u, hu, -, rfl⟩ | ⟨e, u, hu, rfl⟩
  · exact of_unitFrame (translateAccess_ok _ _ _ _ _ _ hu) (completes rfl rfl rfl rfl rfl rfl rfl rfl)
  · exact takeException h (translateAccess_fail _ _ _ _ _ _ hu) e

theorem storeFrom (h : msrPR s.msr = true) (ea : Word) (bs : List Byte) :
    NextMeets s.Contained (storeFrom ea bs s) := by
  intro t ht
  rcases storeFrom_next ea bs s t ht with ⟨as, u, hu, -, rfl⟩ | ⟨e, u, hu, rfl⟩
  · exact of_unitFrame ((translateAccess_ok _ _ _ _ _ _ hu).trans u.tlbAgent_frame)
      (completes rfl rfl rfl rfl rfl rfl rfl rfl)
  · exact takeException h (translateAccess_fail _ _ _ _ _ _ hu) e

theorem execSync (s : State) (l : BitVec 2) : NextMeets s.Contained (execSync l s) := by
  unfold Machine.execSync
  split
  · exact nextMeets_refused _ _
  · exact (nextMeets_next _ _).2 (by apply completes <;> simp)

/-- A privileged instruction gives a next state in user mode by its trap alone. -/
theorem exec_privileged (h : msrPR s.msr = true) {i : Instr} (hi : i.privileged = true) :
    NextMeets s.Contained (exec i s) := by
  by_cases htlbia : i = .tlbia → s.cfg.tlbiaImplemented = true
  · rw [exec_privileged_user hi h htlbia, nextMeets_next]
    exact takeException h (.refl s) _
  · obtain ⟨rfl, himpl⟩ := Classical.not_imp.1 htlbia
    rw [exec_tlbia_absent (Bool.eq_false_iff.2 himpl)]
    exact nextMeets_refused _ _

/-- Every instruction in user mode. -/
theorem exec (h : msrPR s.msr = true) (i : Instr) : NextMeets s.Contained (exec i s) := by
  cases i with
  | sync l => exact execSync s l
  | isync => exact (nextMeets_next _ _).2 (completes rfl rfl rfl rfl rfl rfl rfl rfl)
  | lbz rt ra d => exact loadInto h rt _ 1
  | stb rs ra d => exact storeFrom h _ _
  | ld rt ra ds => exact loadInto h rt _ 8
  | std rs ra ds => exact storeFrom h _ _
  | _ => exact exec_privileged h rfl

/-- Every step from user mode: the TLB agent and the fetch stay in the translation unit's frame, and then an exception is
taken or an instruction runs. -/
theorem step (h : msrPR s.msr = true) : NextMeets s.Contained (step s) := by
  intro t ht
  have hfetch := s.tlbAgent_frame.trans (memRead_frame s.tlbAgent s.tlbAgent.pc 4 .fetch)
  obtain ⟨-, ⟨e, u, hu, rfl⟩ | ⟨bs, u, i, rest, hu, -, hx⟩⟩ := step_next s t ht <;>
    rw [fetchBytes] at hu <;> rw [hu] at hfetch
  · exact takeException h hfetch e
  · have hf := hfetch.trans u.tlbAgent_frame
    exact of_unitFrame hf (exec (by rw [hf.regs.msr, h]) i t hx)

end State.Contained

/-- Settles O57: `State.Contained.step`. -/
theorem userModeStepIsContained : Obligations.UserModeStepIsContained := by
  intro s t h ht
  obtain ⟨hsdr1, hslb, hcfg, hregs⟩ := State.Contained.step h t ht
  refine ⟨hsdr1, hslb, hcfg, hregs.imp id ?_⟩
  rintro ⟨⟨hir, hdr, hpr⟩, hsrr0, hsrr1, hgpr, hpc⟩
  exact ⟨hpr, hir, hdr, hsrr0, hsrr1, hgpr, hpc⟩

end Sys2Proof.Machine
end

section
/-! SUPPORT. The SLB instructions (spec/40_slb_tlb_maintenance.md R160 to R164; spec/70_reset_and_hazards.md R261): the
images of an entry in numbers, what each instruction answers in supervisor mode, and the invalidation of entries. -/

namespace Sys2Proof.Machine

/-! The images of an entry in numbers -/

theorem bit_eq_testBit (w : Word) (i : Nat) (h : i < 64) : bit w i = w.toNat.testBit (63 - i) := by
  simp [bit_eq_getLsbD, h, BitVec.testBit_toNat]

theorem imageIndex_eq (b : Word) : imageIndex b = b.toNat % 4096 := by
  simp [imageIndex, slice_toNat]

theorem imageEsid_toNat (b : Word) : (imageEsid b).toNat = b.toNat / 2 ^ 28 := by
  have hb := b.isLt
  rw [imageEsid, slice_toNat]
  omega

theorem slbmteImagesOk_iff (a b : Word) :
    slbmteImagesOk a b = true ↔ a.toNat % 2 ^ 7 = 0 ∧ b.toNat / 2 ^ 12 % 2 ^ 15 = 0 := by
  simp [slbmteImagesOk, ← BitVec.toNat_inj, slice_toNat]

/-- The fields that `slbmte` writes are these bits of the images (R160). -/
theorem entryOfImages_fields (a b : Word) :
    (entryOfImages a b).esid.toNat = b.toNat / 2 ^ 28 ∧ (entryOfImages a b).v = b.toNat.testBit 27 ∧
      (entryOfImages a b).vsid.toNat = a.toNat / 2 ^ 12 ∧ (entryOfImages a b).ks = a.toNat.testBit 11 ∧
      (entryOfImages a b).kp = a.toNat.testBit 10 ∧ (entryOfImages a b).n = a.toNat.testBit 9 ∧
      (entryOfImages a b).l = a.toNat.testBit 8 ∧ (entryOfImages a b).c = a.toNat.testBit 7 := by
  have hvsid : (slice a 0 51).toNat = a.toNat / 2 ^ 12 := by
    have ha := a.isLt
    rw [slice_toNat]
    omega
  exact ⟨imageEsid_toNat b, bit_eq_testBit b 36 (by decide), hvsid, bit_eq_testBit a 52 (by decide),
    bit_eq_testBit a 53 (by decide), bit_eq_testBit a 54 (by decide), bit_eq_testBit a 55 (by decide),
    bit_eq_testBit a 56 (by decide)⟩

theorem vsidImage_toNat (e : SlbEntry) :
    (vsidImage e).toNat = e.vsid.toNat * 2 ^ 12 + e.ks.toNat * 2 ^ 11 + e.kp.toNat * 2 ^ 10 + e.n.toNat * 2 ^ 9 +
      e.l.toNat * 2 ^ 8 + e.c.toNat * 2 ^ 7 := by
  simp only [vsidImage, toNat_append_eq_add, BitVec.toNat_ofBool, BitVec.ofNat_eq_ofNat, BitVec.toNat_ofNat]
  omega

theorem esidImage_toNat (e : SlbEntry) : (esidImage e).toNat = e.esid.toNat * 2 ^ 28 + 2 ^ 27 := by
  simp only [esidImage, toNat_append_eq_add, BitVec.ofNat_eq_ofNat, BitVec.toNat_ofNat]
  omega

/-- The RS image is that of the entry it makes, but for its must-be-zero field. -/
theorem vsidImage_entryOfImages {a b : Word} (h : a.toNat % 2 ^ 7 = 0) : vsidImage (entryOfImages a b) = a := by
  obtain ⟨-, -, hvsid, hks, hkp, hn, hl, hc⟩ := entryOfImages_fields a b
  rw [← BitVec.toNat_inj, vsidImage_toNat, hvsid, hks, hkp, hn, hl, hc]
  simp only [Nat.toNat_testBit]
  omega

/-- The RB image with V = 1 is that of the entry it makes, but for its must-be-zero and index fields. -/
theorem esidImage_entryOfImages {a b : Word} (hv : b.toNat.testBit 27 = true) (h : b.toNat / 2 ^ 12 % 2 ^ 15 = 0) :
    (esidImage (entryOfImages a b)).toNat = b.toNat / 2 ^ 12 * 2 ^ 12 := by
  obtain ⟨hesid, -⟩ := entryOfImages_fields a b
  have hv27 : b.toNat / 2 ^ 27 % 2 = 1 := by rw [← Nat.toNat_testBit, hv, Bool.toNat_true]
  rw [esidImage_toNat, hesid]
  omega

/-- Bit 36 of what `slbmfee` returns is V, also for an invalid entry (R162). -/
theorem slbmfeeValue_testBit (s : State) (e : SlbEntry) : (slbmfeeValue s e).toNat.testBit 27 = e.v := by
  cases hv : e.v with
  | false =>
    rw [slbmfeeValue, hv, if_neg Bool.false_ne_true, ← bit_eq_testBit _ 36 (by decide),
      bit_putBit _ _ _ _ (by decide), if_pos rfl]
  | true =>
    rw [slbmfeeValue, hv, if_pos rfl, esidImage_toNat, Nat.testBit_eq_decide_div_mod_eq, decide_eq_true_eq]
    omega

theorem slbmfevValue_of_valid (s : State) {e : SlbEntry} (h : e.v = true) : slbmfevValue s e = vsidImage e := if_pos h

theorem slbmfeeValue_of_valid (s : State) {e : SlbEntry} (h : e.v = true) : slbmfeeValue s e = esidImage e := if_pos h

theorem slbieSelects_iff (b : Word) (e : SlbEntry) :
    slbieSelects b e = true ↔ e.v = true ∧ e.esid.toNat = b.toNat / 2 ^ 28 := by
  rw [slbieSelects, Bool.and_eq_true, beq_iff_eq, ← BitVec.toNat_inj, imageEsid_toNat]

theorem slbiaSelects_iff (c : Config) (i : Nat) (e : SlbEntry) :
    slbiaSelects c i e = true ↔ e.v = true ∧ ¬ (i = 0 ∧ c.slbiaKeepsEntry0 = true) := by
  rw [slbiaSelects, Bool.and_eq_true, Bool.not_eq_true', ← Bool.not_eq_true, Bool.and_eq_true, beq_iff_eq,
    and_comm (a := i = 0)]

/-! The instructions in supervisor mode -/

section
variable {s : State} (hsup : msrPR s.msr = false)
include hsup

/-- `slbmte` (R160). -/
theorem exec_slbmte (rs rb : Reg) :
    exec (.slbmte rs rb) s =
      if (s.readGpr rb).toNat % 4096 < s.slb.length ∧ (s.readGpr rs).toNat % 2 ^ 7 = 0 ∧
          (s.readGpr rb).toNat / 2 ^ 12 % 2 ^ 15 = 0 then
        .next (s.setSlbRacing ((s.readGpr rb).toNat % 4096) (entryOfImages (s.readGpr rs) (s.readGpr rb))).nextPc
      else .refused .slbOperand := by
  refine (privileged_supervisor s _ hsup).trans ?_
  simp only [imageIndex_eq, slbmteImagesOk_iff, State.slbEntries]

/-- The state in which `slbmte` has completed: its images were legal, and the entry of their index holds their fields. -/
theorem slbmte_next {t : State} {rs rb : Reg} (h : exec (.slbmte rs rb) s = .next t) :
    (s.readGpr rs).toNat % 2 ^ 7 = 0 ∧ (s.readGpr rb).toNat / 2 ^ 12 % 2 ^ 15 = 0 ∧ t.gpr = s.gpr ∧ t.msr = s.msr ∧
      t.slb[(s.readGpr rb).toNat % 4096]? = some (entryOfImages (s.readGpr rs) (s.readGpr rb)) := by
  rw [exec_slbmte hsup] at h
  split at h
  · rename_i hok
    obtain ⟨hi, ha, hb⟩ := hok
    cases h
    exact ⟨ha, hb, rfl, rfl, by simp [hi]⟩
  · cases h

/-- `slbmfev` (R161). -/
theorem exec_slbmfev (rt rb : Reg) :
    exec (.slbmfev rt rb) s =
      s.slb[(s.readGpr rb).toNat % 4096]?.elim (.refused .slbOperand) fun e =>
        .next ({ s with draws := s.draws + 1 }.setGpr rt (slbmfevValue s e)).nextPc := by
  refine (privileged_supervisor s _ hsup).trans ?_
  rw [imageIndex_eq]
  cases s.slb[(s.readGpr rb).toNat % 4096]? <;> rfl

/-- `slbmfee` (R162). -/
theorem exec_slbmfee (rt rb : Reg) :
    exec (.slbmfee rt rb) s =
      s.slb[(s.readGpr rb).toNat % 4096]?.elim (.refused .slbOperand) fun e =>
        .next ({ s with draws := s.draws + 1 }.setGpr rt (slbmfeeValue s e)).nextPc := by
  refine (privileged_supervisor s _ hsup).trans ?_
  rw [imageIndex_eq]
  cases s.slb[(s.readGpr rb).toNat % 4096]? <;> rfl

/-- `slbie` (R163). -/
theorem exec_slbie (rb : Reg) :
    exec (.slbie rb) s =
      if (s.readGpr rb).toNat % 2 ^ 27 = 0 ∧ ∀ e ∈ s.slb, e.v = true →
          e.esid.toNat = (s.readGpr rb).toNat / 2 ^ 28 → e.c = (s.readGpr rb).toNat.testBit 27 then
        .next (s.invalidateSlb fun _ e => slbieSelects (s.readGpr rb) e).nextPc
      else .refused .slbOperand := by
  have hlow : slice (s.readGpr rb) 37 63 = 0 ↔ (s.readGpr rb).toNat % 2 ^ 27 = 0 := by
    simp [← BitVec.toNat_inj, slice_toNat]
  have hclass (e : SlbEntry) : (!slbieSelects (s.readGpr rb) e || e.c == bit (s.readGpr rb) 36) = true ↔
      (e.v = true → e.esid.toNat = (s.readGpr rb).toNat / 2 ^ 28 → e.c = (s.readGpr rb).toNat.testBit 27) := by
    rw [Bool.or_eq_true, Bool.not_eq_true', ← Bool.not_eq_true, ← imp_iff_not_or, slbieSelects_iff, and_imp, beq_iff_eq,
      bit_eq_testBit _ 36 (by decide)]
  refine (privileged_supervisor s _ hsup).trans ?_
  simp only [hlow, List.all_eq_true, hclass]

end

/-! The invalidation of entries -/

section
variable (s : State) (p : Nat → SlbEntry → Bool)

theorem State.getElem?_invalidateSlb_slb (i : Nat) :
    (s.invalidateSlb p).slb[i]? = s.slb[i]?.map fun e => if p i e then { e with v := false } else e :=
  List.getElem?_mapIdx

theorem State.invalidateSlb_slb_of_entry (q : SlbEntry → Bool) :
    (s.invalidateSlb fun _ e => q e).slb = s.slb.map fun e => if q e then { e with v := false } else e :=
  List.mapIdx_eq_iff.2 fun i => by simp

/-- Exactly the old contents of the entries selected enter the window of R261. -/
theorem State.mem_invalidateSlb_slbWindow (i : Nat) (e : SlbEntry) :
    (i, e) ∈ (s.invalidateSlb p).slbWindow ↔ (s.slb[i]? = some e ∧ p i e = true) ∨ (i, e) ∈ s.slbWindow := by
  refine List.mem_append.trans (or_congr_left ?_)
  simp only [List.mem_filterMap, Prod.exists, List.mem_zipIdx_iff_getElem?]
  constructor
  · rintro ⟨e', j, hj, hsome⟩
    split at hsome
    · rename_i hp
      cases hsome
      exact ⟨hj, hp⟩
    · cases hsome
  · rintro ⟨hi, hp⟩
    exact ⟨e, i, hi, if_pos hp⟩

/-- Nothing but the SLB, its window and pc changes. -/
theorem State.invalidateSlb_nextPc_restored :
    { (s.invalidateSlb p).nextPc with slb := s.slb, slbWindow := s.slbWindow, pc := s.pc } = s := rfl

end

/-! The statements -/

/-- Settles O45: the entry is `entryOfImages`. -/
theorem slbmteWritesTheEntry : Obligations.SlbmteWritesTheEntry := by
  intro s rs rb a b hsup hindex ha hb
  exact ⟨entryOfImages (s.readGpr rs) (s.readGpr rb), (exec_slbmte hsup rs rb).trans (if_pos ⟨hindex, ha, hb⟩),
    entryOfImages_fields _ _⟩

/-- Settles O46: the values are `slbmfevValue` and `slbmfeeValue`. -/
theorem slbmfevAndSlbmfeeReadTheEntry : Obligations.SlbmfevAndSlbmfeeReadTheEntry := by
  intro s rt rb e hsup he u
  refine ⟨⟨slbmfevValue s e, ?_, fun hv => ?_⟩, slbmfeeValue s e, ?_, slbmfeeValue_testBit s e, fun hv => ?_⟩
  · rw [exec_slbmfev hsup, he]
    rfl
  · rw [slbmfevValue_of_valid s hv, vsidImage_toNat]
  · rw [exec_slbmfee hsup, he]
    rfl
  · rw [slbmfeeValue_of_valid s hv, esidImage_toNat]

/-- Settles O47: the two instructions find the entry that `slbmte` wrote, and its images are the two registers. -/
theorem slbImagesReadBack : Obligations.SlbImagesReadBack := by
  intro s t rs rb rt rb' hsup ht hv hindex
  obtain ⟨ha, hb, hgpr, hmsr, he⟩ := slbmte_next hsup ht
  have hsup' : msrPR t.msr = false := by rw [hmsr, hsup]
  have he' : t.slb[(t.readGpr rb').toNat % 4096]? = some (entryOfImages (s.readGpr rs) (s.readGpr rb)) := by
    rw [State.readGpr_congr s t hgpr, hindex, he]
  have hvalid : (entryOfImages (s.readGpr rs) (s.readGpr rb)).v = true :=
    (bit_eq_testBit (s.readGpr rb) 36 (by decide)).trans hv
  obtain ⟨⟨_, hfev, hvsid⟩, _, hfee, -, hesid⟩ := slbmfevAndSlbmfeeReadTheEntry t rt rb' _ hsup' he'
  refine ⟨⟨_, hfev, ?_⟩, _, hfee, ?_⟩
  · rw [State.readGpr_setGpr_same, ← vsidImage_entryOfImages (b := s.readGpr rb) ha, ← BitVec.toNat_inj, hvsid hvalid,
      vsidImage_toNat]
  · rw [State.readGpr_setGpr_same, hesid hvalid, ← esidImage_toNat, esidImage_entryOfImages hv hb]

/-- Settles O48: `slbie` is `invalidateSlb` of the entries that `slbieSelects_iff` describes. -/
theorem slbieInvalidatesTheEsid : Obligations.SlbieInvalidatesTheEsid := by
  intro s rb b hsup hlow hclass
  refine ⟨_, (exec_slbie hsup rb).trans (if_pos ⟨hlow, hclass⟩), rfl, ?_, fun i e => ?_,
    s.invalidateSlb_nextPc_restored _⟩
  · simp only [State.nextPc_slb, State.invalidateSlb_slb_of_entry, slbieSelects_iff, b]
  · rw [State.nextPc_slbWindow, State.mem_invalidateSlb_slbWindow, slbieSelects_iff]

/-- Settles O49: `slbia` is `invalidateSlb` of the entries that `slbiaSelects_iff` describes; an entry that was invalid
is what it was. -/
theorem slbiaInvalidatesAllButEntryZero : Obligations.SlbiaInvalidatesAllButEntryZero := by
  refine fun s => ⟨privileged_user s _, fun hsup => ⟨_, privileged_supervisor s _ hsup, rfl, ?_, fun i e he => ?_,
    fun i e => ?_, s.invalidateSlb_nextPc_restored _⟩⟩
  · exact List.length_mapIdx
  · rw [State.nextPc_slb, State.getElem?_invalidateSlb_slb, he, Option.map_some, Option.some_inj]
    by_cases hkept : i = 0 ∧ s.cfg.slbiaKeepsEntry0 = true
    · rw [if_pos hkept, if_neg (by simp [slbiaSelects_iff, hkept])]
    · rw [if_neg hkept]
      cases hv : e.v with
      | true => rw [if_pos ((slbiaSelects_iff _ _ _).2 ⟨hv, hkept⟩)]
      | false => rw [if_neg (by simp [slbiaSelects_iff, hv]), ← hv]
  · rw [State.nextPc_slbWindow, State.mem_invalidateSlb_slbWindow, slbiaSelects_iff]

/-- Settles O50: each operand falls outside the condition under which its instruction has a meaning. -/
theorem undefinedSlbOperandsAreRefused : Obligations.UndefinedSlbOperandsAreRefused := by
  intro s r rb a b hsup
  refine ⟨fun hindex => ?_, fun himage => ?_, fun hoperand => ?_⟩
  · have hnone : s.slb[b % 4096]? = none := List.getElem?_eq_none hindex
    refine ⟨?_, ?_, ?_⟩
    · rw [exec_slbmte hsup, if_neg fun h => absurd h.1 (Nat.not_lt.2 hindex)]
    · rw [exec_slbmfev hsup, hnone, Option.elim_none]
    · rw [exec_slbmfee hsup, hnone, Option.elim_none]
  · rw [exec_slbmte hsup, if_neg]
    rintro ⟨-, ha, hb⟩
    exact himage.elim (· ha) (· hb)
  · rw [exec_slbie hsup, if_neg]
    rintro ⟨hlow, hclass⟩
    rcases hoperand with hne | ⟨e, he, hv, hesid, hc⟩
    · exact hne hlow
    · exact hc (hclass e he hv hesid)

end Sys2Proof.Machine
end

section
/-! SUPPORT. The MSR and the special-purpose registers (spec/41_msr_sdr1_sync.md R180 to R187): the next MSR bit by bit
after `mtmsrd`, `rfid` and exception entry; the invariant that user mode is translated in variant v2; and what each
instruction of file 41 answers. -/

namespace Sys2Proof.Machine

/-! Masks -/

theorem bit_mtmsrdMask {i : Nat} (hi : i < 64) :
    bit mtmsrdMask i = decide (¬(i = 3 ∨ i = 51) ∧ i ∉ [48, 58, 59]) := by
  simp only [mtmsrdMask, bit_or, bit_fieldMask _ _ i, Nat.reduceLeDiff, Nat.reduceLT, ← Bool.decide_or, List.mem_cons,
    List.not_mem_nil, or_false]
  exact decide_eq_decide.2 (by omega)

theorem bit_rfidMask {i : Nat} (hi : i < 64) :
    bit rfidMask i = decide (¬(i = 3 ∨ (33 ≤ i ∧ i ≤ 36) ∨ (42 ≤ i ∧ i ≤ 47)) ∧ i ∉ [48, 58, 59]) := by
  simp only [rfidMask, bit_or, bit_fieldMask _ _ i, Nat.reduceLeDiff, Nat.reduceLT, ← Bool.decide_or, List.mem_cons,
    List.not_mem_nil, or_false]
  exact decide_eq_decide.2 (by omega)

theorem bit_statusMask (i : Nat) : bit statusMask i = decide ((33 ≤ i ∧ i ≤ 36) ∨ (42 ≤ i ∧ i ≤ 47)) := by
  rw [statusMask, bit_or, bit_fieldMask _ _ _ (by decide) (by decide), bit_fieldMask _ _ _ (by decide) (by decide),
    Bool.decide_or]

theorem bit_entryClears (i : Nat) :
    bit entryClears i = decide (i ∈ [45, 48, 49, 50, 52, 53, 54, 55, 58, 59, 61, 62]) := by
  simp only [entryClears, bit_or, bit_fieldMask _ _ i, bit_bitMask _ i, Nat.reduceLeDiff, Nat.reduceLT,
    ← Bool.decide_or, List.mem_cons, List.not_mem_nil, or_false]
  exact decide_eq_decide.2 (by omega)

/-! The next MSR -/

/-- EE, IR and DR come from `s`, forced to 1 by `s[PR]` in variant v2; no other bit changes (R180, R184). -/
theorem bit_putEeIrDr (v : MtmsrdVariant) (s m : Word) (i : Nat) :
    bit (putEeIrDr v s m) i =
      if i ∈ [48, 58, 59] then bit s i || (decide (v = .v2) && bit s 49) else bit m i := by
  rw [putEeIrDr, bit_putBit _ _ _ _ (by decide), bit_putBit _ _ _ _ (by decide), bit_putBit _ _ _ _ (by decide)]
  by_cases h : i ∈ [48, 58, 59]
  · rw [if_pos h]
    simp only [List.mem_cons, List.not_mem_nil, or_false] at h
    rcases h with rfl | rfl | rfl <;> rfl
  · rw [if_neg h]
    simp only [List.mem_cons, List.not_mem_nil, or_false, not_or] at h
    obtain ⟨h48, h58, h59⟩ := h
    rw [if_neg h59, if_neg h58, if_neg h48]

/-- A word made from `s` under a mask that leaves out the bits that are to be kept, and EE, IR and DR: what `mtmsrd` in
variant v2 and `rfid` have in common. -/
theorem bit_putEeIrDr_copyBits (v : MtmsrdVariant) {mask : Word} (s m : Word) {i : Nat} {kept : Prop} [Decidable kept]
    (hmask : bit mask i = decide (¬kept ∧ i ∉ [48, 58, 59])) (hkept : kept → i ∉ [48, 58, 59]) :
    bit (putEeIrDr v s (copyBits mask s m)) i =
      if kept then bit m i
      else if i ∈ [48, 58, 59] then bit s i || (decide (v = .v2) && bit s 49)
      else bit s i := by
  rw [bit_putEeIrDr, bit_copyBits, hmask]
  by_cases hk : kept
  · rw [if_neg (hkept hk), if_pos hk, if_neg (by simp [hk])]
  · rw [if_neg hk]
    by_cases hee : i ∈ [48, 58, 59]
    · rw [if_pos hee, if_pos hee]
    · rw [if_neg hee, if_neg hee, if_pos (decide_eq_true ⟨hk, hee⟩)]

/-- `mtmsrd` with L = 0 in variant v2 (R180). -/
theorem mtmsrdMsr_v2 {l : BitVec 1} (hl : l ≠ 1) (s m : Word) :
    mtmsrdMsr .v2 l s m = putEeIrDr .v2 s (copyBits mtmsrdMask s m) := if_neg hl

/-- The MSR after `mtmsrd` (R180). -/
theorem bit_mtmsrdMsr (v : MtmsrdVariant) (l : BitVec 1) (s m : Word) {i : Nat} (hi : i < 64) :
    bit (mtmsrdMsr v l s m) i =
      if l = 1 then (if i = 48 ∨ i = 62 then bit s i else bit m i)
      else if v = .plain then bit s i
      else if i = 3 ∨ i = 51 then bit m i
      else if i ∈ [48, 58, 59] then bit s i || bit s 49
      else bit s i := by
  by_cases hl : l = 1
  · simp only [mtmsrdMsr, if_pos hl, bit_copyBits, bit_or, bit_bitMask _ i, Nat.reduceLT, Bool.or_eq_true,
      decide_eq_true_eq]
  · rw [if_neg hl]
    cases v with
    | plain => rw [mtmsrdMsr, if_neg hl, if_pos rfl]
    | v2 =>
      rw [mtmsrdMsr_v2 hl, if_neg (by decide)]
      refine bit_putEeIrDr_copyBits .v2 s m (bit_mtmsrdMask hi) ?_
      rintro (rfl | rfl) <;> decide

/-- The MSR after `rfid` (R184). -/
theorem bit_rfidMsr (v : MtmsrdVariant) (s m : Word) {i : Nat} (hi : i < 64) :
    bit (rfidMsr v s m) i =
      if i = 3 ∨ (33 ≤ i ∧ i ≤ 36) ∨ (42 ≤ i ∧ i ≤ 47) then bit m i
      else if i ∈ [48, 58, 59] then bit s i || (decide (v = .v2) && bit s 49)
      else bit s i := by
  refine bit_putEeIrDr_copyBits v s m (bit_rfidMask hi) fun hkept => ?_
  simp only [List.mem_cons, List.not_mem_nil, or_false]
  omega

/-- A bit that exception entry neither clears nor sets afterwards is unchanged (R222). -/
theorem bit_entryMsr_of_kept (m : Word) {i : Nat} (hc : bit entryClears i = false) (h0 : i ≠ 0) (h63 : i < 63) :
    bit (entryMsr m) i = bit m i := by
  rw [entryMsr, bit_putBit _ _ _ _ (by decide), if_neg (by omega), bit_putBit _ _ _ _ (by decide), if_neg h0, bit_and,
    bit_not _ _ (by omega), hc, Bool.not_false, Bool.and_true]

/-- SRR1 at exception entry holds the MSR but for the status bits (R224). -/
theorem bit_entrySrr1 (m status : Word) (i : Nat) :
    bit (entrySrr1 m status) i = if (33 ≤ i ∧ i ≤ 36) ∨ (42 ≤ i ∧ i ≤ 47) then bit status i else bit m i := by
  simp only [entrySrr1, bit_copyBits, bit_statusMask, decide_eq_true_eq]

/-! User mode is translated in variant v2 -/

/-- An MSR image in which PR = 1 implies IR = DR = EE = 1. -/
def UserMsrTranslated (m : Word) : Prop :=
  msrPR m = true → msrIR m = true ∧ msrDR m = true ∧ msrEE m = true

theorem State.userTranslated_iff (s : State) :
    s.UserTranslated ↔ (s.cfg.mtmsrdVariant = .v2 → UserMsrTranslated s.msr) := Iff.rfl

/-- Where PR is taken from the word that EE, IR and DR are, it forces the three of them to 1. -/
theorem userMsrTranslated_putEeIrDr {v m : Word} (h : bit m 49 = bit v 49) : UserMsrTranslated (putEeIrDr .v2 v m) := by
  intro hpr
  rw [msrPR, bit_putEeIrDr, if_neg (by decide), h] at hpr
  simp [msrIR, msrDR, msrEE, bit_putEeIrDr, hpr]

/-- What `mtmsrd` writes in supervisor mode: with L = 1 PR stays 0, with L = 0 the new PR forces the three bits (R180). -/
theorem userMsrTranslated_mtmsrdMsr (l : BitVec 1) (v : Word) {m : Word} (hsup : msrPR m = false) :
    UserMsrTranslated (mtmsrdMsr .v2 l v m) := by
  by_cases hl : l = 1
  · intro hpr
    rw [msrPR, bit_mtmsrdMsr _ _ _ _ (by decide), if_pos hl, if_neg (by decide)] at hpr
    exact absurd (hpr.symm.trans hsup) (by decide)
  · rw [mtmsrdMsr_v2 hl]
    exact userMsrTranslated_putEeIrDr ((bit_copyBits _ _ _ _).trans (if_pos (by decide)))

/-- What `rfid` writes: the new PR is SRR1's, which forces the three bits (R184). -/
theorem userMsrTranslated_rfidMsr (v m : Word) : UserMsrTranslated (rfidMsr .v2 v m) :=
  userMsrTranslated_putEeIrDr ((bit_copyBits _ _ _ _).trans (if_pos (by decide)))

namespace State.UserTranslated
variable {s t : State}

theorem of_supervisor (h : msrPR t.msr = false) : t.UserTranslated :=
  fun _ hpr => absurd hpr (by simp [h])

theorem takeException (s : State) (e : Exc) : (s.takeException e).UserTranslated :=
  of_supervisor (entryMsr_realSupervisor s.msr).2.2

theorem congr (h : s.UserTranslated) (hcfg : t.cfg = s.cfg) (hmsr : t.msr = s.msr) : t.UserTranslated := by
  rw [State.UserTranslated, hcfg, hmsr]
  exact h

/-- What the translation unit and the TLB agent do. -/
theorem unitFrame (h : s.UserTranslated) (f : s.UnitFrame t) : t.UserTranslated := h.congr f.regs.cfg f.regs.msr

theorem execMtmsrd (s : State) (rs : Reg) (l : BitVec 1) : NextMeets State.UserTranslated (exec (.mtmsrd rs l) s) := by
  intro t ht
  obtain ⟨-, rfl⟩ | ⟨hsup, ht⟩ := (privileged_next s t _).1 ht
  · exact takeException s _
  · cases ht
    refine (State.userTranslated_iff _).2 fun (hv : s.cfg.mtmsrdVariant = .v2) => ?_
    rw [State.nextPc_msr, State.setMsrRacing_msr, hv]
    exact userMsrTranslated_mtmsrdMsr l _ hsup

theorem execRfid (s : State) : NextMeets State.UserTranslated (exec .rfid s) := by
  intro t ht
  obtain ⟨-, rfl⟩ | ⟨-, ht⟩ := (privileged_next s t _).1 ht
  · exact takeException s _
  · cases ht
    refine (State.userTranslated_iff _).2 fun (hv : s.cfg.mtmsrdVariant = .v2) => ?_
    rw [State.returnFromException_msr, hv]
    exact userMsrTranslated_rfidMsr _ _

/-- Every instruction keeps it: `mtmsrd` and `rfid` by what they write, the others because the MSR is unchanged or that
of exception entry. -/
theorem exec (h : s.UserTranslated) (i : Instr) : NextMeets State.UserTranslated (exec i s) := by
  intro t ht
  obtain ⟨-, -, hchange, -, hcfg⟩ := SystemChange.exec s i t ht
  by_cases hmsr : t.msr = s.msr
  · exact h.congr hcfg hmsr
  · obtain ⟨-, ⟨rs, l, rfl⟩ | rfl⟩ | ⟨-, -, -, hpr⟩ := hchange hmsr
    · exact execMtmsrd s rs l t ht
    · exact execRfid s t ht
    · exact of_supervisor hpr

/-- Every step keeps it: the TLB agent and the fetch change neither the MSR nor the parameters, and then an exception is
taken or an instruction runs. -/
theorem step (h : s.UserTranslated) : NextMeets State.UserTranslated (step s) := by
  intro t ht
  have hfetch := s.tlbAgent_frame.trans (memRead_frame s.tlbAgent s.tlbAgent.pc 4 .fetch)
  obtain ⟨-, ⟨e, u, hu, rfl⟩ | ⟨bs, u, i, rest, hu, -, hx⟩⟩ := step_next s t ht
  · exact takeException u e
  · rw [fetchBytes] at hu
    rw [hu] at hfetch
    exact (h.unitFrame (hfetch.trans u.tlbAgent_frame)).exec i t hx

end State.UserTranslated

/-- Settles O55: `State.UserTranslated.step`. -/
theorem stepKeepsUserModeTranslated : Obligations.StepKeepsUserModeTranslated :=
  fun _ t h ht => h.step t ht

/-! Return from an exception -/

/-- Clearing bits 62:63 rounds down to a multiple of 4. -/
theorem toNat_clear_low (w : Word) : (w &&& ~~~(fieldMask 62 63)).toNat = w.toNat / 4 * 4 := by
  have hmask : ~~~(fieldMask 62 63) = BitVec.allOnes 64 <<< 2 := by decide
  have hw := w.isLt
  rw [hmask, ← BitVec.shiftLeft_ushiftRight, BitVec.toNat_shiftLeft, BitVec.toNat_ushiftRight,
    Nat.shiftRight_eq_div_pow, Nat.shiftLeft_eq]
  omega

theorem exec_rfid {s : State} (hsup : msrPR s.msr = false) : exec .rfid s = .next s.returnFromException :=
  privileged_supervisor s _ hsup

/-- Settles O39: the next state is `State.returnFromException`. -/
theorem rfidRestores : Obligations.RfidRestores := fun s =>
  ⟨privileged_user s _, fun hsup => ⟨_, exec_rfid hsup, toNat_clear_low s.srr0, ⟨rfl, rfl, rfl⟩, rfl,
    fun _ hi => bit_rfidMsr s.cfg.mtmsrdVariant s.srr1 s.msr hi⟩⟩

/-- Where user mode is translated, PR forces nothing that is not already 1. -/
theorem or_forced_eq {v : MtmsrdVariant} {m : Word} (h : v = .v2 → UserMsrTranslated m) {i : Nat}
    (hi : i ∈ [48, 58, 59]) : (bit m i || (decide (v = .v2) && bit m 49)) = bit m i := by
  rw [Bool.or_eq_left_iff_imp, Bool.and_eq_true, decide_eq_true_eq]
  rintro ⟨hv, hpr⟩
  obtain ⟨hir, hdr, hee⟩ := h hv hpr
  simp only [List.mem_cons, List.not_mem_nil, or_false] at hi
  rcases hi with rfl | rfl | rfl <;> assumption

/-- The MSR that `rfid` makes of what exception entry has left, where user mode is translated: the bits that `rfid` does
not copy are among those that entry keeps, EE, IR and DR are already what PR forces them to be, and every other bit comes
back from SRR1. -/
theorem bit_rfidMsr_entry {v : MtmsrdVariant} {m : Word} (h : v = .v2 → UserMsrTranslated m) (status : Word) {i : Nat}
    (hi : i < 64) (hpow : i ≠ 45) : bit (rfidMsr v (entrySrr1 m status) (entryMsr m)) i = bit m i := by
  rw [bit_rfidMsr _ _ _ hi]
  by_cases hkept : i = 3 ∨ (33 ≤ i ∧ i ≤ 36) ∨ (42 ≤ i ∧ i ≤ 47)
  · rw [if_pos hkept]
    refine bit_entryMsr_of_kept m ?_ (by omega) (by omega)
    rw [bit_entryClears, decide_eq_false_iff_not]
    simp only [List.mem_cons, List.not_mem_nil, or_false]
    omega
  · have hsrr1 : bit (entrySrr1 m status) i = bit m i := by rw [bit_entrySrr1, if_neg (by omega)]
    have hpr : bit (entrySrr1 m status) 49 = bit m 49 := msrPR_entrySrr1 m status
    rw [if_neg hkept, hsrr1, hpr]
    exact ite_eq_right_iff.2 (or_forced_eq h)

/-- Settles O40: `rfid` runs in supervisor mode after entry, SRR0 is the pc, and the MSR is that of
`bit_rfidMsr_entry`. -/
theorem rfidReturnsToTheInterruptedContext : Obligations.RfidReturnsToTheInterruptedContext := by
  intro s e hpc huser
  refine ⟨_, exec_rfid (entryMsr_realSupervisor s.msr).2.2, ?_, by simp, by simp, by simp, fun i hi hpow => ?_⟩
  · refine BitVec.eq_of_toNat_eq ((toNat_clear_low s.pc).trans ?_)
    omega
  · have hmsr : (s.takeException e).returnFromException.msr =
        rfidMsr s.cfg.mtmsrdVariant (entrySrr1 s.msr (statusBits e)) (entryMsr s.msr) := by simp
    rw [hmsr, bit_rfidMsr_entry huser _ hi hpow]

/-! Registers -/

/-- Settles O41: the MSR is `mtmsrdMsr`, and the window of R260 compares it with the old one. -/
theorem mtmsrdWritesMsr : Obligations.MtmsrdWritesMsr := by
  intro s rs l v
  refine ⟨privileged_user s _, fun hsup => ⟨_, privileged_supervisor s _ hsup, rfl, rfl,
    fun i hi => bit_mtmsrdMsr s.cfg.mtmsrdVariant l v s.msr hi, ?_, ?_, ?_⟩⟩
  all_goals exact congrArg (_ || ·) (bne_comm ..)

/-- Settles O42: the privilege check passes in supervisor mode. -/
theorem mfmsrReadsMsr : Obligations.MfmsrReadsMsr :=
  fun s _ => ⟨privileged_supervisor s _, privileged_user s _⟩

/-- `mtspr` in supervisor mode (R182). -/
theorem exec_mtspr {s : State} (hsup : msrPR s.msr = false) (n : BitVec 10) (rs : Reg) :
    exec (.mtspr n rs) s = (s.writeSpr n (s.readGpr rs)).elim (.refused (.sprOutsideSpec n)) (.next ·.nextPc) := by
  refine (privileged_supervisor s _ hsup).trans ?_
  cases s.writeSpr n (s.readGpr rs) <;> rfl

/-- `mfspr` in supervisor mode (R183). -/
theorem exec_mfspr {s : State} (hsup : msrPR s.msr = false) (rt : Reg) (n : BitVec 10) :
    exec (.mfspr rt n) s = (s.readSpr n).elim (.refused (.sprOutsideSpec n)) fun v =>
      .next (s.setGpr rt v).nextPc := by
  refine (privileged_supervisor s _ hsup).trans ?_
  cases s.readSpr n <;> rfl

/-- Only the five numbers of R187 name a register. -/
theorem writeSpr_of_outside (s : State) (v : Word) {n : BitVec 10} (hn : n ∉ sprNumbers) : s.writeSpr n v = none := by
  simp only [sprNumbers, List.mem_cons, List.not_mem_nil, or_false, not_or] at hn
  obtain ⟨h18, h19, h25, h26, h27⟩ := hn
  rw [State.writeSpr, if_neg h25, if_neg h26, if_neg h27, if_neg h19, if_neg h18]

theorem readSpr_of_outside (s : State) {n : BitVec 10} (hn : n ∉ sprNumbers) : s.readSpr n = none := by
  simp only [sprNumbers, List.mem_cons, List.not_mem_nil, or_false, not_or] at hn
  obtain ⟨h18, h19, h25, h26, h27⟩ := hn
  rw [State.readSpr, if_neg h25, if_neg h26, if_neg h27, if_neg h19, if_neg h18]

/-- Settles O43: `State.writeSpr` at each of the five numbers, and at another. -/
theorem mtsprWritesTheNamedRegister : Obligations.MtsprWritesTheNamedRegister := by
  intro s rs hsup v
  refine ⟨exec_mtspr hsup 25 rs, exec_mtspr hsup 26 rs, exec_mtspr hsup 27 rs, exec_mtspr hsup 19 rs,
    exec_mtspr hsup 18 rs, fun n hn => ?_⟩
  rw [exec_mtspr hsup, writeSpr_of_outside s _ hn, Option.elim_none]

/-- Settles O44: `State.readSpr` at each of the five numbers, and at another. -/
theorem mfsprReadsTheNamedRegister : Obligations.MfsprReadsTheNamedRegister := by
  intro s rt u
  refine ⟨fun h _ _ => privileged_user s _ h, fun hsup => ⟨exec_mfspr hsup rt 25, exec_mfspr hsup rt 26,
    exec_mfspr hsup rt 27, exec_mfspr hsup rt 19, ?_, fun n hn => ?_⟩⟩
  · rw [BitVec.ofNat_toNat]
    exact exec_mfspr hsup rt 18
  · rw [exec_mfspr hsup, readSpr_of_outside s hn, Option.elim_none]

/-! Synchronisation -/

/-- Settles O53: `State.storageSync` at each value of L, and `State.contextSync`. -/
theorem syncAndIsyncCloseWindows : Obligations.SyncAndIsyncCloseWindows :=
  fun _ => ⟨rfl, rfl, rfl, rfl, rfl⟩

end Sys2Proof.Machine
end

section
/-! SUPPORT. What exception entry writes (spec/60_exceptions.md R212 to R217, R221 to R225): the MSR, the status in SRR1
and DSISR, bit by bit. -/

namespace Sys2Proof.Machine

/-! The MSR -/

/-- The MSR at exception entry (R221, R222): no bit that is cleared is SF or LE, which are set last. -/
theorem bit_entryMsr (m : Word) {i : Nat} (hi : i < 64) :
    bit (entryMsr m) i =
      if i ∈ [45, 48, 49, 50, 52, 53, 54, 55, 58, 59, 61, 62] then false
      else if i = 0 then true else if i = 63 then bit m 47 else bit m i := by
  by_cases hc : i ∈ [45, 48, 49, 50, 52, 53, 54, 55, 58, 59, 61, 62]
  · have h0 : i ≠ 0 := fun h => absurd (h ▸ hc) (by decide)
    have h63 : i ≠ 63 := fun h => absurd (h ▸ hc) (by decide)
    rw [if_pos hc]
    exact bit_entryMsr_of_cleared m (by rw [bit_entryClears, decide_eq_true hc]) h0 (by omega)
  · rw [if_neg hc]
    by_cases h0 : i = 0
    · rw [if_pos h0, h0, entryMsr, bit_putBit _ _ _ _ (by decide), if_neg (by decide), bit_putBit _ _ _ _ (by decide),
        if_pos rfl]
    · rw [if_neg h0]
      by_cases h63 : i = 63
      · rw [if_pos h63, h63, entryMsr, bit_putBit _ _ _ _ (by decide), if_pos rfl, msrILE]
      · rw [if_neg h63]
        exact bit_entryMsr_of_kept m (by rw [bit_entryClears, decide_eq_false hc]) h0 (by omega)

/-- Settles O35: `bit_entryMsr`; the statement lists the cleared bits in R221's order. -/
theorem entryMsrBits : Obligations.EntryMsrBits := by
  intro s e i hi
  rw [State.takeException_msr, bit_entryMsr _ hi]
  have horder : [45, 48, 49, 50, 52, 53, 54, 55, 58, 59, 61, 62].Perm
      [58, 59, 49, 48, 62, 45, 50, 52, 53, 54, 55, 61] := by decide
  simp only [horder.mem_iff]

/-! The status in SRR1 -/

/-- The status of each exception (R212 to R217): at most one bit. -/
theorem bit_statusBits (e : Exc) (i : Nat) :
    bit (statusBits e) i =
      decide ((e = .instructionStorage .pageFault ∧ i = 33) ∨ (e = .instructionStorage .noExecute ∧ i = 35) ∨
        (e = .instructionStorage .protection ∧ i = 36) ∨ (e = .programPrivileged ∧ i = 45)) := by
  cases e with
  | instructionStorage cause => cases cause <;> simp [statusBits, bit_bitMask]
  | programPrivileged => simp [statusBits, bit_bitMask]
  | dataStorage _ _ _ | dataSegment _ | instructionSegment => simp [statusBits, bit]

/-- Settles O36: SRR1 is that of `bit_entrySrr1` with the status of `bit_statusBits`. -/
theorem entrySavesAndVectors : Obligations.EntrySavesAndVectors := by
  intro s e t
  refine ⟨rfl, fun i _ => ?_, rfl, ⟨rfl, rfl, rfl⟩, s.takeException_gpr e, s.takeException_sdr1 e,
    s.takeException_slb e, s.takeException_tlb e, s.takeException_mem e, s.takeException_cfg e⟩
  rw [State.takeException_srr1, bit_entrySrr1, bit_statusBits]

/-! DAR and DSISR -/

/-- DSISR after a data storage exception (R213). -/
theorem bit_dsisrOf (cause : DataCause) (store : Bool) :
    ∀ i, i < 32 → bit (dsisrOf cause store) i =
      decide ((i = 1 ∧ cause = .pageFault) ∨ (i = 4 ∧ cause = .protection) ∨ (i = 6 ∧ store = true)) := by
  cases cause <;> cases store <;> decide

/-- Settles O37: `State.writeFaultRegisters` for each exception, and `bit_dsisrOf`. -/
theorem entryFaultRegisters : Obligations.EntryFaultRegisters := by
  refine fun s => ⟨fun ea cause store => ⟨rfl, bit_dsisrOf cause store⟩, fun _ => rfl, fun e he => ?_⟩
  have hkept : s.writeFaultRegisters e = s := by
    obtain ⟨_, rfl⟩ | rfl | rfl := he <;> rfl
  rw [State.takeException_dar, State.takeException_dsisr, hkept]
  exact ⟨rfl, rfl⟩

end Sys2Proof.Machine
end
